-- ==== Sys2Proof/Word.lean ====
section
/-! DEFINITION. The word types of the AFC (spec/00_scope.md R14, R16; spec/30_encoding.md R54). -/

namespace Sys2Proof

/-- A byte: 8 bits, bit 0 the least significant (R14). -/
abbrev Byte := BitVec 8

/-- Half a byte: `b[3:0]` or `b[7:4]` (R14). -/
abbrev Nibble := BitVec 4

/-- A 7-bit code point of the default alphabet (R19). -/
abbrev Septet := BitVec 7

/-- A character: one 16-bit code unit (R16, decision D4). -/
abbrev Char16 := BitVec 16

/-- A register value or a command word: 32 bits (R32, R54). -/
abbrev Word := BitVec 32

end Sys2Proof
end

