-- ==== Sys2Proof/Config.lean ====
section
/-! DEFINITION. What an implementation fixes (the parameters of spec/00_scope.md R11), and the free values the
spec leaves open (spec/10_state.md R35). The default parameters are `Sys2Proof.Machine.defaultParams`. -/

namespace Sys2Proof

/-- The five element stores of 20_memory.md R40 (2) to (6): the FIELD storage and the four host-visible buffers. -/
inductive Store where
  | raw
  | ibuf
  | ichr
  | obuf
  | ochr
  deriving DecidableEq, Repr

/-- The configuration parameters of R11, fixed before reset. `P_BUS_MAP` is not among them: a model that addresses
state by (space, index) does not take it (R46). The two sets and `P_ALNUM_PLAN` are typed by the width of the code,
which is R13 (f) and the range of R13 (e). -/
structure Params where
  /-- `P_IBUF_CAP`, in bytes. -/
  ibufCap : Nat
  /-- `P_ICHR_CAP`, in characters. -/
  ichrCap : Nat
  /-- `P_OBUF_CAP`, in bytes. -/
  obufCap : Nat
  /-- `P_OCHR_CAP`, in characters. -/
  ochrCap : Nat
  /-- `P_RAW_CAP`, in bytes. -/
  rawCap : Nat
  /-- `P_ALNUM_PLAN`: the plan code that selects the alphanumeric body (R90). -/
  alnumPlan : BitVec 4
  /-- `P_NATURE_DEFINED`: the address-nature codes that decode to a defined value (R67). -/
  natureDefined : List (BitVec 3)
  /-- `P_PLAN_DEFINED`: the numbering-plan codes that decode to a defined value (R67). -/
  planDefined : List (BitVec 4)
  /-- `P_GSM7_BASIC`: septet and character, one entry for each septet but the escape 0x1B (R78). -/
  gsm7Basic : List (Septet × Char16)
  /-- `P_GSM7_EXT`: septet after the escape and character (R79). -/
  gsm7Ext : List (Septet × Char16)
  deriving DecidableEq, Repr

/-- FREE VALUE (log 1): what element `index` of store `which` holds when nothing has written it since the store's
free draw number `draw` began (R35). No body: no statement can depend on a value of it. -/
opaque Config.unspecified (w : Nat) (which : Store) (draw index : Nat) : BitVec w

/-- `DIGIT_CEILING`, the largest digit string Construct accepts on the digit path (R12). -/
def Config.digitCeiling : Nat := 38

end Sys2Proof
end

