-- ==== Sys2Proof/Syntax.lean ====
section
/-! DEFINITION. The commands of the AFC as syntax: one constructor per row of spec/opcode_table.json
(spec/30_encoding.md R58), the four formats (R55), the two ways a word is illegal (R59), and the assembler line (R62). -/

namespace Sys2Proof

/-- The 13 commands of R58, each with the operand fields its format uses (R55). A field that the rules call
"not read" (NAT when NATP = 0, PLN when PLNP = 0, R57) is kept: its bits are not must-be-zero. -/
inductive Instr where
  /-- HDR_ENC, format H: NAT, PLN, EXT (R68). -/
  | hdrEnc (nat : BitVec 3) (pln : BitVec 4) (ext : Bool)
  /-- HDR_DEC, format I: the header byte to decode (R69). -/
  | hdrDec (imm8 : Byte)
  /-- BCD_ENC, format N (R76). -/
  | bcdEnc
  /-- BCD_DEC, format I: digitCount (R77). -/
  | bcdDec (imm8 : Byte)
  /-- G7_ENC, format N (R88). -/
  | g7Enc
  /-- G7_DEC, format N (R89). -/
  | g7Dec
  /-- FLD_CONS, format F: NAT, NATP, PLN, PLNP, EXT, ADRP (R91). -/
  | fldCons (nat : BitVec 3) (natp : Bool) (pln : BitVec 4) (plnp : Bool) (ext adrp : Bool)
  /-- FLD_LOAD, format N (R92). -/
  | fldLoad
  /-- FLD_RAW, format N (R93). -/
  | fldRaw
  /-- FLD_NAT, format N (R95). -/
  | fldNat
  /-- FLD_PLAN, format N (R96). -/
  | fldPlan
  /-- FLD_EXT, format N (R97). -/
  | fldExt
  /-- FLD_ADDR, format N (R99). -/
  | fldAddr
  deriving DecidableEq, Repr

/-- The four command formats of R55. -/
inductive Format where
  | n
  | i
  | h
  | f
  deriving DecidableEq, Repr

/-- Why a word selects no command (R59, R60). -/
inductive IllegalWord where
  /-- The opcode is unassigned: ILLEGAL_CMD/1. -/
  | unassignedOpcode
  /-- The opcode is assigned and a must-be-zero bit of its format is 1: ILLEGAL_CMD/2. -/
  | mustBeZero
  deriving DecidableEq, Repr

/-- One command line of the assembler (R62), its operands already read as numbers of the right width. In
`fldCons`, `none` is an operand left out. -/
inductive AsmLine where
  | hdrEnc (nat : BitVec 3) (pln : BitVec 4) (ext : Bool)
  | hdrDec (value : Byte)
  | bcdEnc
  | bcdDec (value : Byte)
  | g7Enc
  | g7Dec
  | fldCons (nat : Option (BitVec 3)) (pln : Option (BitVec 4)) (ext : Bool) (adr : Bool)
  | fldLoad
  | fldRaw
  | fldNat
  | fldPlan
  | fldExt
  | fldAddr
  /-- `.word <v>`: an arbitrary word, legal or not. -/
  | word (v : Word)
  deriving DecidableEq, Repr

end Sys2Proof
end

