-- ==== Sys2Proof/WellFormed.lean ====
section
/-! DEFINITION. Well-formedness: of a configuration (spec/00_scope.md R13, spec/42_gsm7.md R80), which a model must
refuse when it is broken, and of an instruction. -/

namespace Sys2Proof

/-- The septet 0x1B that announces an extension character (R78, R79). -/
def escapeSeptet : Septet := 0x1B

/-- No value stands twice in the list. Compared as numbers, so that the kernel evaluates it fast. -/
def distinct : List Nat → Bool
  | [] => true
  | a :: t => t.all (fun b => !Nat.beq a b) && distinct t

/-- R13 (a). -/
def Params.rawCapOk (p : Params) : Bool := decide (20 ≤ p.rawCap ∧ p.rawCap ≤ 65535)

/-- R13 (b), for one capacity. -/
def capInRange (c : Nat) : Bool := decide (1 ≤ c ∧ c ≤ 65535)

/-- R13 (b). -/
def Params.bufferCapsOk (p : Params) : Bool :=
  capInRange p.ibufCap && capInRange p.ichrCap && capInRange p.obufCap && capInRange p.ochrCap

/-- R13 (c): FLD_RAW always fits. -/
def Params.obufHoldsRaw (p : Params) : Bool := decide (p.rawCap ≤ p.obufCap)

/-- R13 (d): no decoder result can overflow OCHR. -/
def Params.ochrHoldsDecoded (p : Params) : Bool :=
  decide (255 ≤ p.ochrCap ∧ 2 * (p.rawCap - 1) ≤ p.ochrCap ∧
    8 * max p.ibufCap (p.rawCap - 1) / 7 ≤ p.ochrCap)

/-- R13 (e): `P_ALNUM_PLAN` is in `P_PLAN_DEFINED` (its range 0..15 is its type). -/
def Params.alnumPlanDefined (p : Params) : Bool := p.planDefined.contains p.alnumPlan

/-- R80 (a): the basic table is defined on every septet but the escape, once, and is injective. -/
def Params.basicTableOk (p : Params) : Bool :=
  distinct (p.gsm7Basic.map fun e => e.1.toNat) &&
  distinct (p.gsm7Basic.map fun e => e.2.toNat) &&
  p.gsm7Basic.all (fun e => e.1 != escapeSeptet) &&
  Nat.beq p.gsm7Basic.length 127

/-- R80 (b): the extension table is a map, is injective and has no key 0x1B. -/
def Params.extTableOk (p : Params) : Bool :=
  distinct (p.gsm7Ext.map fun e => e.1.toNat) &&
  distinct (p.gsm7Ext.map fun e => e.2.toNat) &&
  p.gsm7Ext.all (fun e => e.1 != escapeSeptet)

/-- R80 (c): no character is in the image of both tables. -/
def Params.tablesDisjoint (p : Params) : Bool :=
  p.gsm7Ext.all fun e => p.gsm7Basic.all fun b => !Nat.beq e.2.toNat b.2.toNat

/-- R13: the configuration is well-formed. One that is not, a model must refuse. R13 (f) is carried by the types. -/
def Params.wf (p : Params) : Bool :=
  p.rawCapOk && p.bufferCapsOk && p.obufHoldsRaw && p.ochrHoldsDecoded && p.alnumPlanDefined &&
  p.basicTableOk && p.extTableOk && p.tablesDisjoint

/-- A configuration the model accepts: parameters paired with the proof that they meet R13, so that an ill-formed
configuration stands in no state. -/
structure Config where
  params : Params
  wf : params.wf = true
  deriving DecidableEq, Repr

/-- An instruction is well-formed when every field fits its place in the word (R54). The fields' types have exactly
those widths, so no ill-formed term can be written: every constructor answers true. -/
def Instr.wf : Instr → Bool
  | .hdrEnc _ _ _ => true
  | .hdrDec _ => true
  | .bcdEnc => true
  | .bcdDec _ => true
  | .g7Enc => true
  | .g7Dec => true
  | .fldCons _ _ _ _ _ _ => true
  | .fldLoad => true
  | .fldRaw => true
  | .fldNat => true
  | .fldPlan => true
  | .fldExt => true
  | .fldAddr => true

/-- The instruction is one that a command line of R62 assembles to: an operand left out has presence bit 0 AND code
0. Every other well-formed instruction is written with `.word` and is as legal (R55: NAT and PLN are no must-be-zero
bits of format F). -/
def Instr.fromLine : Instr → Bool
  | .fldCons nat natp pln plnp _ _ => (natp || nat == 0) && (plnp || pln == 0)
  | .hdrEnc _ _ _ => true
  | .hdrDec _ => true
  | .bcdEnc => true
  | .bcdDec _ => true
  | .g7Enc => true
  | .g7Dec => true
  | .fldLoad => true
  | .fldRaw => true
  | .fldNat => true
  | .fldPlan => true
  | .fldExt => true
  | .fldAddr => true

end Sys2Proof
end

