-- ==== Sys2Proof/Decode.lean ====
section
/-! DEFINITION. Decoding a 32-bit command word (spec/30_encoding.md R54 to R60), the encoder, and assembling a command
line (R62). -/

namespace Sys2Proof

/-- The fixed bits of each format (R55). -/
def Format.mask : Format → Word
  | .n => 0xFFFFFFFF
  | .i => 0xFFFF00FF
  | .h => 0xFD08FFFF
  | .f => 0xF800FFFF

/-! The fields of a command word (R54). -/

/-- OPC, bits [7:0]. -/
def opcOf (v : Word) : BitVec 8 := v.extractLsb' 0 8

/-- IMM8, bits [15:8]. -/
def imm8Of (v : Word) : Byte := v.extractLsb' 8 8

/-- NAT, bits [18:16]. -/
def natOf (v : Word) : BitVec 3 := v.extractLsb' 16 3

/-- NATP, bit [19]. -/
def natpOf (v : Word) : Bool := v.getLsbD 19

/-- PLN, bits [23:20]. -/
def plnOf (v : Word) : BitVec 4 := v.extractLsb' 20 4

/-- PLNP, bit [24]. -/
def plnpOf (v : Word) : Bool := v.getLsbD 24

/-- EXT, bit [25]. -/
def extOf (v : Word) : Bool := v.getLsbD 25

/-- ADRP, bit [26]. -/
def adrpOf (v : Word) : Bool := v.getLsbD 26

/-- One row of the opcode map: the opcode, its format, and the command with its fields taken from the word. -/
structure OpcodeRow where
  opc : BitVec 8
  format : Format
  build : Word → Instr

/-- The opcode map (R58). Every opcode not in it is unassigned (R59). -/
def opcodeTable : List OpcodeRow := [
  ⟨0x01, .h, fun v => .hdrEnc (natOf v) (plnOf v) (extOf v)⟩,
  ⟨0x02, .i, fun v => .hdrDec (imm8Of v)⟩,
  ⟨0x03, .n, fun _ => .bcdEnc⟩,
  ⟨0x04, .i, fun v => .bcdDec (imm8Of v)⟩,
  ⟨0x05, .n, fun _ => .g7Enc⟩,
  ⟨0x06, .n, fun _ => .g7Dec⟩,
  ⟨0x10, .f, fun v => .fldCons (natOf v) (natpOf v) (plnOf v) (plnpOf v) (extOf v) (adrpOf v)⟩,
  ⟨0x11, .n, fun _ => .fldLoad⟩,
  ⟨0x12, .n, fun _ => .fldRaw⟩,
  ⟨0x13, .n, fun _ => .fldNat⟩,
  ⟨0x14, .n, fun _ => .fldPlan⟩,
  ⟨0x15, .n, fun _ => .fldExt⟩,
  ⟨0x16, .n, fun _ => .fldAddr⟩]

/-- The row of an opcode, if it is assigned. -/
def rowOf (opc : BitVec 8) : Option OpcodeRow := opcodeTable.find? fun r => r.opc == opc

/-- The decoder of R60: the opcode is looked up first, then the must-be-zero bits of its format are checked. Total on
every word. -/
def decode (v : Word) : Except IllegalWord Instr :=
  match rowOf (opcOf v) with
  | none => .error .unassignedOpcode
  | some r =>
    if v &&& r.format.mask = r.opc.setWidth 32 then .ok (r.build v) else .error .mustBeZero

/-- The word with the given fields (R54), RSV zero. -/
def commandWord (opc : BitVec 8) (imm8 : Byte) (nat : BitVec 3) (natp : Bool) (pln : BitVec 4)
    (plnp ext adrp : Bool) : Word :=
  ((BitVec.ofBool adrp).setWidth 32 <<< 26) ||| ((BitVec.ofBool ext).setWidth 32 <<< 25) |||
    ((BitVec.ofBool plnp).setWidth 32 <<< 24) ||| (pln.setWidth 32 <<< 20) |||
    ((BitVec.ofBool natp).setWidth 32 <<< 19) ||| (nat.setWidth 32 <<< 16) ||| (imm8.setWidth 32 <<< 8) |||
    opc.setWidth 32

/-- A word of format N (R55). -/
def wordN (opc : BitVec 8) : Word := commandWord opc 0 0 false 0 false false false

/-- A word of format I (R55). -/
def wordI (opc : BitVec 8) (imm8 : Byte) : Word := commandWord opc imm8 0 false 0 false false false

/-- The command word of an instruction (R54, R55, R58). -/
def encode : Instr → Word
  | .hdrEnc nat pln ext => commandWord 0x01 0 nat false pln false ext false
  | .hdrDec imm8 => wordI 0x02 imm8
  | .bcdEnc => wordN 0x03
  | .bcdDec imm8 => wordI 0x04 imm8
  | .g7Enc => wordN 0x05
  | .g7Dec => wordN 0x06
  | .fldCons nat natp pln plnp ext adrp => commandWord 0x10 0 nat natp pln plnp ext adrp
  | .fldLoad => wordN 0x11
  | .fldRaw => wordN 0x12
  | .fldNat => wordN 0x13
  | .fldPlan => wordN 0x14
  | .fldExt => wordN 0x15
  | .fldAddr => wordN 0x16

/-- The instruction this decoder reads from the 32-bit word whose low `nbits` bits are `w` and whose other bits are 0.
A command is one 32-bit word written whole to CMD (R54, R61): there is no byte order to lay out. -/
def decodeTableWord (nbits w : Nat) : Option Instr :=
  match decode (BitVec.ofNat 32 (w % 2 ^ nbits)) with
  | .ok i => some i
  | .error _ => none

/-- The word a command line assembles to (R62). -/
def assemble : AsmLine → Word
  | .hdrEnc nat pln ext => encode (.hdrEnc nat pln ext)
  | .hdrDec v => encode (.hdrDec v)
  | .bcdEnc => encode .bcdEnc
  | .bcdDec v => encode (.bcdDec v)
  | .g7Enc => encode .g7Enc
  | .g7Dec => encode .g7Dec
  | .fldCons nat pln ext adr => encode (.fldCons (nat.getD 0) nat.isSome (pln.getD 0) pln.isSome ext adr)
  | .fldLoad => encode .fldLoad
  | .fldRaw => encode .fldRaw
  | .fldNat => encode .fldNat
  | .fldPlan => encode .fldPlan
  | .fldExt => encode .fldExt
  | .fldAddr => encode .fldAddr
  | .word v => v

end Sys2Proof
end

