-- ==== Sys2Proof/Machine/Params.lean ====
section
/-! DEFINITION. The default configuration of spec/00_scope.md R11, with the default alphabet tables of
spec/42_gsm7.md R78 and R79. -/

namespace Sys2Proof.Machine

/-- Consecutive entries of an alphabet table from septet `base` on. -/
def septetRow (base : Nat) : List Char16 → List (Septet × Char16)
  | [] => []
  | c :: t => (BitVec.ofNat 7 base, c) :: septetRow (base + 1) t

/-- The character codes `first`, `first + 1`, … (`n` of them). -/
def charRun (first : Char16) : Nat → List Char16
  | 0 => []
  | n + 1 => first :: charRun (first + 1) n

/-- R78, septets 0x00 to 0x0F. -/
def gsm7Row0 : List (Septet × Char16) := septetRow 0x00
  [0x0040, 0x00A3, 0x0024, 0x00A5, 0x00E8, 0x00E9, 0x00F9, 0x00EC,
   0x00F2, 0x00C7, 0x000A, 0x00D8, 0x00F8, 0x000D, 0x00C5, 0x00E5]

/-- R78, septets 0x10 to 0x1F, without the escape 0x1B. -/
def gsm7Row1 : List (Septet × Char16) :=
  septetRow 0x10
    [0x0394, 0x005F, 0x03A6, 0x0393, 0x039B, 0x03A9, 0x03A0, 0x03A8, 0x03A3, 0x0398, 0x039E] ++
  septetRow 0x1C [0x00C6, 0x00E6, 0x00DF, 0x00C9]

/-- R78, septets 0x20 to 0x2F: only 0x24 differs from the code point of the same number. -/
def gsm7Row2 : List (Septet × Char16) := septetRow 0x20
  (charRun 0x0020 4 ++ [0x00A4] ++ charRun 0x0025 11)

/-- R78, septets 0x30 to 0x3F. -/
def gsm7Row3 : List (Septet × Char16) := septetRow 0x30 (charRun 0x0030 16)

/-- R78, septets 0x40 to 0x4F. -/
def gsm7Row4 : List (Septet × Char16) := septetRow 0x40 (0x00A1 :: charRun 0x0041 15)

/-- R78, septets 0x50 to 0x5F. -/
def gsm7Row5 : List (Septet × Char16) := septetRow 0x50
  (charRun 0x0050 11 ++ [0x00C4, 0x00D6, 0x00D1, 0x00DC, 0x00A7])

/-- R78, septets 0x60 to 0x6F. -/
def gsm7Row6 : List (Septet × Char16) := septetRow 0x60 (0x00BF :: charRun 0x0061 15)

/-- R78, septets 0x70 to 0x7F. -/
def gsm7Row7 : List (Septet × Char16) := septetRow 0x70
  (charRun 0x0070 11 ++ [0x00E4, 0x00F6, 0x00F1, 0x00FC, 0x00E0])

/-- The default `P_GSM7_BASIC` (R78). -/
def defaultGsm7Basic : List (Septet × Char16) :=
  gsm7Row0 ++ gsm7Row1 ++ gsm7Row2 ++ gsm7Row3 ++ gsm7Row4 ++ gsm7Row5 ++ gsm7Row6 ++ gsm7Row7

/-- The default `P_GSM7_EXT` (R79). -/
def defaultGsm7Ext : List (Septet × Char16) :=
  [(0x0A, 0x000C), (0x14, 0x005E), (0x28, 0x007B), (0x29, 0x007D), (0x2F, 0x005C),
   (0x3C, 0x005B), (0x3D, 0x007E), (0x3E, 0x005D), (0x40, 0x007C), (0x65, 0x20AC)]

/-- The defaults of R11. -/
def defaultParams : Params where
  ibufCap := 256
  ichrCap := 512
  obufCap := 256
  ochrCap := 512
  rawCap := 256
  alnumPlan := 5
  natureDefined := [0, 1, 2, 3, 4, 5, 6, 7]
  planDefined := [0, 1, 2, 3, 4, 5, 6, 7, 8, 9, 15]
  gsm7Basic := defaultGsm7Basic
  gsm7Ext := defaultGsm7Ext

/-- The defaults satisfy every constraint (R13, last sentence). -/
theorem defaultParams_wf : defaultParams.wf = true := by decide +kernel

/-- The default configuration. -/
def defaultConfig : Config := ⟨defaultParams, defaultParams_wf⟩

end Sys2Proof.Machine
end

