-- ==== Sys2Proof/Machine/State.lean ====
section
/-! DEFINITION. The state of the AFC (spec/10_state.md R20 to R39), the host's accesses (R33, R34, R116), the errors
(spec/60_exceptions.md R101), and the state right after reset (spec/70_reset_and_hazards.md R111). -/

namespace Sys2Proof.Machine

/-- One element store (20_memory.md R40): the elements written since the free draw `draw` began, as (index, value)
pairs with strictly rising indices. An element that is not listed has no value of its own: it reads as the free
value `Config.unspecified` of its store, draw and index (R35; log 1). -/
structure Memory (w : Nat) where
  cells : List (Nat × BitVec w)
  draw : Nat
  deriving DecidableEq, Repr

/-- A store with nothing listed. -/
def Memory.blank (w draw : Nat) : Memory w := { cells := [], draw := draw }

/-- The four buffers the host reaches (R32, R40). RAW has no host window. -/
inductive HostBuf where
  | ibuf
  | ichr
  | obuf
  | ochr
  deriving DecidableEq, Repr

/-- One interaction of the host with the AFC (R33, R34, R116): a register access by 8-bit index, a buffer access by
element index, or a change of the reset input (R111). The element index is a natural number (R15), as R34 and R43 take it:
R32 makes it 16 bits wide, and one past 16 bits is past every capacity (R13 (b)), so it reads 0 and ignores the write
(log 6). -/
inductive HostAccess where
  | writeReg (r : BitVec 8) (v : Word)
  | readReg (r : BitVec 8)
  | writeBuf (b : HostBuf) (i : Nat) (v : Word)
  | readBuf (b : HostBuf) (i : Nat)
  | assertReset
  | releaseReset
  deriving DecidableEq, Repr

/-- The host pseudo-instructions of R63. They are not commands: each expands to host accesses. -/
inductive Pseudo where
  /-- WRREG. -/
  | wrreg (r : BitVec 8) (v : Word)
  /-- RDREG. -/
  | rdreg (r : BitVec 8)
  /-- WRBYTES. -/
  | wrbytes (bs : List Byte)
  /-- WRCHR, with the code units of its text. -/
  | wrchr (cs : List Char16)
  /-- RDBYTES. -/
  | rdbytes
  /-- RDCHR. -/
  | rdchr
  deriving DecidableEq, Repr

/-- Every error the AFC reports (R101), with what its IDX records. -/
inductive AfcError where
  /-- ILLEGAL_CMD/1: unassigned opcode. -/
  | unassignedOpcode
  /-- ILLEGAL_CMD/2: a 1 in a must-be-zero bit. -/
  | mustBeZero
  /-- ILLEGAL_CMD/3, IDX 0: FLD_CONS nature code not in the defined set. -/
  | undefinedNature
  /-- ILLEGAL_CMD/3, IDX 1: FLD_CONS plan code not in the defined set. -/
  | undefinedPlan
  /-- VALIDATION/1: address nature absent. -/
  | natureAbsent
  /-- VALIDATION/2: numbering plan absent. -/
  | planAbsent
  /-- VALIDATION/3: address absent. -/
  | addressAbsent
  /-- VALIDATION/4: digit-path address longer than 38; its length. -/
  | addressTooLong (len : Nat)
  /-- ENCODING/1: not a decimal digit; index of the first such character. -/
  | notDigit (index : Nat)
  /-- ENCODING/2: not in the 7-bit alphabet; index of the first such character. -/
  | notInAlphabet (index : Nat)
  /-- DECODING/1: byte sequence too short; bytes needed. -/
  | tooShort (need : Nat)
  /-- DECODING/2: nibble 0xA..0xF in a digit position; digit index. -/
  | badNibble (index : Nat)
  /-- DECODING/3: escape with no septet after it; septet index of the escape. -/
  | danglingEscape (index : Nat)
  /-- DECODING/4: escape followed by a septet the extension table lacks; septet index of the escape. -/
  | undefinedEscape (index : Nat)
  /-- CAPACITY/1: ILEN > P_IBUF_CAP; ILEN. -/
  | ibufOverrun (ilen : Nat)
  /-- CAPACITY/2: ICLEN > P_ICHR_CAP; ICLEN. -/
  | ichrOverrun (iclen : Nat)
  /-- CAPACITY/3: result longer than P_OBUF_CAP; its length in bytes. -/
  | obufOverrun (len : Nat)
  /-- CAPACITY/4: field longer than P_RAW_CAP; its length in bytes. -/
  | rawOverrun (len : Nat)
  deriving DecidableEq, Repr

/-- Why a step stops with a fault: never. Every error of the AFC is a result in STATUS after which the machine goes on
(R106), so the type has no constructor. Safe: there is no run that the model ends. -/
inductive Fault where
  deriving DecidableEq, Repr

/-- Why a step or an operation is refused. -/
inductive Refusal where
  /-- Raised by an arm of `exec` whose instruction has no meaning yet (none is left). Safe: nothing is claimed of it. -/
  | notModelled (mnemonic : String)
  /-- Raised by `powerOn`, never by `step`: the parameters break a constraint of R13. Safe: R13 says a model must
  refuse such a configuration. -/
  | illFormedConfig
  deriving DecidableEq, Repr

/-- The machine: the spec's state (10_state.md, section 1), the reset input (R111), and four fields of the model's own
(`cfg`: log 3; `pending` and `reads`: log 2; the `draw` of each store: log 1). -/
structure State where
  /-- The configuration parameters of R11: fixed, changed by no step (R111). -/
  cfg : Config
  /-- The FIELD storage RAW (R20). -/
  raw : Memory 8
  /-- RAWLEN, 16 bits (R20). -/
  rawLen : BitVec 16
  /-- IBUF (R25). -/
  ibuf : Memory 8
  /-- ILEN, 16 bits (R25). -/
  ilen : BitVec 16
  /-- ICHR (R26). -/
  ichr : Memory 16
  /-- ICLEN, 16 bits (R26). -/
  iclen : BitVec 16
  /-- OBUF (R27). -/
  obuf : Memory 8
  /-- OLEN, 16 bits (R27). -/
  olen : BitVec 16
  /-- OCHR (R28). -/
  ochr : Memory 16
  /-- OCLEN, 16 bits (R28). -/
  oclen : BitVec 16
  /-- RES (R29). -/
  res : Word
  /-- STATUS (R30). -/
  status : Word
  /-- CMD (R31). -/
  cmd : Word
  /-- The reset input is asserted (R111). -/
  resetLine : Bool
  /-- The host's accesses still to come, next first (R47, R117). -/
  pending : List HostAccess
  /-- The values the host's reads have returned, oldest first (R117). -/
  reads : List Word
  deriving DecidableEq, Repr

/-- The machine right after reset, in the configuration `c`: every element of state as R111 says, reset released. -/
def State.resetWith (c : Config) : State where
  cfg := c
  raw := Memory.blank 8 0
  rawLen := 0
  ibuf := Memory.blank 8 0
  ilen := 0
  ichr := Memory.blank 16 0
  iclen := 0
  obuf := Memory.blank 8 0
  olen := 0
  ochr := Memory.blank 16 0
  oclen := 0
  res := 0
  status := 0
  cmd := 0
  resetLine := false
  pending := []
  reads := []

/-- The machine right after reset, in the default configuration (R11, R111). -/
def State.reset : State := State.resetWith defaultConfig

end Sys2Proof.Machine
end

