-- ==== Sys2Proof/Machine/Flags.lean ====
section
/-! DEFINITION. The bits of STATUS and RES (spec/10_state.md R29, R30, R38) and every rule that computes them:
the error codes (spec/60_exceptions.md R101), completion (R102), error (R103) and the valid bits (spec/40_header.md R67). -/

namespace Sys2Proof.Machine

/-- STATUS with the given fields, reserved bits 0 (R30): `IDX << 16 | STICKY << 8 | SUB << 4 | CAUSE`. -/
def statusWord (cause sub : BitVec 4) (sticky : Bool) (idx : BitVec 16) : Word :=
  (idx.setWidth 32 <<< 16) ||| ((BitVec.ofBool sticky).setWidth 32 <<< 8) ||| (sub.setWidth 32 <<< 4) |||
    cause.setWidth 32

/-- STATUS.CAUSE, bits [3:0]. -/
def statusCause (v : Word) : BitVec 4 := v.extractLsb' 0 4

/-- STATUS.SUB, bits [7:4]. -/
def statusSub (v : Word) : BitVec 4 := v.extractLsb' 4 4

/-- STATUS.STICKY, bit [8]. -/
def statusSticky (v : Word) : Bool := v.getLsbD 8

/-- STATUS.IDX, bits [31:16]. -/
def statusIdx (v : Word) : BitVec 16 := v.extractLsb' 16 16

/-- The CAUSE code of an error (R101). -/
def AfcError.cause : AfcError → BitVec 4
  | .unassignedOpcode => 1
  | .mustBeZero => 1
  | .undefinedNature => 1
  | .undefinedPlan => 1
  | .natureAbsent => 2
  | .planAbsent => 2
  | .addressAbsent => 2
  | .addressTooLong _ => 2
  | .notDigit _ => 3
  | .notInAlphabet _ => 3
  | .tooShort _ => 4
  | .badNibble _ => 4
  | .danglingEscape _ => 4
  | .undefinedEscape _ => 4
  | .ibufOverrun _ => 5
  | .ichrOverrun _ => 5
  | .obufOverrun _ => 5
  | .rawOverrun _ => 5

/-- The SUB code of an error (R101). -/
def AfcError.sub : AfcError → BitVec 4
  | .unassignedOpcode => 1
  | .mustBeZero => 2
  | .undefinedNature => 3
  | .undefinedPlan => 3
  | .natureAbsent => 1
  | .planAbsent => 2
  | .addressAbsent => 3
  | .addressTooLong _ => 4
  | .notDigit _ => 1
  | .notInAlphabet _ => 2
  | .tooShort _ => 1
  | .badNibble _ => 2
  | .danglingEscape _ => 3
  | .undefinedEscape _ => 4
  | .ibufOverrun _ => 1
  | .ichrOverrun _ => 2
  | .obufOverrun _ => 3
  | .rawOverrun _ => 4

/-- The value IDX records (R101). -/
def AfcError.idx : AfcError → Nat
  | .unassignedOpcode => 0
  | .mustBeZero => 0
  | .undefinedNature => 0
  | .undefinedPlan => 1
  | .natureAbsent => 0
  | .planAbsent => 0
  | .addressAbsent => 0
  | .addressTooLong n => n
  | .notDigit i => i
  | .notInAlphabet i => i
  | .tooShort n => n
  | .badNibble i => i
  | .danglingEscape i => i
  | .undefinedEscape i => i
  | .ibufOverrun n => n
  | .ichrOverrun n => n
  | .obufOverrun n => n
  | .rawOverrun n => n

/-- STATUS after a command that completes, from STATUS before it (R102): CAUSE, SUB and IDX 0, STICKY unchanged. -/
def statusAfterSuccess (before : Word) : Word := statusWord 0 0 (statusSticky before) 0

/-- STATUS after an error (R103): its codes, IDX[15:0], STICKY 1. -/
def statusAfterError (e : AfcError) : Word := statusWord e.cause e.sub true (BitVec.ofNat 16 e.idx)

/-- RES with the given fields, every other bit 0 (R29). -/
def resWord (nat : BitVec 3) (pln : BitVec 4) (ext natv plnv extv strv : Bool) : Word :=
  ((BitVec.ofBool strv).setWidth 32 <<< 12) ||| ((BitVec.ofBool extv).setWidth 32 <<< 11) |||
    ((BitVec.ofBool plnv).setWidth 32 <<< 10) ||| ((BitVec.ofBool natv).setWidth 32 <<< 9) |||
    ((BitVec.ofBool ext).setWidth 32 <<< 8) ||| (pln.setWidth 32 <<< 4) ||| nat.setWidth 32

/-- RES.NAT, bits [2:0]. -/
def resNat (v : Word) : BitVec 3 := v.extractLsb' 0 3

/-- RES.PLN, bits [7:4]. -/
def resPln (v : Word) : BitVec 4 := v.extractLsb' 4 4

/-- RES.EXT, bit [8]. -/
def resExt (v : Word) : Bool := v.getLsbD 8

/-- RES.NATV, bit [9]. -/
def resNatv (v : Word) : Bool := v.getLsbD 9

/-- RES.PLNV, bit [10]. -/
def resPlnv (v : Word) : Bool := v.getLsbD 10

/-- RES.EXTV, bit [11]. -/
def resExtv (v : Word) : Bool := v.getLsbD 11

/-- RES.STRV, bit [12]. -/
def resStrv (v : Word) : Bool := v.getLsbD 12

/-- The bits of STATUS that are used; the others read 0 (R30, R32). -/
def statusUsedBits : Word := 0xFFFF01FF

/-- The bits of RES that are used; the others read 0 (R29, R32). -/
def resUsedBits : Word := 0x00001FF7

/-- The address-nature code is defined (R67). -/
def natureDefined (p : Params) (n : BitVec 3) : Bool := p.natureDefined.contains n

/-- The numbering-plan code is defined (R67). -/
def planDefined (p : Params) (c : BitVec 4) : Bool := p.planDefined.contains c

end Sys2Proof.Machine
end

