-- ==== Sys2Proof/Machine/Ops.lean ====
section
/-! DEFINITION. The named operations over the element stores (spec/10_state.md R34, R35; spec/20_memory.md R40) and
over the registers: writing a result, completing (spec/60_exceptions.md R102), raising an error (R103), reset
(spec/70_reset_and_hazards.md R111). Raising an error is this block's exception: no control flow changes, nothing is
saved, no mode is switched, and there is nothing to return from (R106). -/

namespace Sys2Proof.Machine

/-! ## Element stores -/

/-- The value listed at an index. -/
def lookupCell {w : Nat} : List (Nat × BitVec w) → Nat → Option (BitVec w)
  | [], _ => none
  | (k, v) :: t, i => if i = k then some v else lookupCell t i

/-- List a value at an index, keeping the indices rising. -/
def insertCell {w : Nat} : List (Nat × BitVec w) → Nat → BitVec w → List (Nat × BitVec w)
  | [], i, v => [(i, v)]
  | (k, x) :: t, i, v =>
    if i < k then (i, v) :: (k, x) :: t
    else if i = k then (i, v) :: t
    else (k, x) :: insertCell t i v

/-- The cells `base`, `base + 1`, … with the given values. -/
def indexedFrom {w : Nat} (base : Nat) : List (BitVec w) → List (Nat × BitVec w)
  | [] => []
  | v :: t => (base, v) :: indexedFrom (base + 1) t

/-- What an unlisted element reads as: the free value of its store, draw and index (R35; log 1). -/
def Memory.unlisted {w : Nat} (which : Store) (m : Memory w) (i : Nat) : BitVec w :=
  Config.unspecified w which m.draw i

/-- Read element `i`. -/
def Memory.read {w : Nat} (which : Store) (m : Memory w) (i : Nat) : BitVec w :=
  match lookupCell m.cells i with
  | some v => v
  | none => m.unlisted which i

/-- Read elements `0 .. n-1` (R17: `BUF[0..n)`). -/
def Memory.readPrefix {w : Nat} (which : Store) (m : Memory w) (n : Nat) : List (BitVec w) :=
  (List.range n).map (m.read which)

/-- Write element `i` (R34). -/
def Memory.write {w : Nat} (m : Memory w) (i : Nat) (v : BitVec w) : Memory w :=
  { m with cells := insertCell m.cells i v }

/-- Write a command's result elements to indices `0 .. n-1`, exactly those; the others keep their values (R35). -/
def Memory.writePrefix {w : Nat} (m : Memory w) (vs : List (BitVec w)) : Memory w :=
  { m with cells := indexedFrom 0 vs ++ m.cells.filter (fun c => decide (vs.length ≤ c.1)) }

/-- Every element becomes unspecified: nothing is listed, and a new free draw begins (R111, R103; log 1, log 4). -/
def Memory.forget {w : Nat} (m : Memory w) : Memory w := Memory.blank w (m.draw + 1)

/-- The canonical form: indices strictly rising, all below the capacity. No entry can equal what an unlisted element
reads as, since that is a free value nothing is known of (log 1). -/
abbrev Memory.wf {w : Nat} (cap : Nat) (m : Memory w) : Prop :=
  (m.cells.map Prod.fst).Pairwise (· < ·) ∧ ∀ c ∈ m.cells, c.1 < cap

/-! ## Registers and results -/

/-- A command's bytes go to OBUF and OLEN (R27). -/
def putBytes (bs : List Byte) (s : State) : State :=
  { s with obuf := s.obuf.writePrefix bs, olen := BitVec.ofNat 16 bs.length }

/-- A command's string goes to OCHR and OCLEN (R28). -/
def putChars (cs : List Char16) (s : State) : State :=
  { s with ochr := s.ochr.writePrefix cs, oclen := BitVec.ofNat 16 cs.length }

/-- The FIELD storage is replaced whole: RAW and RAWLEN together (R24). -/
def putField (bs : List Byte) (s : State) : State :=
  { s with raw := s.raw.writePrefix bs, rawLen := BitVec.ofNat 16 bs.length }

/-- RES is written, all 32 bits (R29). -/
def putRes (v : Word) (s : State) : State := { s with res := v }

/-- OCLEN is set to 0 (R99, null). -/
def clearChars (s : State) : State := { s with oclen := 0 }

/-- `complete()` (R102). -/
def complete (s : State) : State := { s with status := statusAfterSuccess s.status }

/-- `raise Error(C, S, I)` for a command with no result register to clear (R103): STATUS only. HDR_ENC, HDR_DEC, FLD_CONS,
FLD_LOAD, and every ILLEGAL_CMD. -/
def raise (e : AfcError) (s : State) : State := { s with status := statusAfterError e }

/-- An error of BCD_ENC or G7_ENC found before its codec ran (R103): STATUS, and OLEN 0. -/
def raiseEncoder (e : AfcError) (s : State) : State := { raise e s with olen := 0 }

/-- An error of BCD_DEC or G7_DEC found before its codec ran (R103): STATUS, and OCLEN 0. -/
def raiseDecoder (e : AfcError) (s : State) : State := { raise e s with oclen := 0 }

/-- An error of BCD_ENC or G7_ENC found by or after its codec (R103): as `raiseEncoder`, and since an element of OBUF
that the command wrote before raising is unspecified, OBUF's elements become free (log 4). -/
def raiseEncoded (e : AfcError) (s : State) : State :=
  { raiseEncoder e s with obuf := s.obuf.forget }

/-- An error of BCD_DEC or G7_DEC found by its codec (R103): as `raiseDecoder`, and since an element of OCHR that the
command wrote before raising is unspecified, OCHR's elements become free (log 4). -/
def raiseDecoded (e : AfcError) (s : State) : State :=
  { raiseDecoder e s with ochr := s.ochr.forget }

/-! ## Reset -/

/-- Every element of state takes its reset value (R111): all registers 0, all elements unspecified. The reset input has
the given level afterwards. The configuration, the accesses still to come and the values already read are not AFC state
and stay. -/
def resetTo (line : Bool) (s : State) : State :=
  { s with
    raw := s.raw.forget, rawLen := 0
    ibuf := s.ibuf.forget, ilen := 0
    ichr := s.ichr.forget, iclen := 0
    obuf := s.obuf.forget, olen := 0
    ochr := s.ochr.forget, oclen := 0
    res := 0, status := 0, cmd := 0
    resetLine := line }

end Sys2Proof.Machine
end

