-- ==== Sys2Proof/Machine/Operands.lean ====
section
/-! DEFINITION. The operand forms (spec/30_encoding.md R56, R57): the byte sequence IBUF[0..ILEN), the string
ICHR[0..ICLEN), the field RAW[0..RAWLEN), and their capacity checks (spec/10_state.md R25, R26). -/

namespace Sys2Proof.Machine

/-- ILEN exceeds P_IBUF_CAP (R25): a command that reads IBUF raises CAPACITY/1. -/
def ibufOver (s : State) : Bool := decide (s.cfg.params.ibufCap < s.ilen.toNat)

/-- ICLEN exceeds P_ICHR_CAP (R26): a command that reads ICHR raises CAPACITY/2. -/
def ichrOver (s : State) : Bool := decide (s.cfg.params.ichrCap < s.iclen.toNat)

/-- The byte operand IBUF[0..ILEN) (R25). -/
def byteOperand (s : State) : List Byte := s.ibuf.readPrefix .ibuf s.ilen.toNat

/-- The string operand ICHR[0..ICLEN) (R26). -/
def stringOperand (s : State) : List Char16 := s.ichr.readPrefix .ichr s.iclen.toNat

/-- The value of `raw`, RAW[0..RAWLEN) (R20). Absent and empty are one (R21). -/
def fieldBytes (s : State) : List Byte := s.raw.readPrefix .raw s.rawLen.toNat

/-- The byte result the host reads, OBUF[0..OLEN) (R27). -/
def byteResult (s : State) : List Byte := s.obuf.readPrefix .obuf s.olen.toNat

/-- The string result the host reads, OCHR[0..OCLEN) (R28). -/
def stringResult (s : State) : List Char16 := s.ochr.readPrefix .ochr s.oclen.toNat

/-- A command that turns the string operand into bytes for OBUF (R76, R88): the operand check, the codec, the result
check, the result. -/
def encodeOperand (codec : List Char16 → Except AfcError (List Byte)) (s : State) : State :=
  if ichrOver s then raiseEncoder (.ichrOverrun s.iclen.toNat) s
  else
    match codec (stringOperand s) with
    | .error e => raiseEncoded e s
    | .ok r =>
      if s.cfg.params.obufCap < r.length then raiseEncoded (.obufOverrun r.length) s
      else complete (putBytes r s)

/-- A command that turns the byte operand into a string for OCHR (R77, R89): the operand check, the codec, the result,
which always fits (R13 (d)). -/
def decodeOperand (codec : List Byte → Except AfcError (List Char16)) (s : State) : State :=
  if ibufOver s then raiseDecoder (.ibufOverrun s.ilen.toNat) s
  else
    match codec (byteOperand s) with
    | .error e => raiseDecoded e s
    | .ok r => complete (putChars r s)

/-- A command that writes RES (R29, R69, R94 to R97). -/
def resultCommand (v : Word) (s : State) : State := complete (putRes v s)

end Sys2Proof.Machine
end

