-- ==== Sys2Proof/Machine/Bcd.lean ====
section
/-! DEFINITION. The Digit-Packing Codec (spec/41_bcd.md): BcdEncode, BcdDecode, BCD_ENC, BCD_DEC. -/

namespace Sys2Proof.Machine

/-- A character is a decimal digit: 0x0030..0x0039 and no other (R70). -/
def isDigit (c : Char16) : Bool := decide (0x0030 ≤ c.toNat ∧ c.toNat ≤ 0x0039)

/-- The value of a digit, `c - 0x30` (R70). -/
def digitValue (c : Char16) : Nibble := BitVec.ofNat 4 (c.toNat - 0x0030)

/-- The character of a digit value, `0x0030 + v` (R72). -/
def digitChar (v : Nibble) : Char16 := BitVec.ofNat 16 (0x0030 + v.toNat)

/-- The filler nibble (R71, R19). -/
def fillerNibble : Nibble := 0xF

/-- A byte from two nibbles, `(hi << 4) | lo` (R71). -/
def nibblePair (hi lo : Nibble) : Byte := (hi.setWidth 8 <<< 4) ||| lo.setWidth 8

/-- Pairs of digit values packed first-low, second-high, the last one alone with the filler (R71). -/
def packNibbles : List Nibble → List Byte
  | [] => []
  | [lo] => [nibblePair fillerNibble lo]
  | lo :: hi :: t => nibblePair hi lo :: packNibbles t

/-- `BcdEncode(s)` (R71): the whole string is checked before any byte is produced. -/
def bcdEncode (s : List Char16) : Except AfcError (List Byte) :=
  match s.findIdx? (fun c => !isDigit c) with
  | some i => .error (.notDigit i)
  | none => .ok (packNibbles (s.map digitValue))

/-- The nibbles of a byte sequence in reading order: `b[3:0]`, then `b[7:4]`, of each byte (R72). -/
def nibblesOf : List Byte → List Nibble
  | [] => []
  | b :: t => b.extractLsb' 0 4 :: b.extractLsb' 4 4 :: nibblesOf t

/-- A nibble is a decimal digit value (R72, R73). -/
def isDigitNibble (v : Nibble) : Bool := decide (v.toNat ≤ 9)

/-- `BcdDecode(bytes, c)` (R72): the length check first, then the digits in ascending order. -/
def bcdDecode (bytes : List Byte) (c : Nat) : Except AfcError (List Char16) :=
  if bytes.length < (c + 1) / 2 then .error (.tooShort ((c + 1) / 2))
  else
    match ((nibblesOf bytes).take c).findIdx? (fun v => !isDigitNibble v) with
    | some k => .error (.badNibble k)
    | none => .ok (((nibblesOf bytes).take c).map digitChar)

/-- BCD_ENC (R76). -/
def execBcdEnc (s : State) : Host.Outcome State Fault Refusal := .next (encodeOperand bcdEncode s)

/-- BCD_DEC (R77): IMM8 is digitCount, zero-extended (R56). -/
def execBcdDec (imm8 : Byte) (s : State) : Host.Outcome State Fault Refusal :=
  .next (decodeOperand (fun bytes => bcdDecode bytes imm8.toNat) s)

end Sys2Proof.Machine
end

