-- ==== Sys2Proof/Machine/Gsm7.lean ====
section
/-! DEFINITION. The Seven-Bit Alphabet Codec (spec/42_gsm7.md): G7Map, G7Pack, G7Unpack, G7Encode, G7Decode, G7_ENC,
G7_DEC. -/

namespace Sys2Proof.Machine

/-- The septet that a table maps to a character. -/
def septetOf (table : List (Septet × Char16)) (c : Char16) : Option Septet :=
  (table.find? fun e => e.2 == c).map Prod.fst

/-- The character that a table gives a septet. -/
def charOf (table : List (Septet × Char16)) (x : Septet) : Option Char16 :=
  (table.find? fun e => e.1 == x).map Prod.snd

/-- The septets of one character (R81): one from the basic table, else the escape and one from the extension table. -/
def charSeptets (p : Params) (c : Char16) : Option (List Septet) :=
  match septetOf p.gsm7Basic c with
  | some x => some [x]
  | none =>
    match septetOf p.gsm7Ext c with
    | some e => some [escapeSeptet, e]
    | none => none

/-- `G7Map(text)` (R81). -/
def g7Map (p : Params) (t : List Char16) : Except AfcError (List Septet) :=
  match t.findIdx? (fun c => (charSeptets p c).isNone) with
  | some i => .error (.notInAlphabet i)
  | none => .ok (t.flatMap fun c => (charSeptets p c).getD [])

/-- The bits of a value, bit 0 first. -/
def bitsOf {w : Nat} (x : BitVec w) : List Bool := (List.range w).map x.getLsbD

/-- The bit stream of a sequence of values: each value's bits, bit 0 first, one value after the other (R82). -/
def bitStream {w : Nat} (xs : List (BitVec w)) : List Bool := xs.flatMap bitsOf

/-- The number whose bits, bit 0 first, are the list. -/
def bitsValue : List Bool → Nat
  | [] => 0
  | b :: t => b.toNat + 2 * bitsValue t

/-- `n` values of `w` bits cut from a bit stream; bits past its end are 0 (R82, R83). -/
def chunks (w : Nat) : Nat → List Bool → List (BitVec w)
  | 0, _ => []
  | n + 1, bits => BitVec.ofNat w (bitsValue (bits.take w)) :: chunks w n (bits.drop w)

/-- `G7Pack(s)` (R82): ceil(7S/8) bytes, the unused high bits of the last one 0. -/
def g7Pack (s : List Septet) : List Byte := chunks 8 ((7 * s.length + 7) / 8) (bitStream s)

/-- `G7Unpack(bytes)` (R83): floor(8n/7) septets, a partial trailing septet discarded. -/
def g7Unpack (bytes : List Byte) : List Septet := chunks 7 (8 * bytes.length / 7) (bitStream bytes)

/-- `G7Encode(text)` (R84). -/
def g7Encode (p : Params) (t : List Char16) : Except AfcError (List Byte) :=
  match g7Map p t with
  | .error e => .error e
  | .ok s => .ok (g7Pack s)

/-- The character of a septet other than the escape. The basic table is total off the escape (R80 (a), which every
`Config` meets), so the 0 that stands for a missing entry is never produced. -/
def basicChar (p : Params) (x : Septet) : Char16 := (charOf p.gsm7Basic x).getD 0

/-- The reading loop of `G7Decode` (R85) over the septets from index `k` on. -/
def g7Read (p : Params) : Nat → List Septet → Except AfcError (List Char16)
  | _, [] => .ok []
  | k, [x] => if x = escapeSeptet then .error (.danglingEscape k) else .ok [basicChar p x]
  | k, x :: e :: t =>
    if x = escapeSeptet then
      match charOf p.gsm7Ext e with
      | none => .error (.undefinedEscape k)
      | some c =>
        match g7Read p (k + 2) t with
        | .error err => .error err
        | .ok r => .ok (c :: r)
    else
      match g7Read p (k + 1) (e :: t) with
      | .error err => .error err
      | .ok r => .ok (basicChar p x :: r)

/-- `G7Decode(bytes)` (R85). -/
def g7Decode (p : Params) (bytes : List Byte) : Except AfcError (List Char16) := g7Read p 0 (g7Unpack bytes)

/-- G7_ENC (R88). -/
def execG7Enc (s : State) : Host.Outcome State Fault Refusal := .next (encodeOperand (g7Encode s.cfg.params) s)

/-- G7_DEC (R89). -/
def execG7Dec (s : State) : Host.Outcome State Fault Refusal := .next (decodeOperand (g7Decode s.cfg.params) s)

end Sys2Proof.Machine
end

