-- ==== Sys2Proof/Machine/Header.lean ====
section
/-! DEFINITION. The Header Byte Model (spec/40_header.md): HdrEncode, HdrDecode, HDR_ENC, HDR_DEC. -/

namespace Sys2Proof.Machine

/-- `HdrEncode(nat, pln, ext)` (R65): `(ext ? 0x80 : 0x00) | (nat << 4) | pln`. -/
def hdrEncode (nat : BitVec 3) (pln : BitVec 4) (ext : Bool) : Byte :=
  (if ext then 0x80 else 0x00) ||| (nat.setWidth 8 <<< 4) ||| pln.setWidth 8

/-- `nat = b[6:4]` (R66). -/
def hdrNature (b : Byte) : BitVec 3 := b.extractLsb' 4 3

/-- `pln = b[3:0]` (R66). -/
def hdrPlan (b : Byte) : BitVec 4 := b.extractLsb' 0 4

/-- `ext = b[7]` (R66), not inverted (90_conflicts.md C1). -/
def hdrExt (b : Byte) : Bool := b.getLsbD 7

/-- RES of HDR_DEC for a header byte (R69). -/
def hdrResult (p : Params) (b : Byte) : Word :=
  resWord (hdrNature b) (hdrPlan b) (hdrExt b) (natureDefined p (hdrNature b)) (planDefined p (hdrPlan b)) true false

/-- HDR_ENC (R68). -/
def execHdrEnc (nat : BitVec 3) (pln : BitVec 4) (ext : Bool) (s : State) : Host.Outcome State Fault Refusal :=
  .next (complete (putBytes [hdrEncode nat pln ext] s))

/-- HDR_DEC (R69). -/
def execHdrDec (imm8 : Byte) (s : State) : Host.Outcome State Fault Refusal :=
  .next (resultCommand (hdrResult s.cfg.params imm8) s)

end Sys2Proof.Machine
end

