-- ==== Sys2Proof/Machine/Field.lean ====
section
/-! DEFINITION. The Address Field Assembler (spec/43_field.md): path selection, FLD_CONS, FLD_LOAD, FLD_RAW and the four
accessors FLD_NAT, FLD_PLAN, FLD_EXT, FLD_ADDR. -/

namespace Sys2Proof.Machine

/-- The alphanumeric path is selected (R90). -/
def alnumPath (p : Params) (pln : BitVec 4) : Bool := pln == p.alnumPlan

/-- The body of a field: the GSM-7 codec on the alphanumeric path, the BCD codec on the digit path (R90, R91). -/
def encodeBody (p : Params) (pln : BitVec 4) (a : List Char16) : Except AfcError (List Byte) :=
  if alnumPath p pln then g7Encode p a else bcdEncode a

/-- The header byte and the body joined (R91), or the body codec's error, or CAPACITY/4. -/
def joinField (p : Params) (header : Byte) (body : Except AfcError (List Byte)) : Except AfcError (List Byte) :=
  match body with
  | .error e => .error e
  | .ok b => if p.rawCap < 1 + b.length then .error (.rawOverrun (1 + b.length)) else .ok (header :: b)

/-- The field FLD_CONS constructs, or its first error, the checks in the order of R91 (R105). `overrun` says that
ICLEN exceeds P_ICHR_CAP, `n` is ICLEN, `a` the string operand. -/
def consField (p : Params) (nat : BitVec 3) (natp : Bool) (pln : BitVec 4) (plnp ext adrp overrun : Bool) (n : Nat)
    (a : List Char16) : Except AfcError (List Byte) :=
  if !natp then .error .natureAbsent
  else if !plnp then .error .planAbsent
  else if !adrp then .error .addressAbsent
  else if !natureDefined p nat then .error .undefinedNature
  else if !planDefined p pln then .error .undefinedPlan
  else if overrun then .error (.ichrOverrun n)
  else if !alnumPath p pln && decide (Config.digitCeiling < a.length) then .error (.addressTooLong a.length)
  else joinField p (hdrEncode nat pln ext) (encodeBody p pln a)

/-- The result of a field construction: the FIELD storage replaced whole, or the error with the FIELD kept (R24, R103). -/
def storeField (r : Except AfcError (List Byte)) (s : State) : State :=
  match r with
  | .error e => raise e s
  | .ok bs => complete (putField bs s)

/-- The bytes FLD_LOAD stores, or its first error (R92). They are not checked. -/
def loadField (s : State) : Except AfcError (List Byte) :=
  if ibufOver s then .error (.ibufOverrun s.ilen.toNat)
  else if s.cfg.params.rawCap < s.ilen.toNat then .error (.rawOverrun s.ilen.toNat)
  else .ok (byteOperand s)

/-- The header byte `raw[0]`, when `raw` is not absent (R21, R64). -/
def fieldHeader (s : State) : Option Byte :=
  if s.rawLen = 0 then none else some (s.raw.read .raw 0)

/-- RES of FLD_NAT for a header (R95). -/
def natResult (p : Params) : Option Byte → Word
  | none => 0
  | some b => resWord (hdrNature b) 0 false (natureDefined p (hdrNature b)) false false false

/-- RES of FLD_PLAN for a header (R96). -/
def planResult (p : Params) : Option Byte → Word
  | none => 0
  | some b => resWord 0 (hdrPlan b) false false (planDefined p (hdrPlan b)) false false

/-- RES of FLD_EXT for a header (R97). -/
def extResult : Option Byte → Word
  | none => 0
  | some b => resWord 0 0 (hdrExt b) false false true false

/-- The digit count of a body (R98): two for each byte, one fewer when the last byte's high nibble is the filler. -/
def bodyDigits (body : List Byte) : Nat :=
  match body.getLast? with
  | none => 0
  | some b => if b.extractLsb' 4 4 = fillerNibble then 2 * body.length - 1 else 2 * body.length

/-- A decode failure becomes null (R94, R98). -/
def nullOnError {α : Type} : Except AfcError α → Option α
  | .ok v => some v
  | .error _ => none

/-- `FieldAddress(raw)` (R98); null is `none`. -/
def fieldAddress (p : Params) : List Byte → Option (List Char16)
  | [] => none
  | h :: body =>
    if planDefined p (hdrPlan h) && alnumPath p (hdrPlan h) then nullOnError (g7Decode p body)
    else nullOnError (bcdDecode body (bodyDigits body))

/-- The result of FLD_ADDR for an address or null (R99). -/
def addressResult (v : Option (List Char16)) (s : State) : State :=
  match v with
  | none => resultCommand 0 (clearChars s)
  | some cs => resultCommand (resWord 0 0 false false false false true) (putChars cs s)

/-- FLD_CONS (R91). -/
def execFldCons (nat : BitVec 3) (natp : Bool) (pln : BitVec 4) (plnp ext adrp : Bool) (s : State) :
    Host.Outcome State Fault Refusal :=
  .next (storeField
    (consField s.cfg.params nat natp pln plnp ext adrp (ichrOver s) s.iclen.toNat (stringOperand s)) s)

/-- FLD_LOAD (R92). -/
def execFldLoad (s : State) : Host.Outcome State Fault Refusal := .next (storeField (loadField s) s)

/-- FLD_RAW (R93). -/
def execFldRaw (s : State) : Host.Outcome State Fault Refusal := .next (complete (putBytes (fieldBytes s) s))

/-- FLD_NAT (R95). -/
def execFldNat (s : State) : Host.Outcome State Fault Refusal :=
  .next (resultCommand (natResult s.cfg.params (fieldHeader s)) s)

/-- FLD_PLAN (R96). -/
def execFldPlan (s : State) : Host.Outcome State Fault Refusal :=
  .next (resultCommand (planResult s.cfg.params (fieldHeader s)) s)

/-- FLD_EXT (R97). -/
def execFldExt (s : State) : Host.Outcome State Fault Refusal :=
  .next (resultCommand (extResult (fieldHeader s)) s)

/-- FLD_ADDR (R99). -/
def execFldAddr (s : State) : Host.Outcome State Fault Refusal :=
  .next (addressResult (fieldAddress s.cfg.params (fieldBytes s)) s)

end Sys2Proof.Machine
end

