-- ==== Sys2Proof/Machine/Dispatch.lean ====
section
/-! DEFINITION. One arm per command of spec/30_encoding.md R58: the meaning that performs its command rule (R60). -/

namespace Sys2Proof.Machine

def exec (i : Instr) (s : State) : Host.Outcome State Fault Refusal :=
  match i with
  | .hdrEnc nat pln ext => Sys2Proof.Machine.execHdrEnc nat pln ext s
  | .hdrDec imm8 => Sys2Proof.Machine.execHdrDec imm8 s
  | .bcdEnc => Sys2Proof.Machine.execBcdEnc s
  | .bcdDec imm8 => Sys2Proof.Machine.execBcdDec imm8 s
  | .g7Enc => Sys2Proof.Machine.execG7Enc s
  | .g7Dec => Sys2Proof.Machine.execG7Dec s
  | .fldCons nat natp pln plnp ext adrp => Sys2Proof.Machine.execFldCons nat natp pln plnp ext adrp s
  | .fldLoad => Sys2Proof.Machine.execFldLoad s
  | .fldRaw => Sys2Proof.Machine.execFldRaw s
  | .fldNat => Sys2Proof.Machine.execFldNat s
  | .fldPlan => Sys2Proof.Machine.execFldPlan s
  | .fldExt => Sys2Proof.Machine.execFldExt s
  | .fldAddr => Sys2Proof.Machine.execFldAddr s

end Sys2Proof.Machine
end

