-- ==== Sys2Proof/Machine/HostPort.lean ====
section
/-! DEFINITION. The host port: register and buffer access (spec/10_state.md R32 to R34), the write to CMD that executes a
command (R31; spec/30_encoding.md R60), the reset input (spec/70_reset_and_hazards.md R111), the pseudo-instructions
(R63), and powering on in a configuration (spec/00_scope.md R13). -/

namespace Sys2Proof.Machine

/-- `HostReadReg(r)` (R32, R33): the register's value, unused bits and reserved indices 0. -/
def hostReadReg (r : BitVec 8) (s : State) : Word :=
  if r = 0x00 then s.cmd
  else if r = 0x01 then s.status &&& statusUsedBits
  else if r = 0x02 then s.res &&& resUsedBits
  else if r = 0x03 then s.ilen.setWidth 32
  else if r = 0x04 then s.iclen.setWidth 32
  else if r = 0x05 then s.olen.setWidth 32
  else if r = 0x06 then s.oclen.setWidth 32
  else if r = 0x07 then s.rawLen.setWidth 32
  else 0

/-- `HostReadBuf(B, i)` (R34): the element when `i` is below the capacity, else 0. -/
def hostReadBuf (b : HostBuf) (i : Nat) (s : State) : Word :=
  match b with
  | .ibuf => if i < s.cfg.params.ibufCap then (s.ibuf.read .ibuf i).setWidth 32 else 0
  | .ichr => if i < s.cfg.params.ichrCap then (s.ichr.read .ichr i).setWidth 32 else 0
  | .obuf => if i < s.cfg.params.obufCap then (s.obuf.read .obuf i).setWidth 32 else 0
  | .ochr => if i < s.cfg.params.ochrCap then (s.ochr.read .ochr i).setWidth 32 else 0

/-- `HostWriteBuf(B, i, v)` (R34): IBUF takes v[7:0] and ICHR v[15:0] when `i` is below the capacity; a write to OBUF or
OCHR, or out of range, does nothing. -/
def hostWriteBuf (b : HostBuf) (i : Nat) (v : Word) (s : State) : State :=
  match b with
  | .ibuf => if i < s.cfg.params.ibufCap then { s with ibuf := s.ibuf.write i (v.extractLsb' 0 8) } else s
  | .ichr => if i < s.cfg.params.ichrCap then { s with ichr := s.ichr.write i (v.extractLsb' 0 16) } else s
  | .obuf => s
  | .ochr => s

/-- The error an illegal word raises (R59, R60). -/
def illegalError : IllegalWord → AfcError
  | .unassignedOpcode => .unassignedOpcode
  | .mustBeZero => .mustBeZero

/-- `execute(v)` (R60): an illegal word writes STATUS only. -/
def execute (v : Word) (s : State) : Host.Outcome State Fault Refusal :=
  match decode v with
  | .error e => .next (raise (illegalError e) s)
  | .ok i => exec i s

/-- `HostWriteReg(r, v)` (R33): CMD stores v, then executes it (R31); a read-only or reserved index takes no effect. -/
def hostWriteReg (r : BitVec 8) (v : Word) (s : State) : Host.Outcome State Fault Refusal :=
  if r = 0x00 then execute v { s with cmd := v }
  else if r = 0x03 then .next { s with ilen := v.extractLsb' 0 16 }
  else if r = 0x04 then .next { s with iclen := v.extractLsb' 0 16 }
  else .next s

/-- The value a read returned is added to the host's record (R117). -/
def recordRead (v : Word) (s : State) : State := { s with reads := s.reads ++ [v] }

/-- One host access with the reset input released (R33, R34, R116). -/
def accessRunning (a : HostAccess) (s : State) : Host.Outcome State Fault Refusal :=
  match a with
  | .writeReg r v => hostWriteReg r v s
  | .readReg r => .next (recordRead (hostReadReg r s) s)
  | .writeBuf b i v => .next (hostWriteBuf b i v s)
  | .readBuf b i => .next (recordRead (hostReadBuf b i s) s)
  | .assertReset => .next (resetTo true s)
  | .releaseReset => .next s

/-- One host access while reset is asserted (R111): it has no effect and reads 0; releasing reset leaves every element of
state at its reset value. -/
def accessInReset (a : HostAccess) (s : State) : State :=
  match a with
  | .writeReg _ _ => s
  | .readReg _ => recordRead 0 s
  | .writeBuf _ _ _ => s
  | .readBuf _ _ => recordRead 0 s
  | .assertReset => s
  | .releaseReset => resetTo false s

/-- One host access. -/
def hostAccess (a : HostAccess) (s : State) : Host.Outcome State Fault Refusal :=
  if s.resetLine then .next (accessInReset a s) else accessRunning a s

/-- The machine performs the host's next access (R47); with none left the run has ended (R117) and nothing changes, since
the AFC does nothing unless the host makes an access (R116). -/
def performNext (s : State) : Host.Outcome State Fault Refusal :=
  match s.pending with
  | [] => .next s
  | a :: rest => hostAccess a { s with pending := rest }

/-- The host access that a command line of R62 is. -/
def commandLine (l : AsmLine) : HostAccess := .writeReg 0x00 (assemble l)

/-- Element writes from index `k` on, one for each value (R63). An index past the buffer is written out like any other, and
the machine ignores that write (R34, R43): no index is cut to a width (log 6). -/
def elementWrites (b : HostBuf) : Nat → List Word → List HostAccess
  | _, [] => []
  | k, v :: t => .writeBuf b k v :: elementWrites b (k + 1) t

/-- The accesses a pseudo-instruction expands to (R63). RDBYTES and RDCHR read as many elements as their first access
returns; reads change nothing (R44), so that is OLEN or OCLEN of the state they start from. -/
def Pseudo.accesses (p : Pseudo) (s : State) : List HostAccess :=
  match p with
  | .wrreg r v => [.writeReg r v]
  | .rdreg r => [.readReg r]
  | .wrbytes bs =>
    elementWrites .ibuf 0 (bs.map fun b => b.setWidth 32) ++ [.writeReg 0x03 (BitVec.ofNat 32 bs.length)]
  | .wrchr cs =>
    elementWrites .ichr 0 (cs.map fun c => c.setWidth 32) ++ [.writeReg 0x04 (BitVec.ofNat 32 cs.length)]
  | .rdbytes => .readReg 0x05 :: (List.range s.olen.toNat).map fun i => .readBuf .obuf i
  | .rdchr => .readReg 0x06 :: (List.range s.oclen.toNat).map fun i => .readBuf .ochr i

/-- The host issues more accesses, after those still to come (R47). -/
def issue (accesses : List HostAccess) (s : State) : State := { s with pending := s.pending ++ accesses }

/-- The machine right after reset in a configuration, or the refusal of an ill-formed one (R13). -/
def powerOn (p : Params) : Host.Outcome State Fault Refusal :=
  if h : p.wf = true then .next (State.resetWith ⟨p, h⟩) else .refused .illFormedConfig

end Sys2Proof.Machine
end

