-- ==== Sys2Proof/Machine/Step.lean ====
section
/-! DEFINITION. One step: the host's next access takes effect (spec/20_memory.md R47, R48). -/

namespace Sys2Proof.Machine

/-- One step of the machine: the next host access, a write to CMD with the whole command it starts (R48). -/
def step (s : State) : Host.Outcome State Fault Refusal := performNext s

/-- The state in which the host's very next access writes the 32-bit word with low `nbits` bits `w` to CMD (log 2). The
reset input is released, since an access has no effect while it is asserted (R111). -/
def State.withFetchWord (s : State) (nbits w : Nat) : State :=
  { s with
    resetLine := false
    pending := .writeReg 0x00 (BitVec.ofNat 32 (w % 2 ^ nbits)) :: s.pending }

end Sys2Proof.Machine
end

