-- ==== Sys2Proof/Safety.lean ====
section
/-! DEFINITION. What every run keeps, in the terms claims use: the invariant of the machine, and the words for what a
command leaves unchanged. -/

namespace Sys2Proof

/-! ## Which commands write what (10_state.md, section 1) -/

/-- Written by commands: RAW and RAWLEN. -/
def Instr.writesField : Instr → Bool
  | .hdrEnc _ _ _ => false
  | .hdrDec _ => false
  | .bcdEnc => false
  | .bcdDec _ => false
  | .g7Enc => false
  | .g7Dec => false
  | .fldCons _ _ _ _ _ _ => true
  | .fldLoad => true
  | .fldRaw => false
  | .fldNat => false
  | .fldPlan => false
  | .fldExt => false
  | .fldAddr => false

/-- Written by commands: OBUF and OLEN. -/
def Instr.writesBytes : Instr → Bool
  | .hdrEnc _ _ _ => true
  | .hdrDec _ => false
  | .bcdEnc => true
  | .bcdDec _ => false
  | .g7Enc => true
  | .g7Dec => false
  | .fldCons _ _ _ _ _ _ => false
  | .fldLoad => false
  | .fldRaw => true
  | .fldNat => false
  | .fldPlan => false
  | .fldExt => false
  | .fldAddr => false

/-- Written by commands: OCHR and OCLEN. -/
def Instr.writesChars : Instr → Bool
  | .hdrEnc _ _ _ => false
  | .hdrDec _ => false
  | .bcdEnc => false
  | .bcdDec _ => true
  | .g7Enc => false
  | .g7Dec => true
  | .fldCons _ _ _ _ _ _ => false
  | .fldLoad => false
  | .fldRaw => false
  | .fldNat => false
  | .fldPlan => false
  | .fldExt => false
  | .fldAddr => true

end Sys2Proof

namespace Sys2Proof.Machine

/-- Element `i` of the store has been written since its free draw began. -/
abbrev Memory.listed {w : Nat} (m : Memory w) (i : Nat) : Prop := (lookupCell m.cells i).isSome = true

/-- STATUS reports success, or one of the errors of R101 with its codes, its index and STICKY = 1: no other CAUSE or SUB
is ever written, and the reserved bits read 0 (R30, R101). -/
def StatusLegal (v : Word) : Prop :=
  (∃ sticky : Bool, v = statusWord 0 0 sticky 0) ∨ ∃ e : AfcError, v = statusAfterError e

/-- The unused bits of RES read 0, and a valid bit stands only beside a defined code (R29, R67). -/
def ResLegal (p : Params) (v : Word) : Prop :=
  v &&& ~~~resUsedBits = 0 ∧
  (resNatv v = true → natureDefined p (resNat v) = true) ∧
  (resPlnv v = true → planDefined p (resPln v) = true)

/-- Every register reads 0 (R111). -/
def RegistersZero (s : State) : Prop :=
  s.rawLen = 0 ∧ s.ilen = 0 ∧ s.iclen = 0 ∧ s.olen = 0 ∧ s.oclen = 0 ∧ s.res = 0 ∧ s.status = 0 ∧ s.cmd = 0

/-- The machine after a change of the reset input (R111): every register 0, nothing listed in any store, each store in a draw
other than before (log 1), the reset input at `line`, and what is no state of the AFC as it was. -/
structure ResetFrom (line : Bool) (s t : State) : Prop where
  registers : RegistersZero t
  resetLine : t.resetLine = line
  cfg : t.cfg = s.cfg
  reads : t.reads = s.reads
  pending : t.pending = s.pending.tail
  raw : t.raw.cells = [] ∧ t.raw.draw ≠ s.raw.draw
  ibuf : t.ibuf.cells = [] ∧ t.ibuf.draw ≠ s.ibuf.draw
  ichr : t.ichr.cells = [] ∧ t.ichr.draw ≠ s.ichr.draw
  obuf : t.obuf.cells = [] ∧ t.obuf.draw ≠ s.obuf.draw
  ochr : t.ochr.cells = [] ∧ t.ochr.draw ≠ s.ochr.draw

/-- What every reachable state meets. -/
structure State.Inv (s : State) : Prop where
  /-- Each store is in canonical form and inside its capacity (R40). -/
  rawWf : s.raw.wf s.cfg.params.rawCap
  ibufWf : s.ibuf.wf s.cfg.params.ibufCap
  ichrWf : s.ichr.wf s.cfg.params.ichrCap
  obufWf : s.obuf.wf s.cfg.params.obufCap
  ochrWf : s.ochr.wf s.cfg.params.ochrCap
  /-- `0 <= RAWLEN <= P_RAW_CAP` (R20); a result fits its buffer (R27, R28). -/
  rawLenFits : s.rawLen.toNat ≤ s.cfg.params.rawCap
  olenFits : s.olen.toNat ≤ s.cfg.params.obufCap
  oclenFits : s.oclen.toNat ≤ s.cfg.params.ochrCap
  /-- Every element inside a length register that only commands write was written by a command (R24, R35, R48). -/
  fieldListed : ∀ i < s.rawLen.toNat, s.raw.listed i
  bytesListed : ∀ i < s.olen.toNat, s.obuf.listed i
  charsListed : ∀ i < s.oclen.toNat, s.ochr.listed i
  statusLegal : StatusLegal s.status
  resLegal : ResLegal s.cfg.params s.res
  /-- While reset is asserted every register holds its reset value (R111). -/
  inReset : s.resetLine = true → RegistersZero s

/-- The elements of a store from `n` on read the same in both: those below `n` may differ. -/
def SameFrom {w : Nat} (which : Store) (n : Nat) (m m' : Memory w) : Prop :=
  ∀ i, n ≤ i → m'.read which i = m.read which i

/-- Every element of a store reads the same in both. -/
abbrev SameElements {w : Nat} (which : Store) (m m' : Memory w) : Prop := SameFrom which 0 m m'

/-- All five stores read the same in both states. -/
def SameStores (s t : State) : Prop :=
  SameElements .raw s.raw t.raw ∧ SameElements .ibuf s.ibuf t.ibuf ∧ SameElements .ichr s.ichr t.ichr ∧
  SameElements .obuf s.obuf t.obuf ∧ SameElements .ochr s.ochr t.ochr

/-- Everything a command never writes is the same in both states: the operands and their lengths (10_state.md section 1:
"written by commands: none"), CMD (R31), the configuration, the reset input, and the host's own record (R9). -/
def SameHostSide (s t : State) : Prop :=
  t.cfg = s.cfg ∧ t.ibuf = s.ibuf ∧ t.ilen = s.ilen ∧ t.ichr = s.ichr ∧ t.iclen = s.iclen ∧
  t.cmd = s.cmd ∧ t.resetLine = s.resetLine ∧ t.pending = s.pending ∧ t.reads = s.reads

/-- The FIELD storage is the same in both states. -/
def SameField (s t : State) : Prop := t.raw = s.raw ∧ t.rawLen = s.rawLen

/-- OBUF and OLEN are the same in both states. -/
def SameBytes (s t : State) : Prop := t.obuf = s.obuf ∧ t.olen = s.olen

/-- OCHR and OCLEN are the same in both states. -/
def SameChars (s t : State) : Prop := t.ochr = s.ochr ∧ t.oclen = s.oclen

/-- The command ended in success (R102). -/
def Succeeded (s t : State) : Prop := t.status = statusWord 0 0 (statusSticky s.status) 0

/-- The command ended in the error with these codes and this index (R103). -/
def Failed (cause sub : BitVec 4) (idx : Nat) (t : State) : Prop :=
  t.status = statusWord cause sub true (BitVec.ofNat 16 idx)

/-- OBUF[0..OLEN) is the byte sequence, the other elements of OBUF as before (R27, R35). -/
def BytesWritten (bs : List Byte) (s t : State) : Prop :=
  t.olen.toNat = bs.length ∧ (∀ i : Nat, ∀ h : i < bs.length, t.obuf.read .obuf i = bs[i]) ∧
  SameFrom .obuf bs.length s.obuf t.obuf

/-- OCHR[0..OCLEN) is the string, the other elements of OCHR as before (R28, R35). -/
def CharsWritten (cs : List Char16) (s t : State) : Prop :=
  t.oclen.toNat = cs.length ∧ (∀ i : Nat, ∀ h : i < cs.length, t.ochr.read .ochr i = cs[i]) ∧
  SameFrom .ochr cs.length s.ochr t.ochr

/-- RAW[0..RAWLEN) is the byte sequence, the other elements of RAW as before (R24, R35). -/
def FieldWritten (bs : List Byte) (s t : State) : Prop :=
  t.rawLen.toNat = bs.length ∧ (∀ i : Nat, ∀ h : i < bs.length, t.raw.read .raw i = bs[i]) ∧
  SameFrom .raw bs.length s.raw t.raw

/-! ## Words for operands -/

/-- A decimal digit character (R70). -/
def IsDigitChar (c : Char16) : Prop := 0x0030 ≤ c.toNat ∧ c.toNat ≤ 0x0039

/-- The nibble at digit position `k` of a byte sequence read through `byte`: the low nibble of byte `k div 2` when `k` is
even, its high nibble when `k` is odd (R72). -/
def nibbleAt (byte : Nat → Byte) (k : Nat) : Nibble :=
  if k % 2 = 0 then (byte (k / 2)).extractLsb' 0 4 else (byte (k / 2)).extractLsb' 4 4

/-- The character has an entry in one of the two alphabet tables (R81). -/
def InAlphabet (p : Params) (c : Char16) : Prop :=
  (∃ x, (x, c) ∈ p.gsm7Basic) ∨ ∃ e, (e, c) ∈ p.gsm7Ext

/-- The constraints of R13 and R80 on the configuration parameters, as the rules word them. -/
structure MeetsConstraints (p : Params) : Prop where
  rawCap : 20 ≤ p.rawCap ∧ p.rawCap ≤ 65535
  ibufCap : 1 ≤ p.ibufCap ∧ p.ibufCap ≤ 65535
  ichrCap : 1 ≤ p.ichrCap ∧ p.ichrCap ≤ 65535
  obufCap : 1 ≤ p.obufCap ∧ p.obufCap ≤ 65535
  ochrCap : 1 ≤ p.ochrCap ∧ p.ochrCap ≤ 65535
  obufHoldsRaw : p.rawCap ≤ p.obufCap
  ochrHoldsDecoded : max 255 (max (2 * (p.rawCap - 1)) (8 * max p.ibufCap (p.rawCap - 1) / 7)) ≤ p.ochrCap
  alnumPlan : p.alnumPlan ∈ p.planDefined
  basicTotal : ∀ x : Septet, x ∈ p.gsm7Basic.map Prod.fst ↔ x ≠ 0x1B
  basicMap : (p.gsm7Basic.map Prod.fst).Nodup
  basicInjective : (p.gsm7Basic.map Prod.snd).Nodup
  extMap : (p.gsm7Ext.map Prod.fst).Nodup
  extInjective : (p.gsm7Ext.map Prod.snd).Nodup
  extNoEscape : (0x1B : Septet) ∉ p.gsm7Ext.map Prod.fst
  disjoint : ∀ c : Char16, c ∈ p.gsm7Ext.map Prod.snd → c ∉ p.gsm7Basic.map Prod.snd

end Sys2Proof.Machine
end

