-- ==== Sys2Proof/Certificates/Slice0/Obligations.lean ====
section
/-! DEFINITION. The statements for the provers. Each names the rules of spec/ it formalises in OBLIGATIONS.json. -/

open Sys2Proof Sys2Proof.Machine

/-! ## Encoding (spec/30_encoding.md) -/

/-- Decoding the word of an instruction gives the instruction back, for every command and every operand value (R54, R55,
R58, R60): no bit of an encoding is dropped. -/
def Obligations.DecodeOfEncodeIsIdentity : Prop :=
  ∀ i : Instr, i.wf = true → decode (encode i) = .ok i

/-- Every legal word is the word of the command it selects: no two words select one command with the same operands. -/
def Obligations.EncodeOfDecodeIsIdentity : Prop :=
  ∀ (v : Word) (i : Instr), decode v = .ok i → encode i = v

/-- R59, R60: the unassigned opcodes are 0x00, 0x07..0x0F and 0x17..0xFF, and exactly their words are rejected as such. -/
def Obligations.UnassignedOpcodesRejected : Prop :=
  ∀ v : Word, decode v = .error .unassignedOpcode ↔
    (v.extractLsb' 0 8).toNat = 0 ∨
    (0x07 ≤ (v.extractLsb' 0 8).toNat ∧ (v.extractLsb' 0 8).toNat ≤ 0x0F) ∨
    0x17 ≤ (v.extractLsb' 0 8).toNat

/-- R55, R59: a word with an assigned opcode is illegal exactly when it has a 1 in a must-be-zero bit of its format: for
format H bits [31:26], [24], [19], [15:8]; for I bits [31:16]; for F bits [31:27], [15:8]; for N bits [31:8]. -/
def Obligations.MustBeZeroBitsRejected : Prop :=
  ∀ v : Word,
    let opc := (v.extractLsb' 0 8).toNat
    (opc = 0x01 → (decode v = .error .mustBeZero ↔
      v.extractLsb' 26 6 ≠ 0 ∨ v.getLsbD 24 = true ∨ v.getLsbD 19 = true ∨ v.extractLsb' 8 8 ≠ 0)) ∧
    (opc = 0x02 ∨ opc = 0x04 → (decode v = .error .mustBeZero ↔ v.extractLsb' 16 16 ≠ 0)) ∧
    (opc = 0x10 → (decode v = .error .mustBeZero ↔ v.extractLsb' 27 5 ≠ 0 ∨ v.extractLsb' 8 8 ≠ 0)) ∧
    ((opc = 0x03 ∨ opc = 0x05 ∨ opc = 0x06 ∨ (0x11 ≤ opc ∧ opc ≤ 0x16)) →
      (decode v = .error .mustBeZero ↔ v.extractLsb' 8 24 ≠ 0))

/-- R54, R55, R58: a word selects a command exactly when (word & mask) = match for its row of the opcode table, with the
operands taken from the word's fields; a word that no row selects is illegal. -/
def Obligations.OpcodeTableRowsSelectCommands : Prop :=
  ∀ v : Word,
    (v &&& 0xFD08FFFF = 0x00000001 →
      decode v = .ok (.hdrEnc (v.extractLsb' 16 3) (v.extractLsb' 20 4) (v.getLsbD 25))) ∧
    (v &&& 0xFFFF00FF = 0x00000002 → decode v = .ok (.hdrDec (v.extractLsb' 8 8))) ∧
    (v = 0x00000003 → decode v = .ok .bcdEnc) ∧
    (v &&& 0xFFFF00FF = 0x00000004 → decode v = .ok (.bcdDec (v.extractLsb' 8 8))) ∧
    (v = 0x00000005 → decode v = .ok .g7Enc) ∧
    (v = 0x00000006 → decode v = .ok .g7Dec) ∧
    (v &&& 0xF800FFFF = 0x00000010 →
      decode v = .ok (.fldCons (v.extractLsb' 16 3) (v.getLsbD 19) (v.extractLsb' 20 4) (v.getLsbD 24) (v.getLsbD 25)
        (v.getLsbD 26))) ∧
    (v = 0x00000011 → decode v = .ok .fldLoad) ∧
    (v = 0x00000012 → decode v = .ok .fldRaw) ∧
    (v = 0x00000013 → decode v = .ok .fldNat) ∧
    (v = 0x00000014 → decode v = .ok .fldPlan) ∧
    (v = 0x00000015 → decode v = .ok .fldExt) ∧
    (v = 0x00000016 → decode v = .ok .fldAddr) ∧
    (v &&& 0xFD08FFFF ≠ 0x00000001 → v &&& 0xFFFF00FF ≠ 0x00000002 → v ≠ 0x00000003 →
      v &&& 0xFFFF00FF ≠ 0x00000004 → v ≠ 0x00000005 → v ≠ 0x00000006 → v &&& 0xF800FFFF ≠ 0x00000010 →
      v ≠ 0x00000011 → v ≠ 0x00000012 → v ≠ 0x00000013 → v ≠ 0x00000014 → v ≠ 0x00000015 → v ≠ 0x00000016 →
      ∃ e, decode v = .error e)

/-- Words written out from the encoding tables (R54, R58) decode to their commands. -/
def Obligations.SampleWordsDecode : Prop :=
  decode 0b000000_1_0_1111_0_111_00000000_00000001 = .ok (.hdrEnc 7 15 true) ∧
  decode 0b0000000000000000_10010001_00000010 = .ok (.hdrDec 0x91) ∧
  decode 0b0000000000000000_00000011_00000100 = .ok (.bcdDec 3) ∧
  decode 0b00000_1_0_1_0001_1_001_00000000_00010000 = .ok (.fldCons 1 true 1 true false true) ∧
  decode 0x00000016 = .ok .fldAddr ∧
  decode 0x00000000 = .error .unassignedOpcode ∧
  decode 0x00000112 = .error .mustBeZero

/-! ## Steps, reset and the host port (spec/10_state.md, spec/20_memory.md, spec/70_reset_and_hazards.md) -/

/-- A write to CMD stores the word in CMD and executes the command it decodes to, in the same step (R31, R48, R60). That the
host's accesses stand in `pending` is the model's choice (log 2). -/
def Obligations.StepRunsDecodedCommand : Prop :=
  ∀ (s : State) (v : Word) (rest : List HostAccess) (i : Instr),
    s.resetLine = false → s.pending = .writeReg 0x00 v :: rest → decode v = .ok i → i.wf = true →
    step s = exec i { s with pending := rest, cmd := v }

/-- An illegal word written to CMD changes STATUS (and CMD, which holds the word) and nothing else: CAUSE 1, SUB 1 for an
unassigned opcode and 2 for a must-be-zero bit, IDX 0, STICKY 1 (R60, R101, R103). `pending` is log 2. -/
def Obligations.StepReportsIllegalWord : Prop :=
  ∀ (s : State) (v : Word) (rest : List HostAccess),
    s.resetLine = false → s.pending = .writeReg 0x00 v :: rest →
    (decode v = .error .unassignedOpcode →
      step s = .next { s with pending := rest, cmd := v, status := statusWord 1 1 true 0 }) ∧
    (decode v = .error .mustBeZero →
      step s = .next { s with pending := rest, cmd := v, status := statusWord 1 2 true 0 })

/-- Right after reset, in every configuration: every register is 0, no store has an element written, and reset is
released (R111). The empty lists of cells are how the model holds unspecified elements (log 1), `cfg` is log 3. -/
def Obligations.ResetLeavesRegistersZero : Prop :=
  ∀ c : Config,
    let s := State.resetWith c
    RegistersZero s ∧ s.cfg = c ∧ s.resetLine = false ∧
    s.raw.cells = [] ∧ s.ibuf.cells = [] ∧ s.ichr.cells = [] ∧ s.obuf.cells = [] ∧ s.ochr.cells = []

/-- The state right after reset meets the machine's invariant, in every configuration. -/
def Obligations.ResetMeetsInvariant : Prop := ∀ c : Config, (State.resetWith c).Inv

/-- Every step keeps the machine's invariant: stores in canonical form inside their capacities, length registers inside
theirs, no result or field element inside its length unwritten, STATUS one of the legal reports, RES with its reserved
bits 0 and valid bits only beside defined codes, every register 0 while reset is asserted. The canonical form of a store
is the model's (log 1), as is the list of accesses a step takes (log 2). -/
def Obligations.StepKeepsInvariant : Prop :=
  ∀ s t : State, s.Inv → step s = .next t → t.Inv

/-- R13: a configuration that breaks a constraint is refused; every other one is accepted; the defaults meet them all. -/
def Obligations.IllFormedConfigurationRefused : Prop :=
  MeetsConstraints defaultParams ∧
  ∀ p : Params,
    (powerOn p = .refused .illFormedConfig ↔ ¬ MeetsConstraints p) ∧
    (MeetsConstraints p → ∃ h : p.wf = true, powerOn p = .next (State.resetWith ⟨p, h⟩))

/-- R111: asserting reset, and releasing it, sets every register to 0 and makes every element unspecified again: nothing is
listed, and each store's free draw is not the one before. While reset is asserted an access has no effect and reads 0. The
lists of cells and the draws are the model's (log 1), `pending` and `reads` are (log 2), and so is the reset input as a
level that two accesses move, where asserting an asserted one or releasing a released one changes nothing (log 11). -/
def Obligations.ResetInputClearsState : Prop :=
  ∀ (s : State) (a : HostAccess) (rest : List HostAccess), s.pending = a :: rest →
    (s.resetLine = false → a = .assertReset → ∃ t, step s = .next t ∧ ResetFrom true s t) ∧
    (s.resetLine = true → a = .releaseReset → ∃ t, step s = .next t ∧ ResetFrom false s t) ∧
    (s.resetLine = true → ((∃ r, a = .readReg r) ∨ ∃ b i, a = .readBuf b i) →
      step s = .next { s with pending := rest, reads := s.reads ++ [0] }) ∧
    (s.resetLine = true → ((∃ r v, a = .writeReg r v) ∨ (∃ b i v, a = .writeBuf b i v) ∨ a = .assertReset) →
      step s = .next { s with pending := rest }) ∧
    (s.resetLine = false → a = .releaseReset → step s = .next { s with pending := rest })

/-- A register read returns the register, unused bits and reserved indices 0, and changes nothing (R32, R33, R44). `pending` and
`reads` are the model's (log 2). -/
def Obligations.RegisterReadReturnsValue : Prop :=
  ∀ (s : State) (r : BitVec 8) (rest : List HostAccess),
    s.resetLine = false → s.pending = .readReg r :: rest →
    ∃ v : Word, step s = .next { s with pending := rest, reads := s.reads ++ [v] } ∧
      (r = 0x00 → v = s.cmd) ∧
      (r = 0x01 → v = s.status &&& 0xFFFF01FF) ∧
      (r = 0x02 → v = s.res &&& 0x00001FF7) ∧
      (r = 0x03 → v.toNat = s.ilen.toNat) ∧
      (r = 0x04 → v.toNat = s.iclen.toNat) ∧
      (r = 0x05 → v.toNat = s.olen.toNat) ∧
      (r = 0x06 → v.toNat = s.oclen.toNat) ∧
      (r = 0x07 → v.toNat = s.rawLen.toNat) ∧
      (0x08 ≤ r.toNat → v = 0)

/-- A register write: ILEN and ICLEN take v[15:0]; a read-only or reserved index has no effect and leaves STATUS (R33).
`pending` is the model's (log 2). -/
def Obligations.RegisterWriteStoresLengths : Prop :=
  ∀ (s : State) (r : BitVec 8) (v : Word) (rest : List HostAccess),
    s.resetLine = false → s.pending = .writeReg r v :: rest →
    (r = 0x03 → step s = .next { s with pending := rest, ilen := v.extractLsb' 0 16 }) ∧
    (r = 0x04 → step s = .next { s with pending := rest, iclen := v.extractLsb' 0 16 }) ∧
    (r ≠ 0x00 → r ≠ 0x03 → r ≠ 0x04 → step s = .next { s with pending := rest })

/-- A host write to an element of IBUF: inside the capacity it stores v[7:0] there and every other element reads as before;
outside it does nothing; no length register changes (R34). `pending` is the model's (log 2); the index is any natural
number (log 6). -/
def Obligations.ByteElementWrite : Prop :=
  ∀ (s : State) (i : Nat) (v : Word) (rest : List HostAccess),
    s.resetLine = false → s.pending = .writeBuf .ibuf i v :: rest →
    ∃ t, step s = .next t ∧ t = { s with pending := rest, ibuf := t.ibuf } ∧
      (i < s.cfg.params.ibufCap →
        t.ibuf.read .ibuf i = v.extractLsb' 0 8 ∧
        ∀ j, j ≠ i → t.ibuf.read .ibuf j = s.ibuf.read .ibuf j) ∧
      (s.cfg.params.ibufCap ≤ i → t.ibuf = s.ibuf)

/-- The same for an element of ICHR and v[15:0]; a write to OBUF or OCHR does nothing (R34). `pending` is
the model's (log 2); the index is any natural number (log 6). -/
def Obligations.CharacterElementWrite : Prop :=
  ∀ (s : State) (i : Nat) (v : Word) (rest : List HostAccess), s.resetLine = false →
    (s.pending = .writeBuf .ichr i v :: rest →
      ∃ t, step s = .next t ∧ t = { s with pending := rest, ichr := t.ichr } ∧
        (i < s.cfg.params.ichrCap →
          t.ichr.read .ichr i = v.extractLsb' 0 16 ∧
          ∀ j, j ≠ i → t.ichr.read .ichr j = s.ichr.read .ichr j) ∧
        (s.cfg.params.ichrCap ≤ i → t.ichr = s.ichr)) ∧
    (s.pending = .writeBuf .obuf i v :: rest ∨ s.pending = .writeBuf .ochr i v :: rest →
      step s = .next { s with pending := rest })

/-- A buffer read returns the element when its index is below the capacity and 0 otherwise, and changes nothing (R34,
R44). `pending` and `reads` are the model's (log 2); the index is any natural number (log 6). -/
def Obligations.BufferReadReturnsElement : Prop :=
  ∀ (s : State) (b : HostBuf) (i : Nat) (rest : List HostAccess),
    s.resetLine = false → s.pending = .readBuf b i :: rest →
    ∃ v : Word, step s = .next { s with pending := rest, reads := s.reads ++ [v] } ∧
      (b = .ibuf → v.toNat = if i < s.cfg.params.ibufCap then (s.ibuf.read .ibuf i).toNat else 0) ∧
      (b = .ichr → v.toNat = if i < s.cfg.params.ichrCap then (s.ichr.read .ichr i).toNat else 0) ∧
      (b = .obuf → v.toNat = if i < s.cfg.params.obufCap then (s.obuf.read .obuf i).toNat else 0) ∧
      (b = .ochr → v.toNat = if i < s.cfg.params.ochrCap then (s.ochr.read .ochr i).toNat else 0)

/-! ## The header byte (spec/40_header.md) -/

/-- R66: decoding takes nat = b[6:4], pln = b[3:0], ext = b[7]; decoding an encoded header gives its three fields, and
encoding a decoded byte gives the byte. -/
def Obligations.HeaderByteRoundTrip : Prop :=
  (∀ b : Byte, (hdrNature b).toNat = b.toNat / 16 % 8 ∧ (hdrPlan b).toNat = b.toNat % 16 ∧
    (hdrExt b = true ↔ 128 ≤ b.toNat)) ∧
  (∀ b : Byte, hdrEncode (hdrNature b) (hdrPlan b) (hdrExt b) = b) ∧
  (∀ (nat : BitVec 3) (pln : BitVec 4) (ext : Bool),
    hdrNature (hdrEncode nat pln ext) = nat ∧ hdrPlan (hdrEncode nat pln ext) = pln ∧
    hdrExt (hdrEncode nat pln ext) = ext)

/-- HDR_ENC completes in every state: OBUF[0] is the header byte by the formula of R65, OLEN is 1, and everything else but
STATUS is unchanged (R65, R68). -/
def Obligations.HeaderEncodeWritesByte : Prop :=
  ∀ (nat : BitVec 3) (pln : BitVec 4) (ext : Bool) (s : State),
    ∃ t, exec (.hdrEnc nat pln ext) s = .next t ∧
      BytesWritten [(if ext then 0x80 else 0x00) ||| ((nat.setWidth 8 &&& 0x7) <<< 4) ||| (pln.setWidth 8 &&& 0xF)] s t ∧
      Succeeded s t ∧ SameHostSide s t ∧ SameField s t ∧ SameChars s t ∧ t.res = s.res

/-- HDR_DEC completes in every state: RES carries the fields of IMM8, its valid bits say whether the codes are defined,
EXTV is 1, STRV and the reserved bits are 0, and everything else but STATUS is unchanged (R66, R67, R69). -/
def Obligations.HeaderDecodeWritesResult : Prop :=
  ∀ (b : Byte) (s : State),
    ∃ t, exec (.hdrDec b) s = .next t ∧
      resNat t.res = b.extractLsb' 4 3 ∧ resPln t.res = b.extractLsb' 0 4 ∧ resExt t.res = b.getLsbD 7 ∧
      (resNatv t.res = true ↔ b.extractLsb' 4 3 ∈ s.cfg.params.natureDefined) ∧
      (resPlnv t.res = true ↔ b.extractLsb' 0 4 ∈ s.cfg.params.planDefined) ∧
      resExtv t.res = true ∧ resStrv t.res = false ∧ t.res &&& ~~~(0x00001FF7 : Word) = 0 ∧
      Succeeded s t ∧ SameHostSide s t ∧ SameField s t ∧ SameBytes s t ∧ SameChars s t

/-! ## The digit-packing codec (spec/41_bcd.md) -/

/-- BCD_ENC completes on every digit string that fits: byte j has digit 2j in its low nibble and digit 2j+1, or the filler
0xF past an odd end, in its high nibble; OLEN is ceil(L/2); everything else but STATUS is unchanged (R71, R76). -/
def Obligations.BcdEncodePacksDigits : Prop :=
  ∀ s : State,
    let L := s.iclen.toNat
    L ≤ s.cfg.params.ichrCap → (∀ i < L, IsDigitChar (s.ichr.read .ichr i)) → (L + 1) / 2 ≤ s.cfg.params.obufCap →
    ∃ t, exec .bcdEnc s = .next t ∧ t.olen.toNat = (L + 1) / 2 ∧
      (∀ j < (L + 1) / 2,
        ((t.obuf.read .obuf j).extractLsb' 0 4).toNat + 0x30 = (s.ichr.read .ichr (2 * j)).toNat ∧
        (2 * j + 1 < L →
          ((t.obuf.read .obuf j).extractLsb' 4 4).toNat + 0x30 = (s.ichr.read .ichr (2 * j + 1)).toNat) ∧
        (L ≤ 2 * j + 1 → (t.obuf.read .obuf j).extractLsb' 4 4 = 0xF)) ∧
      SameFrom .obuf ((L + 1) / 2) s.obuf t.obuf ∧
      Succeeded s t ∧ SameHostSide s t ∧ SameField s t ∧ SameChars s t ∧ t.res = s.res

/-- BCD_ENC reports the lowest index that holds no decimal digit: ENCODING/1, OLEN 0 (R71, R76, R103). -/
def Obligations.BcdEncodeReportsNonDigit : Prop :=
  ∀ (s : State) (k : Nat),
    s.iclen.toNat ≤ s.cfg.params.ichrCap → k < s.iclen.toNat →
    (∀ i < k, IsDigitChar (s.ichr.read .ichr i)) → ¬ IsDigitChar (s.ichr.read .ichr k) →
    ∃ t, exec .bcdEnc s = .next t ∧ Failed 3 1 k t ∧ t.olen = 0 ∧
      SameHostSide s t ∧ SameField s t ∧ SameChars s t ∧ t.res = s.res

/-- BCD_DEC completes when there are bytes enough and every digit position holds 0..9: character k is 0x30 plus the nibble
at position k, OCLEN is IMM8; everything else but STATUS is unchanged. The filler position of an odd count is not read
(R72, R74, R77). -/
def Obligations.BcdDecodeUnpacksDigits : Prop :=
  ∀ (c : Byte) (s : State),
    s.ilen.toNat ≤ s.cfg.params.ibufCap → (c.toNat + 1) / 2 ≤ s.ilen.toNat →
    (∀ k < c.toNat, (nibbleAt (s.ibuf.read .ibuf) k).toNat ≤ 9) →
    ∃ t, exec (.bcdDec c) s = .next t ∧ t.oclen.toNat = c.toNat ∧
      (∀ k < c.toNat, (t.ochr.read .ochr k).toNat = 0x30 + (nibbleAt (s.ibuf.read .ibuf) k).toNat) ∧
      SameFrom .ochr c.toNat s.ochr t.ochr ∧
      Succeeded s t ∧ SameHostSide s t ∧ SameField s t ∧ SameBytes s t ∧ t.res = s.res

/-- BCD_DEC reports too few bytes first (DECODING/1, IDX = bytes needed), else the first digit position that holds 0xA..0xF
(DECODING/2, IDX = its index); OCLEN is 0 (R72, R73, R77, R103). -/
def Obligations.BcdDecodeReportsErrors : Prop :=
  ∀ (c : Byte) (s : State), s.ilen.toNat ≤ s.cfg.params.ibufCap →
    (s.ilen.toNat < (c.toNat + 1) / 2 →
      ∃ t, exec (.bcdDec c) s = .next t ∧ Failed 4 1 ((c.toNat + 1) / 2) t ∧ t.oclen = 0 ∧
        SameHostSide s t ∧ SameField s t ∧ SameBytes s t ∧ t.res = s.res) ∧
    (∀ k : Nat, (c.toNat + 1) / 2 ≤ s.ilen.toNat → k < c.toNat →
      (∀ j < k, (nibbleAt (s.ibuf.read .ibuf) j).toNat ≤ 9) → 9 < (nibbleAt (s.ibuf.read .ibuf) k).toNat →
      ∃ t, exec (.bcdDec c) s = .next t ∧ Failed 4 2 k t ∧ t.oclen = 0 ∧
        SameHostSide s t ∧ SameField s t ∧ SameBytes s t ∧ t.res = s.res)

/-- R75: BcdDecode undoes BcdEncode on every digit string; an odd length puts 0xF in the last high nibble; an even length
leaves every nibble in 0..9. -/
def Obligations.BcdCodecLaws : Prop :=
  ∀ d : List Char16, (∀ c ∈ d, IsDigitChar c) →
    ∃ bs, bcdEncode d = .ok bs ∧ bcdDecode bs d.length = .ok d ∧
      (d.length % 2 = 1 → ∃ b, bs.getLast? = some b ∧ b.extractLsb' 4 4 = 0xF) ∧
      (d.length % 2 = 0 → ∀ b ∈ bs, (b.extractLsb' 0 4).toNat ≤ 9 ∧ (b.extractLsb' 4 4).toNat ≤ 9)

/-! ## The seven-bit alphabet codec (spec/42_gsm7.md) -/

/-- R81: a character of the basic table maps to its septet, one of the extension table to 0x1B and its septet, any other
is an error at its index; strings map character by character, the lowest bad index reported. The septet count is the
character count plus the number of extension characters. With the default tables U+001B and every surrogate unit are
errors. -/
def Obligations.SeptetMapping : Prop :=
  ∀ c : Config,
    g7Map c.params [] = .ok [] ∧
    (∀ x ch, (x, ch) ∈ c.params.gsm7Basic → g7Map c.params [ch] = .ok [x]) ∧
    (∀ e ch, (e, ch) ∈ c.params.gsm7Ext → g7Map c.params [ch] = .ok [0x1B, e]) ∧
    (∀ ch, ¬ InAlphabet c.params ch → g7Map c.params [ch] = .error (.notInAlphabet 0)) ∧
    (∀ t u st su, g7Map c.params t = .ok st → g7Map c.params u = .ok su → g7Map c.params (t ++ u) = .ok (st ++ su)) ∧
    (∀ t u ch, (∀ d ∈ t, InAlphabet c.params d) → ¬ InAlphabet c.params ch →
      g7Map c.params (t ++ ch :: u) = .error (.notInAlphabet t.length)) ∧
    (∀ t st, g7Map c.params t = .ok st →
      st.length = t.length + t.countP fun ch => decide (ch ∈ c.params.gsm7Ext.map Prod.snd)) ∧
    (c.params = defaultParams → ∀ ch : Char16, ch.toNat = 0x1B ∨ (0xD800 ≤ ch.toNat ∧ ch.toNat ≤ 0xDFFF) →
      g7Map c.params [ch] = .error (.notInAlphabet 0))

/-- G7_ENC completes on every text of the alphabet that fits: stream bit j of the result is bit j mod 8 of byte j div 8 and
equals bit j mod 7 of septet j div 7, the unused high bits of the last byte are 0, OLEN is ceil(7S/8); everything else
but STATUS is unchanged (R82, R88). -/
def Obligations.G7EncodePacksSeptets : Prop :=
  ∀ (s : State) (sep : List Septet),
    s.iclen.toNat ≤ s.cfg.params.ichrCap → g7Map s.cfg.params (stringOperand s) = .ok sep →
    (7 * sep.length + 7) / 8 ≤ s.cfg.params.obufCap →
    ∃ t, exec .g7Enc s = .next t ∧ t.olen.toNat = (7 * sep.length + 7) / 8 ∧
      (∀ i < (7 * sep.length + 7) / 8, ∀ b < 8,
        (t.obuf.read .obuf i).getLsbD b = (sep.getD ((8 * i + b) / 7) 0).getLsbD ((8 * i + b) % 7)) ∧
      SameFrom .obuf ((7 * sep.length + 7) / 8) s.obuf t.obuf ∧
      Succeeded s t ∧ SameHostSide s t ∧ SameField s t ∧ SameChars s t ∧ t.res = s.res

/-- G7_ENC reports the lowest index whose character has no table entry: ENCODING/2, OLEN 0 (R81, R88, R103). -/
def Obligations.G7EncodeReportsForeignCharacter : Prop :=
  ∀ (s : State) (k : Nat),
    s.iclen.toNat ≤ s.cfg.params.ichrCap → k < s.iclen.toNat →
    (∀ i < k, InAlphabet s.cfg.params (s.ichr.read .ichr i)) → ¬ InAlphabet s.cfg.params (s.ichr.read .ichr k) →
    ∃ t, exec .g7Enc s = .next t ∧ Failed 3 2 k t ∧ t.olen = 0 ∧
      SameHostSide s t ∧ SameField s t ∧ SameChars s t ∧ t.res = s.res

/-- R83: unpacking n bytes gives floor(8n/7) septets, septet k being stream bits 7k..7k+6, bit 0 first. -/
def Obligations.UnpackedSeptets : Prop :=
  ∀ bs : List Byte, (g7Unpack bs).length = 8 * bs.length / 7 ∧
    ∀ k < 8 * bs.length / 7, ∀ b < 7,
      ((g7Unpack bs).getD k 0).getLsbD b = (bs.getD ((7 * k + b) / 8) 0).getLsbD ((7 * k + b) % 8)

/-- G7_DEC completes on every byte sequence whose septets hold no escape: each septet gives its character of the basic
table, and OCLEN is floor(8n/7); everything else but STATUS is unchanged (R83, R85, R89). -/
def Obligations.G7DecodeUnpacksText : Prop :=
  ∀ s : State,
    let sep := g7Unpack (byteOperand s)
    s.ilen.toNat ≤ s.cfg.params.ibufCap → (∀ x ∈ sep, x ≠ 0x1B) →
    ∃ t, exec .g7Dec s = .next t ∧ t.oclen.toNat = 8 * s.ilen.toNat / 7 ∧
      (∀ k < 8 * s.ilen.toNat / 7, (sep.getD k 0, t.ochr.read .ochr k) ∈ s.cfg.params.gsm7Basic) ∧
      SameFrom .ochr (8 * s.ilen.toNat / 7) s.ochr t.ochr ∧
      Succeeded s t ∧ SameHostSide s t ∧ SameField s t ∧ SameBytes s t ∧ t.res = s.res

/-- G7_DEC on septets with escapes (R85, R89). Let `pre` be the septets of any text, with any number of escapes in it. When
they are all the septets, OCHR is that text. When an escape, a septet of the extension table and the septets of another
text follow them, OCHR is the text, the extension character and the other text. When an escape follows them as the last
septet the error is DECODING/3, and when an escape and a septet that the extension table lacks follow them, whatever stands
after, it is DECODING/4, each with the septet index of the escape. -/
def Obligations.G7DecodeEscapes : Prop :=
  ∀ (s : State) (text : List Char16) (pre : List Septet),
    s.ilen.toNat ≤ s.cfg.params.ibufCap → g7Map s.cfg.params text = .ok pre →
    (g7Unpack (byteOperand s) = pre →
      ∃ t, exec .g7Dec s = .next t ∧ Succeeded s t ∧ CharsWritten text s t ∧
        SameHostSide s t ∧ SameField s t ∧ SameBytes s t ∧ t.res = s.res) ∧
    (∀ e ch more tail, g7Unpack (byteOperand s) = pre ++ 0x1B :: e :: more → (e, ch) ∈ s.cfg.params.gsm7Ext →
      g7Map s.cfg.params tail = .ok more →
      ∃ t, exec .g7Dec s = .next t ∧ Succeeded s t ∧ CharsWritten (text ++ ch :: tail) s t ∧
        SameHostSide s t ∧ SameField s t ∧ SameBytes s t ∧ t.res = s.res) ∧
    (g7Unpack (byteOperand s) = pre ++ [0x1B] →
      ∃ t, exec .g7Dec s = .next t ∧ Failed 4 3 pre.length t ∧ t.oclen = 0 ∧
        SameHostSide s t ∧ SameField s t ∧ SameBytes s t ∧ t.res = s.res) ∧
    (∀ e more, g7Unpack (byteOperand s) = pre ++ 0x1B :: e :: more → e ∉ s.cfg.params.gsm7Ext.map Prod.fst →
      ∃ t, exec .g7Dec s = .next t ∧ Failed 4 4 pre.length t ∧ t.oclen = 0 ∧
        SameHostSide s t ∧ SameField s t ∧ SameBytes s t ∧ t.res = s.res)

/-- Every error of the septet reader is at an escape: the last septet of the sequence, or one before a septet the extension
table lacks (R85). -/
def Obligations.G7DecodeErrorsAtEscapes : Prop :=
  ∀ (p : Params) (bs : List Byte) (e : AfcError), g7Decode p bs = .error e →
    ∃ k, (g7Unpack bs)[k]? = some 0x1B ∧
      ((e = .danglingEscape k ∧ k + 1 = (g7Unpack bs).length) ∨
       (e = .undefinedEscape k ∧ ∃ x, (g7Unpack bs)[k + 1]? = some x ∧ x ∉ p.gsm7Ext.map Prod.fst))

/-- R86, R87 (a): decoding the encoding of a text gives the text back, with one more character, that of septet 0x00, exactly
when the septet count S has S mod 8 = 7. -/
def Obligations.G7RoundTripWithTrailingSeptet : Prop :=
  ∀ (c : Config) (t : List Char16) (sep : List Septet), g7Map c.params t = .ok sep →
    (sep.length % 8 ≠ 7 → g7Decode c.params (g7Pack sep) = .ok t) ∧
    (sep.length % 8 = 7 → ∃ ch, (0x00, ch) ∈ c.params.gsm7Basic ∧ g7Decode c.params (g7Pack sep) = .ok (t ++ [ch]))

/-! ## Capacity errors of the codecs (spec/60_exceptions.md) -/

/-- BCD_ENC and G7_ENC with ICLEN over P_ICHR_CAP raise CAPACITY/2 with ICLEN; BCD_DEC and G7_DEC with ILEN over P_IBUF_CAP
raise CAPACITY/1 with ILEN. STATUS and the result's length are written and nothing else (R76, R77, R88, R89, R101, R103). -/
def Obligations.CodecOperandOverrun : Prop :=
  ∀ s : State,
    (s.cfg.params.ichrCap < s.iclen.toNat → ∀ i : Instr, i = .bcdEnc ∨ i = .g7Enc →
      exec i s = .next { s with status := statusWord 5 2 true s.iclen, olen := 0 }) ∧
    (s.cfg.params.ibufCap < s.ilen.toNat → ∀ i : Instr, (∃ c, i = .bcdDec c) ∨ i = .g7Dec →
      exec i s = .next { s with status := statusWord 5 1 true s.ilen, oclen := 0 })

/-- BCD_ENC and G7_ENC whose result is longer than OBUF raise CAPACITY/3 with the result's length; OLEN is 0 (R76, R88,
R101, R103). IDX is the length's low 16 bits (log 8). -/
def Obligations.EncoderResultOverrun : Prop :=
  ∀ s : State, s.iclen.toNat ≤ s.cfg.params.ichrCap →
    ((∀ i < s.iclen.toNat, IsDigitChar (s.ichr.read .ichr i)) → s.cfg.params.obufCap < (s.iclen.toNat + 1) / 2 →
      ∃ t, exec .bcdEnc s = .next t ∧ Failed 5 3 ((s.iclen.toNat + 1) / 2) t ∧ t.olen = 0 ∧
        SameHostSide s t ∧ SameField s t ∧ SameChars s t ∧ t.res = s.res) ∧
    (∀ sep, g7Map s.cfg.params (stringOperand s) = .ok sep → s.cfg.params.obufCap < (7 * sep.length + 7) / 8 →
      ∃ t, exec .g7Enc s = .next t ∧ Failed 5 3 ((7 * sep.length + 7) / 8) t ∧ t.olen = 0 ∧
        SameHostSide s t ∧ SameField s t ∧ SameChars s t ∧ t.res = s.res)

/-! ## The address field assembler (spec/43_field.md) -/

/-- FLD_CONS completes on the digit path for every digit string of at most 38 characters with defined codes: RAW is the
header byte and the packed digits, RAWLEN is 1 + ceil(L/2) (R90, R91). No capacity can be exceeded (R13 (a)). -/
def Obligations.ConstructDigitField : Prop :=
  ∀ (nat : BitVec 3) (pln : BitVec 4) (ext : Bool) (s : State),
    let L := s.iclen.toNat
    nat ∈ s.cfg.params.natureDefined → pln ∈ s.cfg.params.planDefined → pln ≠ s.cfg.params.alnumPlan →
    L ≤ s.cfg.params.ichrCap → L ≤ 38 → (∀ i < L, IsDigitChar (s.ichr.read .ichr i)) →
    ∃ t, exec (.fldCons nat true pln true ext true) s = .next t ∧ t.rawLen.toNat = 1 + (L + 1) / 2 ∧
      (t.raw.read .raw 0).extractLsb' 0 4 = pln ∧ (t.raw.read .raw 0).extractLsb' 4 3 = nat ∧
      (t.raw.read .raw 0).getLsbD 7 = ext ∧
      (∀ j < (L + 1) / 2,
        ((t.raw.read .raw (1 + j)).extractLsb' 0 4).toNat + 0x30 = (s.ichr.read .ichr (2 * j)).toNat ∧
        (2 * j + 1 < L →
          ((t.raw.read .raw (1 + j)).extractLsb' 4 4).toNat + 0x30 = (s.ichr.read .ichr (2 * j + 1)).toNat) ∧
        (L ≤ 2 * j + 1 → (t.raw.read .raw (1 + j)).extractLsb' 4 4 = 0xF)) ∧
      SameFrom .raw (1 + (L + 1) / 2) s.raw t.raw ∧
      Succeeded s t ∧ SameHostSide s t ∧ SameBytes s t ∧ SameChars s t ∧ t.res = s.res

/-- FLD_CONS completes on the alphanumeric path for every text of the alphabet whose field fits RAW: RAW is the header byte
and the packed text. No 38-character limit (R90, R91). -/
def Obligations.ConstructAlphanumericField : Prop :=
  ∀ (nat : BitVec 3) (ext : Bool) (s : State) (sep : List Septet),
    nat ∈ s.cfg.params.natureDefined → s.iclen.toNat ≤ s.cfg.params.ichrCap →
    g7Map s.cfg.params (stringOperand s) = .ok sep → 1 + (7 * sep.length + 7) / 8 ≤ s.cfg.params.rawCap →
    ∃ t, exec (.fldCons nat true s.cfg.params.alnumPlan true ext true) s = .next t ∧
      FieldWritten (hdrEncode nat s.cfg.params.alnumPlan ext :: g7Pack sep) s t ∧
      Succeeded s t ∧ SameHostSide s t ∧ SameBytes s t ∧ SameChars s t ∧ t.res = s.res

/-- The checks of FLD_CONS on its operands, in order: absent nature, plan, address (VALIDATION/1, /2, /3), undefined nature,
plan (ILLEGAL_CMD/3, IDX 0 and 1), ICLEN over capacity (CAPACITY/2), a digit-path address over 38 (VALIDATION/4, its
length). Each writes STATUS and nothing else: the FIELD storage is kept (R91, R103, R105). That the last is VALIDATION/4,
not the /5 of one sentence of R91, is log 5. -/
def Obligations.ConstructChecksInOrder : Prop :=
  ∀ (nat : BitVec 3) (natp : Bool) (pln : BitVec 4) (plnp ext adrp : Bool) (s : State),
    let ends := fun (cause sub : BitVec 4) (idx : Nat) =>
      exec (.fldCons nat natp pln plnp ext adrp) s =
        .next { s with status := statusWord cause sub true (BitVec.ofNat 16 idx) }
    (natp = false → ends 2 1 0) ∧
    (natp = true → plnp = false → ends 2 2 0) ∧
    (natp = true → plnp = true → adrp = false → ends 2 3 0) ∧
    (natp = true → plnp = true → adrp = true → nat ∉ s.cfg.params.natureDefined → ends 1 3 0) ∧
    (natp = true → plnp = true → adrp = true → nat ∈ s.cfg.params.natureDefined → pln ∉ s.cfg.params.planDefined →
      ends 1 3 1) ∧
    (natp = true → plnp = true → adrp = true → nat ∈ s.cfg.params.natureDefined → pln ∈ s.cfg.params.planDefined →
      s.cfg.params.ichrCap < s.iclen.toNat → ends 5 2 s.iclen.toNat) ∧
    (natp = true → plnp = true → adrp = true → nat ∈ s.cfg.params.natureDefined → pln ∈ s.cfg.params.planDefined →
      s.iclen.toNat ≤ s.cfg.params.ichrCap → pln ≠ s.cfg.params.alnumPlan → 38 < s.iclen.toNat →
      ends 2 4 s.iclen.toNat)

/-- The errors of FLD_CONS's body: the first non-digit on the digit path (ENCODING/1), the first character outside the
alphabet on the alphanumeric path (ENCODING/2), a field longer than RAW (CAPACITY/4, its length). Each writes STATUS and
nothing else (R91, R103, R105). IDX is the low 16 bits of that length, which can pass 65535 in some legal configurations:
the model's choice of log 8. -/
def Obligations.ConstructBodyErrors : Prop :=
  ∀ (nat : BitVec 3) (pln : BitVec 4) (ext : Bool) (s : State),
    nat ∈ s.cfg.params.natureDefined → pln ∈ s.cfg.params.planDefined → s.iclen.toNat ≤ s.cfg.params.ichrCap →
    let ends := fun (cause sub : BitVec 4) (idx : Nat) =>
      exec (.fldCons nat true pln true ext true) s =
        .next { s with status := statusWord cause sub true (BitVec.ofNat 16 idx) }
    (∀ k < s.iclen.toNat, pln ≠ s.cfg.params.alnumPlan → s.iclen.toNat ≤ 38 →
      (∀ i < k, IsDigitChar (s.ichr.read .ichr i)) → ¬ IsDigitChar (s.ichr.read .ichr k) → ends 3 1 k) ∧
    (∀ k < s.iclen.toNat, pln = s.cfg.params.alnumPlan →
      (∀ i < k, InAlphabet s.cfg.params (s.ichr.read .ichr i)) →
      ¬ InAlphabet s.cfg.params (s.ichr.read .ichr k) → ends 3 2 k) ∧
    (∀ sep, pln = s.cfg.params.alnumPlan → g7Map s.cfg.params (stringOperand s) = .ok sep →
      s.cfg.params.rawCap < 1 + (7 * sep.length + 7) / 8 → ends 5 4 (1 + (7 * sep.length + 7) / 8))

/-- FLD_LOAD (R92): when ILEN fits IBUF and RAW, RAW is IBUF[0..ILEN) and RAWLEN is ILEN, whatever the bytes are; ILEN over
P_IBUF_CAP raises CAPACITY/1, else ILEN over P_RAW_CAP raises CAPACITY/4, each with ILEN and writing STATUS alone. The
word 0x00000011 selects it and no other. -/
def Obligations.LoadFieldStoresBytes : Prop :=
  (∀ v : Word, decode v = .ok .fldLoad ↔ v = 0x00000011) ∧
  ∀ s : State,
    (s.ilen.toNat ≤ s.cfg.params.ibufCap → s.ilen.toNat ≤ s.cfg.params.rawCap →
      ∃ t, exec .fldLoad s = .next t ∧ t.rawLen = s.ilen ∧
        (∀ i < s.ilen.toNat, t.raw.read .raw i = s.ibuf.read .ibuf i) ∧
        SameFrom .raw s.ilen.toNat s.raw t.raw ∧
        Succeeded s t ∧ SameHostSide s t ∧ SameBytes s t ∧ SameChars s t ∧ t.res = s.res) ∧
    (s.cfg.params.ibufCap < s.ilen.toNat →
      exec .fldLoad s = .next { s with status := statusWord 5 1 true s.ilen }) ∧
    (s.ilen.toNat ≤ s.cfg.params.ibufCap → s.cfg.params.rawCap < s.ilen.toNat →
      exec .fldLoad s = .next { s with status := statusWord 5 4 true s.ilen })

/-- FLD_RAW completes in every state: OBUF[0..RAWLEN) is RAW[0..RAWLEN), OLEN is RAWLEN; everything else but STATUS is
unchanged. The word 0x00000012 selects it and no other (R93). -/
def Obligations.ReadRawCopiesField : Prop :=
  (∀ v : Word, decode v = .ok .fldRaw ↔ v = 0x00000012) ∧
  ∀ s : State, ∃ t, exec .fldRaw s = .next t ∧ t.olen = s.rawLen ∧
    (∀ i < s.rawLen.toNat, t.obuf.read .obuf i = s.raw.read .raw i) ∧
    SameFrom .obuf s.rawLen.toNat s.obuf t.obuf ∧
    Succeeded s t ∧ SameHostSide s t ∧ SameField s t ∧ SameChars s t ∧ t.res = s.res

/-- FLD_NAT completes in every state: RES is NAT of RAW[0] and whether it is defined, every other bit 0; 0 when `raw` is
absent; everything else but STATUS is unchanged. The word 0x00000013 selects it and no other (R95). -/
def Obligations.NatureAccessor : Prop :=
  (∀ v : Word, decode v = .ok .fldNat ↔ v = 0x00000013) ∧
  ∀ s : State, ∃ t, exec .fldNat s = .next t ∧
    (s.rawLen = 0 → t.res = 0) ∧
    (s.rawLen ≠ 0 →
      t.res.toNat = ((s.raw.read .raw 0).extractLsb' 4 3).toNat +
        (if (s.raw.read .raw 0).extractLsb' 4 3 ∈ s.cfg.params.natureDefined then 0x200 else 0)) ∧
    Succeeded s t ∧ SameHostSide s t ∧ SameField s t ∧ SameBytes s t ∧ SameChars s t

/-- FLD_PLAN completes in every state: RES is PLN of RAW[0] and whether it is defined, every other bit 0; 0 when `raw` is
absent; everything else but STATUS is unchanged. The word 0x00000014 selects it and no other (R96). -/
def Obligations.PlanAccessor : Prop :=
  (∀ v : Word, decode v = .ok .fldPlan ↔ v = 0x00000014) ∧
  ∀ s : State, ∃ t, exec .fldPlan s = .next t ∧
    (s.rawLen = 0 → t.res = 0) ∧
    (s.rawLen ≠ 0 →
      t.res.toNat = 0x10 * ((s.raw.read .raw 0).extractLsb' 0 4).toNat +
        (if (s.raw.read .raw 0).extractLsb' 0 4 ∈ s.cfg.params.planDefined then 0x400 else 0)) ∧
    Succeeded s t ∧ SameHostSide s t ∧ SameField s t ∧ SameBytes s t ∧ SameChars s t

/-- FLD_EXT completes in every state: RES is bit 7 of RAW[0], not inverted, with EXTV 1; 0 when `raw` is absent; everything
else but STATUS is unchanged. The word 0x00000015 selects it and no other (R97). -/
def Obligations.ExtensionAccessor : Prop :=
  (∀ v : Word, decode v = .ok .fldExt ↔ v = 0x00000015) ∧
  ∀ s : State, ∃ t, exec .fldExt s = .next t ∧
    (s.rawLen = 0 → t.res = 0) ∧
    (s.rawLen ≠ 0 → t.res = if (s.raw.read .raw 0).getLsbD 7 then 0x00000900 else 0x00000800) ∧
    Succeeded s t ∧ SameHostSide s t ∧ SameField s t ∧ SameBytes s t ∧ SameChars s t

/-- FLD_ADDR on the digit path (R98, R99): with n body bytes the digit count is 2n, one fewer when the last byte's high
nibble is 0xF. When every digit position holds 0..9, OCHR is the digits, OCLEN the count and RES STRV alone; when one
does not, the result is null: RES 0, OCLEN 0, OCHR unchanged. Everything else but STATUS is unchanged. -/
def Obligations.AddressOfDigitField : Prop :=
  ∀ (s : State) (n c : Nat),
    s.rawLen.toNat = 1 + n → s.rawLen.toNat ≤ s.cfg.params.rawCap →
    (s.raw.read .raw 0).extractLsb' 0 4 ≠ s.cfg.params.alnumPlan →
    c = (if 1 ≤ n ∧ (s.raw.read .raw n).extractLsb' 4 4 = 0xF then 2 * n - 1 else 2 * n) →
    ∃ t, exec .fldAddr s = .next t ∧
      Succeeded s t ∧ SameHostSide s t ∧ SameField s t ∧ SameBytes s t ∧
      ((∀ k < c, (nibbleAt (fun j => s.raw.read .raw (1 + j)) k).toNat ≤ 9) →
        t.res = 0x00001000 ∧ t.oclen.toNat = c ∧
        (∀ k < c, (t.ochr.read .ochr k).toNat = 0x30 + (nibbleAt (fun j => s.raw.read .raw (1 + j)) k).toNat) ∧
        SameFrom .ochr c s.ochr t.ochr) ∧
      ((∃ k < c, 9 < (nibbleAt (fun j => s.raw.read .raw (1 + j)) k).toNat) →
        t.res = 0 ∧ t.oclen = 0 ∧ t.ochr = s.ochr)

/-- FLD_ADDR on the alphanumeric path (R98, R99): OCHR is the decoded text and RES STRV alone, or null when the body does not
decode: RES 0, OCLEN 0, OCHR unchanged. Everything else but STATUS is unchanged. -/
def Obligations.AddressOfAlphanumericField : Prop :=
  ∀ s : State, s.rawLen ≠ 0 → s.rawLen.toNat ≤ s.cfg.params.rawCap →
    (s.raw.read .raw 0).extractLsb' 0 4 = s.cfg.params.alnumPlan →
    ∃ t, exec .fldAddr s = .next t ∧
      Succeeded s t ∧ SameHostSide s t ∧ SameField s t ∧ SameBytes s t ∧
      (∀ r, g7Decode s.cfg.params (fieldBytes s).tail = .ok r → t.res = 0x00001000 ∧ CharsWritten r s t) ∧
      (∀ e, g7Decode s.cfg.params (fieldBytes s).tail = .error e → t.res = 0 ∧ t.oclen = 0 ∧ t.ochr = s.ochr)

/-- R94: each of the four accessors completes in every state with STATUS.CAUSE, SUB and IDX 0, leaves the FIELD storage, OBUF
and every operand alone, and gives null when `raw` is absent (R21, R100 (f)). -/
def Obligations.AccessorsNeverFail : Prop :=
  ∀ (i : Instr) (s : State), i = .fldNat ∨ i = .fldPlan ∨ i = .fldExt ∨ i = .fldAddr →
    ∃ t, exec i s = .next t ∧ Succeeded s t ∧ SameHostSide s t ∧ SameField s t ∧ SameBytes s t ∧
      (i ≠ .fldAddr → SameChars s t) ∧
      (s.rawLen = 0 → t.res = 0 ∧ (i = .fldAddr → t.oclen = 0 ∧ t.ochr = s.ochr))

/-- R100 (a): a digit string of at most 38 digits constructed on the digit path is read back by FLD_ADDR, for even and odd
lengths. -/
def Obligations.DigitFieldRoundTrip : Prop :=
  ∀ (nat : BitVec 3) (pln : BitVec 4) (ext : Bool) (s : State),
    let L := s.iclen.toNat
    nat ∈ s.cfg.params.natureDefined → pln ∈ s.cfg.params.planDefined → pln ≠ s.cfg.params.alnumPlan →
    L ≤ s.cfg.params.ichrCap → L ≤ 38 → (∀ i < L, IsDigitChar (s.ichr.read .ichr i)) →
    ∃ t u, exec (.fldCons nat true pln true ext true) s = .next t ∧ exec .fldAddr t = .next u ∧
      u.res = 0x00001000 ∧ u.oclen = s.iclen ∧ ∀ i < L, u.ochr.read .ochr i = s.ichr.read .ichr i

/-- R100 (b): a text constructed on the alphanumeric path is read back by FLD_ADDR, followed by the character of septet 0x00
exactly when the septet count S has S mod 8 = 7. -/
def Obligations.AlphanumericFieldRoundTrip : Prop :=
  ∀ (nat : BitVec 3) (ext : Bool) (s : State) (sep : List Septet),
    nat ∈ s.cfg.params.natureDefined → s.iclen.toNat ≤ s.cfg.params.ichrCap →
    g7Map s.cfg.params (stringOperand s) = .ok sep → 1 + (7 * sep.length + 7) / 8 ≤ s.cfg.params.rawCap →
    ∃ t u, exec (.fldCons nat true s.cfg.params.alnumPlan true ext true) s = .next t ∧ exec .fldAddr t = .next u ∧
      u.res = 0x00001000 ∧
      (∀ i < s.iclen.toNat, u.ochr.read .ochr i = s.ichr.read .ichr i) ∧
      (sep.length % 8 ≠ 7 → u.oclen = s.iclen) ∧
      (sep.length % 8 = 7 → u.oclen.toNat = s.iclen.toNat + 1 ∧
        (0x00, u.ochr.read .ochr s.iclen.toNat) ∈ s.cfg.params.gsm7Basic)

/-- R100 (c): the three header accessors learn nothing but RAW[0]: two states of one configuration that agree on it, both with
a field, get the same RES. FLD_ADDR reads RAW[0] only to choose the path: two fields with the same body and codes on the
same path get the same address. -/
def Obligations.HeaderIsolation : Prop :=
  ∀ s t : State, s.cfg = t.cfg → s.rawLen ≠ 0 → t.rawLen ≠ 0 →
    (s.raw.read .raw 0 = t.raw.read .raw 0 → ∀ i : Instr, i = .fldNat ∨ i = .fldPlan ∨ i = .fldExt →
      ∃ s' t', exec i s = .next s' ∧ exec i t = .next t' ∧ s'.res = t'.res) ∧
    (s.rawLen = t.rawLen → (∀ i, 1 ≤ i → i < s.rawLen.toNat → s.raw.read .raw i = t.raw.read .raw i) →
      (hdrPlan (s.raw.read .raw 0) = s.cfg.params.alnumPlan ↔ hdrPlan (t.raw.read .raw 0) = s.cfg.params.alnumPlan) →
      ∃ s' t', exec .fldAddr s = .next s' ∧ exec .fldAddr t = .next t' ∧ s'.res = t'.res ∧ s'.oclen = t'.oclen ∧
        ∀ i < s'.oclen.toNat, s'.ochr.read .ochr i = t'.ochr.read .ochr i)

/-! ## Whole-machine rules -/

/-- Every command ends, in every state, in a next state whose STATUS is success or one of the errors of R101: nothing traps,
waits or stops (R101, R106, R107, R115). -/
def Obligations.EveryCommandCompletes : Prop :=
  ∀ (i : Instr) (s : State), ∃ t, exec i s = .next t ∧ StatusLegal t.status

/-- R24: a command other than FLD_CONS and FLD_LOAD, and any command that ends in an error, leaves the FIELD storage alone.
FLD_CONS or FLD_LOAD that ends in success writes it whole: RAWLEN and RAW[0..RAWLEN) are the same whatever the FIELD
storage held before, so no byte of `raw` is kept from it; the elements from RAWLEN on are as they were. -/
def Obligations.FieldWrittenWholeOrNotAtAll : Prop :=
  ∀ (i : Instr) (s t : State), exec i s = .next t →
    (i.writesField = false ∨ statusCause t.status ≠ 0 → SameField s t) ∧
    (i.writesField = true → statusCause t.status = 0 →
      SameFrom .raw t.rawLen.toNat s.raw t.raw ∧
      ∀ (before : Memory 8) (len : BitVec 16), ∃ u,
        exec i { s with raw := before, rawLen := len } = .next u ∧ u.status = t.status ∧ u.rawLen = t.rawLen ∧
        ∀ k < t.rawLen.toNat, u.raw.read .raw k = t.raw.read .raw k)

/-- A command that reports an error changes STATUS, the length of its own result (0) and elements beyond it, and nothing
else; the FIELD storage is kept (R103, R106). Of the elements that a failed codec may have written nothing is said
(log 4). -/
def Obligations.ErrorLeavesStateButReport : Prop :=
  ∀ (i : Instr) (s t : State), exec i s = .next t → statusCause t.status ≠ 0 →
    statusSticky t.status = true ∧ SameHostSide s t ∧ SameField s t ∧ t.res = s.res ∧
    (i = .bcdEnc ∨ i = .g7Enc → t.olen = 0 ∧ SameChars s t) ∧
    ((∃ c, i = .bcdDec c) ∨ i = .g7Dec → t.oclen = 0 ∧ SameBytes s t) ∧
    (i ≠ .bcdEnc → i ≠ .g7Enc → (∀ c, i ≠ .bcdDec c) → i ≠ .g7Dec → t = { s with status := t.status })

/-- R104: STICKY, once set, stays set through every step but an access to the reset input; every error, of a command or of an
illegal word, sets it; and each command overwrites CAUSE, SUB and IDX, whatever they were. -/
def Obligations.StickyClearedOnlyByReset : Prop :=
  (∀ s t : State, step s = .next t → statusSticky s.status = true →
    statusSticky t.status = true ∨ (∃ rest, s.pending = .assertReset :: rest) ∨
    ∃ rest, s.pending = .releaseReset :: rest) ∧
  (∀ (v : Word) (s t : State), execute v s = .next t → statusCause t.status ≠ 0 → statusSticky t.status = true) ∧
  (∀ (v : Word) (s : State) (before : Word), ∃ t u,
    execute v s = .next t ∧ execute v { s with status := before } = .next u ∧
    statusCause t.status = statusCause u.status ∧ statusSub t.status = statusSub u.status ∧
    statusIdx t.status = statusIdx u.status)

/-- 10_state.md, section 1, and R38: which commands write what. No command writes CMD, the operand buffers, their lengths or
the configuration (R31); RES is written only by HDR_DEC and the four accessors; OBUF and OLEN only by HDR_ENC, BCD_ENC,
G7_ENC and FLD_RAW; OCHR and OCLEN only by BCD_DEC, G7_DEC and FLD_ADDR. -/
def Obligations.CommandsWriteOnlyTheirResults : Prop :=
  ∀ (i : Instr) (s t : State), exec i s = .next t →
    SameHostSide s t ∧
    (t.res = s.res ∨ (∃ b, i = .hdrDec b) ∨ i = .fldNat ∨ i = .fldPlan ∨ i = .fldExt ∨ i = .fldAddr) ∧
    (SameBytes s t ∨ (∃ nat pln ext, i = .hdrEnc nat pln ext) ∨ i = .bcdEnc ∨ i = .g7Enc ∨ i = .fldRaw) ∧
    (SameChars s t ∨ (∃ c, i = .bcdDec c) ∨ i = .g7Dec ∨ i = .fldAddr)

/-- The frame of the element stores (R35): a command that ends in success leaves every element of OBUF from OLEN on, of OCHR
from OCLEN on and of RAW from RAWLEN on as it was; and a store that is not among those its rule writes (10_state.md,
section 1) is left as it was whole, IBUF and ICHR by every command. -/
def Obligations.SuccessKeepsElementsBeyondLength : Prop :=
  ∀ (i : Instr) (s t : State), s.rawLen.toNat ≤ s.cfg.params.rawCap →
    exec i s = .next t → statusCause t.status = 0 →
    SameFrom .obuf t.olen.toNat s.obuf t.obuf ∧ SameFrom .ochr t.oclen.toNat s.ochr t.ochr ∧
    SameFrom .raw t.rawLen.toNat s.raw t.raw ∧ t.ibuf = s.ibuf ∧ t.ichr = s.ichr ∧
    (i.writesBytes = false → t.obuf = s.obuf) ∧ (i.writesChars = false → t.ochr = s.ochr) ∧
    (i.writesField = false → t.raw = s.raw)

/-- R111, R116: only host accesses change the machine, and the configuration never changes: with no access left a step changes
nothing, and every step keeps the configuration. `pending` and `reads` are the model's (log 2), `cfg` is log 3. -/
def Obligations.OnlyAccessesChangeTheMachine : Prop :=
  ∀ s : State, (s.pending = [] → step s = .next s) ∧
    ∃ t, step s = .next t ∧ t.cfg = s.cfg ∧ t.pending = s.pending.tail ∧
      ((∃ v, t.reads = s.reads ++ [v]) ∨ t.reads = s.reads)
end

