-- ==== Sys2Proof/Laws/State.lean ====
section
/-! SUPPORT. One lemma per field per update of the state: what each named operation of the machine leaves in each field. -/

namespace Sys2Proof.Machine

/-! ### putBytes: writing a byte result -/

@[simp] theorem putBytes_cfg (bs : List Byte) (s : State) : (putBytes bs s).cfg = s.cfg := rfl
@[simp] theorem putBytes_raw (bs : List Byte) (s : State) : (putBytes bs s).raw = s.raw := rfl
@[simp] theorem putBytes_rawLen (bs : List Byte) (s : State) : (putBytes bs s).rawLen = s.rawLen := rfl
@[simp] theorem putBytes_ibuf (bs : List Byte) (s : State) : (putBytes bs s).ibuf = s.ibuf := rfl
@[simp] theorem putBytes_ilen (bs : List Byte) (s : State) : (putBytes bs s).ilen = s.ilen := rfl
@[simp] theorem putBytes_ichr (bs : List Byte) (s : State) : (putBytes bs s).ichr = s.ichr := rfl
@[simp] theorem putBytes_iclen (bs : List Byte) (s : State) : (putBytes bs s).iclen = s.iclen := rfl
@[simp] theorem putBytes_obuf (bs : List Byte) (s : State) : (putBytes bs s).obuf = s.obuf.writePrefix bs := rfl
@[simp] theorem putBytes_olen (bs : List Byte) (s : State) : (putBytes bs s).olen = BitVec.ofNat 16 bs.length := rfl
@[simp] theorem putBytes_ochr (bs : List Byte) (s : State) : (putBytes bs s).ochr = s.ochr := rfl
@[simp] theorem putBytes_oclen (bs : List Byte) (s : State) : (putBytes bs s).oclen = s.oclen := rfl
@[simp] theorem putBytes_res (bs : List Byte) (s : State) : (putBytes bs s).res = s.res := rfl
@[simp] theorem putBytes_status (bs : List Byte) (s : State) : (putBytes bs s).status = s.status := rfl
@[simp] theorem putBytes_cmd (bs : List Byte) (s : State) : (putBytes bs s).cmd = s.cmd := rfl
@[simp] theorem putBytes_resetLine (bs : List Byte) (s : State) : (putBytes bs s).resetLine = s.resetLine := rfl
@[simp] theorem putBytes_pending (bs : List Byte) (s : State) : (putBytes bs s).pending = s.pending := rfl
@[simp] theorem putBytes_reads (bs : List Byte) (s : State) : (putBytes bs s).reads = s.reads := rfl

/-! ### putChars: writing a string result -/

@[simp] theorem putChars_cfg (cs : List Char16) (s : State) : (putChars cs s).cfg = s.cfg := rfl
@[simp] theorem putChars_raw (cs : List Char16) (s : State) : (putChars cs s).raw = s.raw := rfl
@[simp] theorem putChars_rawLen (cs : List Char16) (s : State) : (putChars cs s).rawLen = s.rawLen := rfl
@[simp] theorem putChars_ibuf (cs : List Char16) (s : State) : (putChars cs s).ibuf = s.ibuf := rfl
@[simp] theorem putChars_ilen (cs : List Char16) (s : State) : (putChars cs s).ilen = s.ilen := rfl
@[simp] theorem putChars_ichr (cs : List Char16) (s : State) : (putChars cs s).ichr = s.ichr := rfl
@[simp] theorem putChars_iclen (cs : List Char16) (s : State) : (putChars cs s).iclen = s.iclen := rfl
@[simp] theorem putChars_obuf (cs : List Char16) (s : State) : (putChars cs s).obuf = s.obuf := rfl
@[simp] theorem putChars_olen (cs : List Char16) (s : State) : (putChars cs s).olen = s.olen := rfl
@[simp] theorem putChars_ochr (cs : List Char16) (s : State) : (putChars cs s).ochr = s.ochr.writePrefix cs := rfl
@[simp] theorem putChars_oclen (cs : List Char16) (s : State) : (putChars cs s).oclen = BitVec.ofNat 16 cs.length := rfl
@[simp] theorem putChars_res (cs : List Char16) (s : State) : (putChars cs s).res = s.res := rfl
@[simp] theorem putChars_status (cs : List Char16) (s : State) : (putChars cs s).status = s.status := rfl
@[simp] theorem putChars_cmd (cs : List Char16) (s : State) : (putChars cs s).cmd = s.cmd := rfl
@[simp] theorem putChars_resetLine (cs : List Char16) (s : State) : (putChars cs s).resetLine = s.resetLine := rfl
@[simp] theorem putChars_pending (cs : List Char16) (s : State) : (putChars cs s).pending = s.pending := rfl
@[simp] theorem putChars_reads (cs : List Char16) (s : State) : (putChars cs s).reads = s.reads := rfl

/-! ### putField: replacing the FIELD storage -/

@[simp] theorem putField_cfg (bs : List Byte) (s : State) : (putField bs s).cfg = s.cfg := rfl
@[simp] theorem putField_raw (bs : List Byte) (s : State) : (putField bs s).raw = s.raw.writePrefix bs := rfl
@[simp] theorem putField_rawLen (bs : List Byte) (s : State) : (putField bs s).rawLen = BitVec.ofNat 16 bs.length := rfl
@[simp] theorem putField_ibuf (bs : List Byte) (s : State) : (putField bs s).ibuf = s.ibuf := rfl
@[simp] theorem putField_ilen (bs : List Byte) (s : State) : (putField bs s).ilen = s.ilen := rfl
@[simp] theorem putField_ichr (bs : List Byte) (s : State) : (putField bs s).ichr = s.ichr := rfl
@[simp] theorem putField_iclen (bs : List Byte) (s : State) : (putField bs s).iclen = s.iclen := rfl
@[simp] theorem putField_obuf (bs : List Byte) (s : State) : (putField bs s).obuf = s.obuf := rfl
@[simp] theorem putField_olen (bs : List Byte) (s : State) : (putField bs s).olen = s.olen := rfl
@[simp] theorem putField_ochr (bs : List Byte) (s : State) : (putField bs s).ochr = s.ochr := rfl
@[simp] theorem putField_oclen (bs : List Byte) (s : State) : (putField bs s).oclen = s.oclen := rfl
@[simp] theorem putField_res (bs : List Byte) (s : State) : (putField bs s).res = s.res := rfl
@[simp] theorem putField_status (bs : List Byte) (s : State) : (putField bs s).status = s.status := rfl
@[simp] theorem putField_cmd (bs : List Byte) (s : State) : (putField bs s).cmd = s.cmd := rfl
@[simp] theorem putField_resetLine (bs : List Byte) (s : State) : (putField bs s).resetLine = s.resetLine := rfl
@[simp] theorem putField_pending (bs : List Byte) (s : State) : (putField bs s).pending = s.pending := rfl
@[simp] theorem putField_reads (bs : List Byte) (s : State) : (putField bs s).reads = s.reads := rfl

/-! ### putRes: writing RES -/

@[simp] theorem putRes_cfg (v : Word) (s : State) : (putRes v s).cfg = s.cfg := rfl
@[simp] theorem putRes_raw (v : Word) (s : State) : (putRes v s).raw = s.raw := rfl
@[simp] theorem putRes_rawLen (v : Word) (s : State) : (putRes v s).rawLen = s.rawLen := rfl
@[simp] theorem putRes_ibuf (v : Word) (s : State) : (putRes v s).ibuf = s.ibuf := rfl
@[simp] theorem putRes_ilen (v : Word) (s : State) : (putRes v s).ilen = s.ilen := rfl
@[simp] theorem putRes_ichr (v : Word) (s : State) : (putRes v s).ichr = s.ichr := rfl
@[simp] theorem putRes_iclen (v : Word) (s : State) : (putRes v s).iclen = s.iclen := rfl
@[simp] theorem putRes_obuf (v : Word) (s : State) : (putRes v s).obuf = s.obuf := rfl
@[simp] theorem putRes_olen (v : Word) (s : State) : (putRes v s).olen = s.olen := rfl
@[simp] theorem putRes_ochr (v : Word) (s : State) : (putRes v s).ochr = s.ochr := rfl
@[simp] theorem putRes_oclen (v : Word) (s : State) : (putRes v s).oclen = s.oclen := rfl
@[simp] theorem putRes_res (v : Word) (s : State) : (putRes v s).res = v := rfl
@[simp] theorem putRes_status (v : Word) (s : State) : (putRes v s).status = s.status := rfl
@[simp] theorem putRes_cmd (v : Word) (s : State) : (putRes v s).cmd = s.cmd := rfl
@[simp] theorem putRes_resetLine (v : Word) (s : State) : (putRes v s).resetLine = s.resetLine := rfl
@[simp] theorem putRes_pending (v : Word) (s : State) : (putRes v s).pending = s.pending := rfl
@[simp] theorem putRes_reads (v : Word) (s : State) : (putRes v s).reads = s.reads := rfl

/-! ### clearChars: clearing OCLEN -/

@[simp] theorem clearChars_cfg (s : State) : (clearChars s).cfg = s.cfg := rfl
@[simp] theorem clearChars_raw (s : State) : (clearChars s).raw = s.raw := rfl
@[simp] theorem clearChars_rawLen (s : State) : (clearChars s).rawLen = s.rawLen := rfl
@[simp] theorem clearChars_ibuf (s : State) : (clearChars s).ibuf = s.ibuf := rfl
@[simp] theorem clearChars_ilen (s : State) : (clearChars s).ilen = s.ilen := rfl
@[simp] theorem clearChars_ichr (s : State) : (clearChars s).ichr = s.ichr := rfl
@[simp] theorem clearChars_iclen (s : State) : (clearChars s).iclen = s.iclen := rfl
@[simp] theorem clearChars_obuf (s : State) : (clearChars s).obuf = s.obuf := rfl
@[simp] theorem clearChars_olen (s : State) : (clearChars s).olen = s.olen := rfl
@[simp] theorem clearChars_ochr (s : State) : (clearChars s).ochr = s.ochr := rfl
@[simp] theorem clearChars_oclen (s : State) : (clearChars s).oclen = 0 := rfl
@[simp] theorem clearChars_res (s : State) : (clearChars s).res = s.res := rfl
@[simp] theorem clearChars_status (s : State) : (clearChars s).status = s.status := rfl
@[simp] theorem clearChars_cmd (s : State) : (clearChars s).cmd = s.cmd := rfl
@[simp] theorem clearChars_resetLine (s : State) : (clearChars s).resetLine = s.resetLine := rfl
@[simp] theorem clearChars_pending (s : State) : (clearChars s).pending = s.pending := rfl
@[simp] theorem clearChars_reads (s : State) : (clearChars s).reads = s.reads := rfl

/-! ### complete: completing -/

@[simp] theorem complete_cfg (s : State) : (complete s).cfg = s.cfg := rfl
@[simp] theorem complete_raw (s : State) : (complete s).raw = s.raw := rfl
@[simp] theorem complete_rawLen (s : State) : (complete s).rawLen = s.rawLen := rfl
@[simp] theorem complete_ibuf (s : State) : (complete s).ibuf = s.ibuf := rfl
@[simp] theorem complete_ilen (s : State) : (complete s).ilen = s.ilen := rfl
@[simp] theorem complete_ichr (s : State) : (complete s).ichr = s.ichr := rfl
@[simp] theorem complete_iclen (s : State) : (complete s).iclen = s.iclen := rfl
@[simp] theorem complete_obuf (s : State) : (complete s).obuf = s.obuf := rfl
@[simp] theorem complete_olen (s : State) : (complete s).olen = s.olen := rfl
@[simp] theorem complete_ochr (s : State) : (complete s).ochr = s.ochr := rfl
@[simp] theorem complete_oclen (s : State) : (complete s).oclen = s.oclen := rfl
@[simp] theorem complete_res (s : State) : (complete s).res = s.res := rfl
@[simp] theorem complete_status (s : State) : (complete s).status = statusAfterSuccess s.status := rfl
@[simp] theorem complete_cmd (s : State) : (complete s).cmd = s.cmd := rfl
@[simp] theorem complete_resetLine (s : State) : (complete s).resetLine = s.resetLine := rfl
@[simp] theorem complete_pending (s : State) : (complete s).pending = s.pending := rfl
@[simp] theorem complete_reads (s : State) : (complete s).reads = s.reads := rfl

/-! ### raise: raising an error -/

@[simp] theorem raise_cfg (e : AfcError) (s : State) : (raise e s).cfg = s.cfg := rfl
@[simp] theorem raise_raw (e : AfcError) (s : State) : (raise e s).raw = s.raw := rfl
@[simp] theorem raise_rawLen (e : AfcError) (s : State) : (raise e s).rawLen = s.rawLen := rfl
@[simp] theorem raise_ibuf (e : AfcError) (s : State) : (raise e s).ibuf = s.ibuf := rfl
@[simp] theorem raise_ilen (e : AfcError) (s : State) : (raise e s).ilen = s.ilen := rfl
@[simp] theorem raise_ichr (e : AfcError) (s : State) : (raise e s).ichr = s.ichr := rfl
@[simp] theorem raise_iclen (e : AfcError) (s : State) : (raise e s).iclen = s.iclen := rfl
@[simp] theorem raise_obuf (e : AfcError) (s : State) : (raise e s).obuf = s.obuf := rfl
@[simp] theorem raise_olen (e : AfcError) (s : State) : (raise e s).olen = s.olen := rfl
@[simp] theorem raise_ochr (e : AfcError) (s : State) : (raise e s).ochr = s.ochr := rfl
@[simp] theorem raise_oclen (e : AfcError) (s : State) : (raise e s).oclen = s.oclen := rfl
@[simp] theorem raise_res (e : AfcError) (s : State) : (raise e s).res = s.res := rfl
@[simp] theorem raise_status (e : AfcError) (s : State) : (raise e s).status = statusAfterError e := rfl
@[simp] theorem raise_cmd (e : AfcError) (s : State) : (raise e s).cmd = s.cmd := rfl
@[simp] theorem raise_resetLine (e : AfcError) (s : State) : (raise e s).resetLine = s.resetLine := rfl
@[simp] theorem raise_pending (e : AfcError) (s : State) : (raise e s).pending = s.pending := rfl
@[simp] theorem raise_reads (e : AfcError) (s : State) : (raise e s).reads = s.reads := rfl

/-! ### raiseEncoder: an encoder's operand error -/

@[simp] theorem raiseEncoder_cfg (e : AfcError) (s : State) : (raiseEncoder e s).cfg = s.cfg := rfl
@[simp] theorem raiseEncoder_raw (e : AfcError) (s : State) : (raiseEncoder e s).raw = s.raw := rfl
@[simp] theorem raiseEncoder_rawLen (e : AfcError) (s : State) : (raiseEncoder e s).rawLen = s.rawLen := rfl
@[simp] theorem raiseEncoder_ibuf (e : AfcError) (s : State) : (raiseEncoder e s).ibuf = s.ibuf := rfl
@[simp] theorem raiseEncoder_ilen (e : AfcError) (s : State) : (raiseEncoder e s).ilen = s.ilen := rfl
@[simp] theorem raiseEncoder_ichr (e : AfcError) (s : State) : (raiseEncoder e s).ichr = s.ichr := rfl
@[simp] theorem raiseEncoder_iclen (e : AfcError) (s : State) : (raiseEncoder e s).iclen = s.iclen := rfl
@[simp] theorem raiseEncoder_obuf (e : AfcError) (s : State) : (raiseEncoder e s).obuf = s.obuf := rfl
@[simp] theorem raiseEncoder_olen (e : AfcError) (s : State) : (raiseEncoder e s).olen = 0 := rfl
@[simp] theorem raiseEncoder_ochr (e : AfcError) (s : State) : (raiseEncoder e s).ochr = s.ochr := rfl
@[simp] theorem raiseEncoder_oclen (e : AfcError) (s : State) : (raiseEncoder e s).oclen = s.oclen := rfl
@[simp] theorem raiseEncoder_res (e : AfcError) (s : State) : (raiseEncoder e s).res = s.res := rfl
@[simp] theorem raiseEncoder_status (e : AfcError) (s : State) : (raiseEncoder e s).status = statusAfterError e := rfl
@[simp] theorem raiseEncoder_cmd (e : AfcError) (s : State) : (raiseEncoder e s).cmd = s.cmd := rfl
@[simp] theorem raiseEncoder_resetLine (e : AfcError) (s : State) : (raiseEncoder e s).resetLine = s.resetLine := rfl
@[simp] theorem raiseEncoder_pending (e : AfcError) (s : State) : (raiseEncoder e s).pending = s.pending := rfl
@[simp] theorem raiseEncoder_reads (e : AfcError) (s : State) : (raiseEncoder e s).reads = s.reads := rfl

/-! ### raiseDecoder: a decoder's operand error -/

@[simp] theorem raiseDecoder_cfg (e : AfcError) (s : State) : (raiseDecoder e s).cfg = s.cfg := rfl
@[simp] theorem raiseDecoder_raw (e : AfcError) (s : State) : (raiseDecoder e s).raw = s.raw := rfl
@[simp] theorem raiseDecoder_rawLen (e : AfcError) (s : State) : (raiseDecoder e s).rawLen = s.rawLen := rfl
@[simp] theorem raiseDecoder_ibuf (e : AfcError) (s : State) : (raiseDecoder e s).ibuf = s.ibuf := rfl
@[simp] theorem raiseDecoder_ilen (e : AfcError) (s : State) : (raiseDecoder e s).ilen = s.ilen := rfl
@[simp] theorem raiseDecoder_ichr (e : AfcError) (s : State) : (raiseDecoder e s).ichr = s.ichr := rfl
@[simp] theorem raiseDecoder_iclen (e : AfcError) (s : State) : (raiseDecoder e s).iclen = s.iclen := rfl
@[simp] theorem raiseDecoder_obuf (e : AfcError) (s : State) : (raiseDecoder e s).obuf = s.obuf := rfl
@[simp] theorem raiseDecoder_olen (e : AfcError) (s : State) : (raiseDecoder e s).olen = s.olen := rfl
@[simp] theorem raiseDecoder_ochr (e : AfcError) (s : State) : (raiseDecoder e s).ochr = s.ochr := rfl
@[simp] theorem raiseDecoder_oclen (e : AfcError) (s : State) : (raiseDecoder e s).oclen = 0 := rfl
@[simp] theorem raiseDecoder_res (e : AfcError) (s : State) : (raiseDecoder e s).res = s.res := rfl
@[simp] theorem raiseDecoder_status (e : AfcError) (s : State) : (raiseDecoder e s).status = statusAfterError e := rfl
@[simp] theorem raiseDecoder_cmd (e : AfcError) (s : State) : (raiseDecoder e s).cmd = s.cmd := rfl
@[simp] theorem raiseDecoder_resetLine (e : AfcError) (s : State) : (raiseDecoder e s).resetLine = s.resetLine := rfl
@[simp] theorem raiseDecoder_pending (e : AfcError) (s : State) : (raiseDecoder e s).pending = s.pending := rfl
@[simp] theorem raiseDecoder_reads (e : AfcError) (s : State) : (raiseDecoder e s).reads = s.reads := rfl

/-! ### raiseEncoded: an encoder's codec or result error -/

@[simp] theorem raiseEncoded_cfg (e : AfcError) (s : State) : (raiseEncoded e s).cfg = s.cfg := rfl
@[simp] theorem raiseEncoded_raw (e : AfcError) (s : State) : (raiseEncoded e s).raw = s.raw := rfl
@[simp] theorem raiseEncoded_rawLen (e : AfcError) (s : State) : (raiseEncoded e s).rawLen = s.rawLen := rfl
@[simp] theorem raiseEncoded_ibuf (e : AfcError) (s : State) : (raiseEncoded e s).ibuf = s.ibuf := rfl
@[simp] theorem raiseEncoded_ilen (e : AfcError) (s : State) : (raiseEncoded e s).ilen = s.ilen := rfl
@[simp] theorem raiseEncoded_ichr (e : AfcError) (s : State) : (raiseEncoded e s).ichr = s.ichr := rfl
@[simp] theorem raiseEncoded_iclen (e : AfcError) (s : State) : (raiseEncoded e s).iclen = s.iclen := rfl
@[simp] theorem raiseEncoded_obuf (e : AfcError) (s : State) : (raiseEncoded e s).obuf = s.obuf.forget := rfl
@[simp] theorem raiseEncoded_olen (e : AfcError) (s : State) : (raiseEncoded e s).olen = 0 := rfl
@[simp] theorem raiseEncoded_ochr (e : AfcError) (s : State) : (raiseEncoded e s).ochr = s.ochr := rfl
@[simp] theorem raiseEncoded_oclen (e : AfcError) (s : State) : (raiseEncoded e s).oclen = s.oclen := rfl
@[simp] theorem raiseEncoded_res (e : AfcError) (s : State) : (raiseEncoded e s).res = s.res := rfl
@[simp] theorem raiseEncoded_status (e : AfcError) (s : State) : (raiseEncoded e s).status = statusAfterError e := rfl
@[simp] theorem raiseEncoded_cmd (e : AfcError) (s : State) : (raiseEncoded e s).cmd = s.cmd := rfl
@[simp] theorem raiseEncoded_resetLine (e : AfcError) (s : State) : (raiseEncoded e s).resetLine = s.resetLine := rfl
@[simp] theorem raiseEncoded_pending (e : AfcError) (s : State) : (raiseEncoded e s).pending = s.pending := rfl
@[simp] theorem raiseEncoded_reads (e : AfcError) (s : State) : (raiseEncoded e s).reads = s.reads := rfl

/-! ### raiseDecoded: a decoder's codec error -/

@[simp] theorem raiseDecoded_cfg (e : AfcError) (s : State) : (raiseDecoded e s).cfg = s.cfg := rfl
@[simp] theorem raiseDecoded_raw (e : AfcError) (s : State) : (raiseDecoded e s).raw = s.raw := rfl
@[simp] theorem raiseDecoded_rawLen (e : AfcError) (s : State) : (raiseDecoded e s).rawLen = s.rawLen := rfl
@[simp] theorem raiseDecoded_ibuf (e : AfcError) (s : State) : (raiseDecoded e s).ibuf = s.ibuf := rfl
@[simp] theorem raiseDecoded_ilen (e : AfcError) (s : State) : (raiseDecoded e s).ilen = s.ilen := rfl
@[simp] theorem raiseDecoded_ichr (e : AfcError) (s : State) : (raiseDecoded e s).ichr = s.ichr := rfl
@[simp] theorem raiseDecoded_iclen (e : AfcError) (s : State) : (raiseDecoded e s).iclen = s.iclen := rfl
@[simp] theorem raiseDecoded_obuf (e : AfcError) (s : State) : (raiseDecoded e s).obuf = s.obuf := rfl
@[simp] theorem raiseDecoded_olen (e : AfcError) (s : State) : (raiseDecoded e s).olen = s.olen := rfl
@[simp] theorem raiseDecoded_ochr (e : AfcError) (s : State) : (raiseDecoded e s).ochr = s.ochr.forget := rfl
@[simp] theorem raiseDecoded_oclen (e : AfcError) (s : State) : (raiseDecoded e s).oclen = 0 := rfl
@[simp] theorem raiseDecoded_res (e : AfcError) (s : State) : (raiseDecoded e s).res = s.res := rfl
@[simp] theorem raiseDecoded_status (e : AfcError) (s : State) : (raiseDecoded e s).status = statusAfterError e := rfl
@[simp] theorem raiseDecoded_cmd (e : AfcError) (s : State) : (raiseDecoded e s).cmd = s.cmd := rfl
@[simp] theorem raiseDecoded_resetLine (e : AfcError) (s : State) : (raiseDecoded e s).resetLine = s.resetLine := rfl
@[simp] theorem raiseDecoded_pending (e : AfcError) (s : State) : (raiseDecoded e s).pending = s.pending := rfl
@[simp] theorem raiseDecoded_reads (e : AfcError) (s : State) : (raiseDecoded e s).reads = s.reads := rfl

/-! ### resultCommand: a command that writes RES -/

@[simp] theorem resultCommand_cfg (v : Word) (s : State) : (resultCommand v s).cfg = s.cfg := rfl
@[simp] theorem resultCommand_raw (v : Word) (s : State) : (resultCommand v s).raw = s.raw := rfl
@[simp] theorem resultCommand_rawLen (v : Word) (s : State) : (resultCommand v s).rawLen = s.rawLen := rfl
@[simp] theorem resultCommand_ibuf (v : Word) (s : State) : (resultCommand v s).ibuf = s.ibuf := rfl
@[simp] theorem resultCommand_ilen (v : Word) (s : State) : (resultCommand v s).ilen = s.ilen := rfl
@[simp] theorem resultCommand_ichr (v : Word) (s : State) : (resultCommand v s).ichr = s.ichr := rfl
@[simp] theorem resultCommand_iclen (v : Word) (s : State) : (resultCommand v s).iclen = s.iclen := rfl
@[simp] theorem resultCommand_obuf (v : Word) (s : State) : (resultCommand v s).obuf = s.obuf := rfl
@[simp] theorem resultCommand_olen (v : Word) (s : State) : (resultCommand v s).olen = s.olen := rfl
@[simp] theorem resultCommand_ochr (v : Word) (s : State) : (resultCommand v s).ochr = s.ochr := rfl
@[simp] theorem resultCommand_oclen (v : Word) (s : State) : (resultCommand v s).oclen = s.oclen := rfl
@[simp] theorem resultCommand_res (v : Word) (s : State) : (resultCommand v s).res = v := rfl
@[simp] theorem resultCommand_status (v : Word) (s : State) : (resultCommand v s).status = statusAfterSuccess s.status := rfl
@[simp] theorem resultCommand_cmd (v : Word) (s : State) : (resultCommand v s).cmd = s.cmd := rfl
@[simp] theorem resultCommand_resetLine (v : Word) (s : State) : (resultCommand v s).resetLine = s.resetLine := rfl
@[simp] theorem resultCommand_pending (v : Word) (s : State) : (resultCommand v s).pending = s.pending := rfl
@[simp] theorem resultCommand_reads (v : Word) (s : State) : (resultCommand v s).reads = s.reads := rfl

/-! ### recordRead: recording a read -/

@[simp] theorem recordRead_cfg (v : Word) (s : State) : (recordRead v s).cfg = s.cfg := rfl
@[simp] theorem recordRead_raw (v : Word) (s : State) : (recordRead v s).raw = s.raw := rfl
@[simp] theorem recordRead_rawLen (v : Word) (s : State) : (recordRead v s).rawLen = s.rawLen := rfl
@[simp] theorem recordRead_ibuf (v : Word) (s : State) : (recordRead v s).ibuf = s.ibuf := rfl
@[simp] theorem recordRead_ilen (v : Word) (s : State) : (recordRead v s).ilen = s.ilen := rfl
@[simp] theorem recordRead_ichr (v : Word) (s : State) : (recordRead v s).ichr = s.ichr := rfl
@[simp] theorem recordRead_iclen (v : Word) (s : State) : (recordRead v s).iclen = s.iclen := rfl
@[simp] theorem recordRead_obuf (v : Word) (s : State) : (recordRead v s).obuf = s.obuf := rfl
@[simp] theorem recordRead_olen (v : Word) (s : State) : (recordRead v s).olen = s.olen := rfl
@[simp] theorem recordRead_ochr (v : Word) (s : State) : (recordRead v s).ochr = s.ochr := rfl
@[simp] theorem recordRead_oclen (v : Word) (s : State) : (recordRead v s).oclen = s.oclen := rfl
@[simp] theorem recordRead_res (v : Word) (s : State) : (recordRead v s).res = s.res := rfl
@[simp] theorem recordRead_status (v : Word) (s : State) : (recordRead v s).status = s.status := rfl
@[simp] theorem recordRead_cmd (v : Word) (s : State) : (recordRead v s).cmd = s.cmd := rfl
@[simp] theorem recordRead_resetLine (v : Word) (s : State) : (recordRead v s).resetLine = s.resetLine := rfl
@[simp] theorem recordRead_pending (v : Word) (s : State) : (recordRead v s).pending = s.pending := rfl
@[simp] theorem recordRead_reads (v : Word) (s : State) : (recordRead v s).reads = s.reads ++ [v] := rfl

/-! ### issue: issuing accesses -/

@[simp] theorem issue_cfg (l : List HostAccess) (s : State) : (issue l s).cfg = s.cfg := rfl
@[simp] theorem issue_raw (l : List HostAccess) (s : State) : (issue l s).raw = s.raw := rfl
@[simp] theorem issue_rawLen (l : List HostAccess) (s : State) : (issue l s).rawLen = s.rawLen := rfl
@[simp] theorem issue_ibuf (l : List HostAccess) (s : State) : (issue l s).ibuf = s.ibuf := rfl
@[simp] theorem issue_ilen (l : List HostAccess) (s : State) : (issue l s).ilen = s.ilen := rfl
@[simp] theorem issue_ichr (l : List HostAccess) (s : State) : (issue l s).ichr = s.ichr := rfl
@[simp] theorem issue_iclen (l : List HostAccess) (s : State) : (issue l s).iclen = s.iclen := rfl
@[simp] theorem issue_obuf (l : List HostAccess) (s : State) : (issue l s).obuf = s.obuf := rfl
@[simp] theorem issue_olen (l : List HostAccess) (s : State) : (issue l s).olen = s.olen := rfl
@[simp] theorem issue_ochr (l : List HostAccess) (s : State) : (issue l s).ochr = s.ochr := rfl
@[simp] theorem issue_oclen (l : List HostAccess) (s : State) : (issue l s).oclen = s.oclen := rfl
@[simp] theorem issue_res (l : List HostAccess) (s : State) : (issue l s).res = s.res := rfl
@[simp] theorem issue_status (l : List HostAccess) (s : State) : (issue l s).status = s.status := rfl
@[simp] theorem issue_cmd (l : List HostAccess) (s : State) : (issue l s).cmd = s.cmd := rfl
@[simp] theorem issue_resetLine (l : List HostAccess) (s : State) : (issue l s).resetLine = s.resetLine := rfl
@[simp] theorem issue_pending (l : List HostAccess) (s : State) : (issue l s).pending = s.pending ++ l := rfl
@[simp] theorem issue_reads (l : List HostAccess) (s : State) : (issue l s).reads = s.reads := rfl

/-! ### resetTo: reset -/

@[simp] theorem resetTo_cfg (line : Bool) (s : State) : (resetTo line s).cfg = s.cfg := rfl
@[simp] theorem resetTo_raw (line : Bool) (s : State) : (resetTo line s).raw = s.raw.forget := rfl
@[simp] theorem resetTo_rawLen (line : Bool) (s : State) : (resetTo line s).rawLen = 0 := rfl
@[simp] theorem resetTo_ibuf (line : Bool) (s : State) : (resetTo line s).ibuf = s.ibuf.forget := rfl
@[simp] theorem resetTo_ilen (line : Bool) (s : State) : (resetTo line s).ilen = 0 := rfl
@[simp] theorem resetTo_ichr (line : Bool) (s : State) : (resetTo line s).ichr = s.ichr.forget := rfl
@[simp] theorem resetTo_iclen (line : Bool) (s : State) : (resetTo line s).iclen = 0 := rfl
@[simp] theorem resetTo_obuf (line : Bool) (s : State) : (resetTo line s).obuf = s.obuf.forget := rfl
@[simp] theorem resetTo_olen (line : Bool) (s : State) : (resetTo line s).olen = 0 := rfl
@[simp] theorem resetTo_ochr (line : Bool) (s : State) : (resetTo line s).ochr = s.ochr.forget := rfl
@[simp] theorem resetTo_oclen (line : Bool) (s : State) : (resetTo line s).oclen = 0 := rfl
@[simp] theorem resetTo_res (line : Bool) (s : State) : (resetTo line s).res = 0 := rfl
@[simp] theorem resetTo_status (line : Bool) (s : State) : (resetTo line s).status = 0 := rfl
@[simp] theorem resetTo_cmd (line : Bool) (s : State) : (resetTo line s).cmd = 0 := rfl
@[simp] theorem resetTo_resetLine (line : Bool) (s : State) : (resetTo line s).resetLine = line := rfl
@[simp] theorem resetTo_pending (line : Bool) (s : State) : (resetTo line s).pending = s.pending := rfl
@[simp] theorem resetTo_reads (line : Bool) (s : State) : (resetTo line s).reads = s.reads := rfl

end Sys2Proof.Machine
end

