-- ==== Sys2Proof/Laws/Memory.lean ====
section
/-! SUPPORT. The element stores: what a read gives after a write, and that every operation keeps the canonical form. -/

namespace Sys2Proof.Machine

variable {w : Nat}

/-! ### Listed cells -/

theorem lookupCell_insertCell_same (l : List (Nat × BitVec w)) (i : Nat) (v : BitVec w) :
    lookupCell (insertCell l i v) i = some v := by
  induction l with
  | nil => simp [insertCell, lookupCell]
  | cons c t ih =>
    obtain ⟨k, x⟩ := c
    unfold insertCell
    split_ifs with h1 h2
    · simp [lookupCell]
    · simp [lookupCell]
    · simp [lookupCell, h2, ih]

theorem lookupCell_insertCell_ne (l : List (Nat × BitVec w)) {i j : Nat} (v : BitVec w) (h : j ≠ i) :
    lookupCell (insertCell l i v) j = lookupCell l j := by
  induction l with
  | nil => simp [insertCell, lookupCell, h]
  | cons c t ih =>
    obtain ⟨k, x⟩ := c
    unfold insertCell
    split_ifs with h1 h2
    · simp [lookupCell, h]
    · subst h2; simp [lookupCell, h]
    · simp [lookupCell, ih]

theorem lookupCell_append (a b : List (Nat × BitVec w)) (i : Nat) :
    lookupCell (a ++ b) i = (lookupCell a i).or (lookupCell b i) := by
  induction a with
  | nil => simp [lookupCell]
  | cons c t ih =>
    obtain ⟨k, x⟩ := c
    by_cases h : i = k <;> simp [lookupCell, h]
    simpa using ih

theorem lookupCell_filter_ge (l : List (Nat × BitVec w)) {n i : Nat} (h : n ≤ i) :
    lookupCell (l.filter fun c => decide (n ≤ c.1)) i = lookupCell l i := by
  induction l with
  | nil => rfl
  | cons c t ih =>
    obtain ⟨k, x⟩ := c
    by_cases hk : n ≤ k
    · simp [hk, lookupCell, ih]
    · have : i ≠ k := by omega
      simp [hk, lookupCell, ih, this]

theorem lookupCell_indexedFrom (vs : List (BitVec w)) (base i : Nat) :
    lookupCell (indexedFrom base vs) i = if base ≤ i then vs[i - base]? else none := by
  induction vs generalizing base with
  | nil => simp [indexedFrom, lookupCell]
  | cons v t ih =>
    simp only [indexedFrom, lookupCell, ih]
    by_cases h1 : i = base
    · simp [h1]
    · by_cases h2 : base ≤ i
      · have h3 : base + 1 ≤ i := by omega
        have h4 : i - base = (i - (base + 1)) + 1 := by omega
        simp [h1, h2, h3, h4]
      · have h3 : ¬ base + 1 ≤ i := by omega
        simp [h1, h2, h3]

theorem indexedFrom_keys (vs : List (BitVec w)) (base : Nat) :
    (indexedFrom base vs).map Prod.fst = List.range' base vs.length := by
  induction vs generalizing base with
  | nil => rfl
  | cons v t ih => simp [indexedFrom, ih, List.range'_succ]

theorem mem_insertCell {l : List (Nat × BitVec w)} {i : Nat} {v : BitVec w} {c : Nat × BitVec w}
    (h : c ∈ insertCell l i v) : c = (i, v) ∨ c ∈ l := by
  induction l with
  | nil => simpa [insertCell] using h
  | cons d t ih =>
    obtain ⟨k, x⟩ := d
    unfold insertCell at h
    split_ifs at h with h1 h2
    · simpa using h
    · rcases List.mem_cons.1 h with h | h
      · exact .inl h
      · exact .inr (List.mem_cons_of_mem _ h)
    · rcases List.mem_cons.1 h with h | h
      · exact .inr (by simp [h])
      · exact (ih h).imp id (List.mem_cons_of_mem _)

theorem insertCell_ascending {l : List (Nat × BitVec w)} (i : Nat) (v : BitVec w)
    (h : (l.map Prod.fst).Pairwise (· < ·)) : ((insertCell l i v).map Prod.fst).Pairwise (· < ·) := by
  induction l with
  | nil => simp [insertCell]
  | cons d t ih =>
    obtain ⟨k, x⟩ := d
    simp only [List.map_cons, List.pairwise_cons] at h
    unfold insertCell
    split_ifs with h1 h2
    · simp only [List.map_cons, List.pairwise_cons]
      refine ⟨?_, h⟩
      intro a ha
      rcases List.mem_cons.1 ha with rfl | ha
      · exact h1
      · exact lt_trans h1 (h.1 a ha)
    · subst h2; simpa using h
    · simp only [List.map_cons, List.pairwise_cons]
      refine ⟨?_, ih h.2⟩
      intro a ha
      obtain ⟨c, hc, rfl⟩ := List.mem_map.1 ha
      rcases mem_insertCell hc with rfl | hc
      · show k < i
        omega
      · exact h.1 _ (List.mem_map_of_mem hc)

/-! ### Reads after writes -/

theorem read_of_listed (which : Store) {m : Memory w} {i : Nat} {v : BitVec w} (h : lookupCell m.cells i = some v) :
    m.read which i = v := by simp [Memory.read, h]

theorem read_write_same (which : Store) (m : Memory w) (i : Nat) (v : BitVec w) :
    (m.write i v).read which i = v :=
  read_of_listed which (lookupCell_insertCell_same m.cells i v)

theorem read_write_ne (which : Store) (m : Memory w) {i j : Nat} (v : BitVec w) (h : j ≠ i) :
    (m.write i v).read which j = m.read which j := by
  simp [Memory.read, Memory.write, Memory.unlisted, lookupCell_insertCell_ne m.cells v h]

theorem lookup_writePrefix_lt (m : Memory w) (vs : List (BitVec w)) {i : Nat} (h : i < vs.length) :
    lookupCell (m.writePrefix vs).cells i = some vs[i] := by
  simp [Memory.writePrefix, lookupCell_append, lookupCell_indexedFrom, h]

theorem read_writePrefix_lt (which : Store) (m : Memory w) (vs : List (BitVec w)) {i : Nat} (h : i < vs.length) :
    (m.writePrefix vs).read which i = vs[i] :=
  read_of_listed which (lookup_writePrefix_lt m vs h)

theorem read_writePrefix_ge (which : Store) (m : Memory w) (vs : List (BitVec w)) {i : Nat} (h : vs.length ≤ i) :
    (m.writePrefix vs).read which i = m.read which i := by
  have hl : lookupCell (m.writePrefix vs).cells i = lookupCell m.cells i := by
    simp [Memory.writePrefix, lookupCell_append, lookupCell_indexedFrom, List.getElem?_eq_none h,
      lookupCell_filter_ge _ h]
  unfold Memory.read
  rw [hl]
  rfl

/-- A result replaces elements below its length and no other (R35). -/
theorem sameFrom_writePrefix (which : Store) (m : Memory w) (vs : List (BitVec w)) :
    SameFrom which vs.length m (m.writePrefix vs) := fun _ h => read_writePrefix_ge which m vs h

theorem listed_writePrefix (m : Memory w) (vs : List (BitVec w)) {i : Nat} (h : i < vs.length) :
    (m.writePrefix vs).listed i := by
  simp [Memory.listed, lookup_writePrefix_lt m vs h]

@[simp] theorem readPrefix_length (which : Store) (m : Memory w) (n : Nat) :
    (m.readPrefix which n).length = n := by simp [Memory.readPrefix]

@[simp] theorem readPrefix_getElem (which : Store) (m : Memory w) (n i : Nat)
    (h : i < (m.readPrefix which n).length) : (m.readPrefix which n)[i] = m.read which i := by
  simp [Memory.readPrefix]

theorem readPrefix_writePrefix (which : Store) (m : Memory w) (vs : List (BitVec w)) :
    (m.writePrefix vs).readPrefix which vs.length = vs := by
  apply List.ext_getElem
  · simp
  · intro i h1 h2
    simp [read_writePrefix_lt which m vs h2]

theorem sameFrom_refl (which : Store) (n : Nat) (m : Memory w) : SameFrom which n m m := fun _ _ => rfl

/-! ### The canonical form -/

theorem blank_wf (cap draw : Nat) : (Memory.blank w draw).wf cap := by
  simp [Memory.wf, Memory.blank]

theorem forget_wf (cap : Nat) (m : Memory w) : m.forget.wf cap := blank_wf cap _

theorem write_wf {cap : Nat} {m : Memory w} {i : Nat} (v : BitVec w) (hm : m.wf cap) (hi : i < cap) :
    (m.write i v).wf cap := by
  refine ⟨insertCell_ascending i v hm.1, ?_⟩
  intro c hc
  rcases mem_insertCell hc with rfl | hc
  · exact hi
  · exact hm.2 c hc

theorem writePrefix_wf {cap : Nat} {m : Memory w} {vs : List (BitVec w)} (hm : m.wf cap) (hv : vs.length ≤ cap) :
    (m.writePrefix vs).wf cap := by
  have hkeys : ∀ a ∈ (indexedFrom 0 vs).map Prod.fst, a < vs.length := by
    intro a ha
    rw [indexedFrom_keys] at ha
    simpa using (List.mem_range'_1.1 ha).2
  refine ⟨?_, ?_⟩
  · rw [Memory.writePrefix, List.map_append, List.pairwise_append]
    refine ⟨?_, ?_, ?_⟩
    · rw [indexedFrom_keys]
      exact List.pairwise_lt_range' ..
    · exact hm.1.sublist (List.Sublist.map _ List.filter_sublist)
    · intro a ha b hb
      obtain ⟨c, hc, rfl⟩ := List.mem_map.1 hb
      have h2 : vs.length ≤ c.1 := by simpa using (List.mem_filter.1 hc).2
      exact lt_of_lt_of_le (hkeys a ha) h2
  · intro c hc
    rcases List.mem_append.1 hc with hc | hc
    · exact lt_of_lt_of_le (hkeys c.1 (List.mem_map_of_mem hc)) hv
    · exact hm.2 c (List.mem_filter.1 hc).1

/-- The stores right after reset are in canonical form. -/
theorem resetWith_wf (c : Config) :
    (State.resetWith c).raw.wf c.params.rawCap ∧ (State.resetWith c).ibuf.wf c.params.ibufCap ∧
    (State.resetWith c).ichr.wf c.params.ichrCap ∧ (State.resetWith c).obuf.wf c.params.obufCap ∧
    (State.resetWith c).ochr.wf c.params.ochrCap :=
  ⟨blank_wf _ _, blank_wf _ _, blank_wf _ _, blank_wf _ _, blank_wf _ _⟩

end Sys2Proof.Machine
end

