-- ==== Sys2Proof/Laws/Codec.lean ====
section
/-! SUPPORT. The pure codecs: the lengths of their results, and what their checks say. -/

namespace Sys2Proof.Machine

/-! ### Digits -/

theorem packNibbles_length (ds : List Nibble) : (packNibbles ds).length = (ds.length + 1) / 2 := by
  induction ds using packNibbles.induct with
  | case1 => rfl
  | case2 lo => simp [packNibbles]
  | case3 lo hi t ih => simp [packNibbles, ih]; omega

@[simp] theorem nibblesOf_length (bs : List Byte) : (nibblesOf bs).length = 2 * bs.length := by
  induction bs with
  | nil => rfl
  | cons b t ih => simp [nibblesOf, ih]; omega

/-- Digit `k` of a byte sequence is the low nibble of byte `k div 2` when `k` is even, else its high nibble (R72). -/
theorem nibblesOf_getElem? (bs : List Byte) (k : Nat) :
    (nibblesOf bs)[k]? = bs[k / 2]?.map fun b => b.extractLsb' (if k % 2 = 0 then 0 else 4) 4 := by
  induction bs generalizing k with
  | nil => simp [nibblesOf]
  | cons b t ih =>
    match k with
    | 0 => simp [nibblesOf]
    | 1 => simp [nibblesOf]
    | k + 2 =>
      have h1 : (k + 2) / 2 = k / 2 + 1 := by omega
      have h2 : (k + 2) % 2 = k % 2 := by omega
      simp [nibblesOf, ih, h1, h2]

/-- BcdEncode succeeds exactly on strings of decimal digits (R71). -/
theorem bcdEncode_eq_ok {s : List Char16} (h : ∀ c ∈ s, isDigit c = true) :
    bcdEncode s = .ok (packNibbles (s.map digitValue)) := by
  have : s.findIdx? (fun c => !isDigit c) = none := by
    rw [List.findIdx?_eq_none_iff]
    intro c hc
    simp [h c hc]
  simp [bcdEncode, this]

theorem bcdEncode_ok_length {s : List Char16} {r : List Byte} (h : bcdEncode s = .ok r) :
    r.length = (s.length + 1) / 2 := by
  unfold bcdEncode at h
  split at h
  · cases h
  · cases h
    simp [packNibbles_length]

theorem bcdDecode_ok_length {bs : List Byte} {c : Nat} {r : List Char16} (h : bcdDecode bs c = .ok r) :
    r.length = c := by
  unfold bcdDecode at h
  split at h
  · cases h
  · split at h
    · cases h
    · cases h
      simp
      omega

/-! ### Bit streams -/

@[simp] theorem bitsOf_length {w : Nat} (x : BitVec w) : (bitsOf x).length = w := by simp [bitsOf]

@[simp] theorem bitStream_length {w : Nat} (xs : List (BitVec w)) : (bitStream xs).length = w * xs.length := by
  induction xs with
  | nil => rfl
  | cons x t ih =>
    have : bitStream (x :: t) = bitsOf x ++ bitStream t := rfl
    simp [this, ih, Nat.mul_add]
    omega

@[simp] theorem chunks_length (w n : Nat) (bits : List Bool) : (chunks w n bits).length = n := by
  induction n generalizing bits with
  | zero => rfl
  | succ n ih => simp [chunks, ih]

@[simp] theorem g7Pack_length (s : List Septet) : (g7Pack s).length = (7 * s.length + 7) / 8 := by simp [g7Pack]

@[simp] theorem g7Unpack_length (bs : List Byte) : (g7Unpack bs).length = 8 * bs.length / 7 := by simp [g7Unpack]

/-- Bit `t` of the number with the given bits. -/
theorem bitsValue_testBit (bits : List Bool) (t : Nat) : (bitsValue bits).testBit t = bits.getD t false := by
  induction bits generalizing t with
  | nil => simp [bitsValue]
  | cons b l ih =>
    cases t with
    | zero => cases b <;> simp [bitsValue]
    | succ t =>
      have h : (b.toNat + 2 * bitsValue l) / 2 = bitsValue l := by
        have : b.toNat ≤ 1 := Bool.toNat_le b
        omega
      simp [bitsValue, Nat.testBit_succ, h, ih]

/-- Bit `t` of value `i` cut from a stream is stream bit `w*i + t`, 0 past the end (R82, R83). -/
theorem chunks_bit (w n : Nat) (bits : List Bool) (i t : Nat) (hi : i < n) (ht : t < w) :
    ((chunks w n bits)[i]'(by simpa using hi)).getLsbD t = bits.getD (w * i + t) false := by
  induction n generalizing bits i with
  | zero => omega
  | succ n ih =>
    cases i with
    | zero =>
      have h : (BitVec.ofNat w (bitsValue (bits.take w))).getLsbD t = bits.getD t false := by
        rw [BitVec.getLsbD_ofNat, bitsValue_testBit]
        simp [ht]
      simpa [chunks] using h
    | succ i =>
      have h := ih (bits.drop w) i (by omega)
      simp only [chunks, List.getElem_cons_succ, h]
      simp [Nat.mul_add]
      congr 2
      omega

/-- Bit `j` of a stream is bit `j mod w` of value `j div w` (R82). -/
theorem bitStream_getElem? {w : Nat} (hw : 0 < w) (xs : List (BitVec w)) (j : Nat) :
    (bitStream xs)[j]? = xs[j / w]?.map fun x => x.getLsbD (j % w) := by
  induction xs generalizing j with
  | nil => simp [bitStream]
  | cons x t ih =>
    have hcons : bitStream (x :: t) = bitsOf x ++ bitStream t := rfl
    rw [hcons]
    by_cases h : j < w
    · rw [List.getElem?_append_left (by simpa using h)]
      simp [bitsOf, h, Nat.div_eq_of_lt h, Nat.mod_eq_of_lt h]
    · have hle : w ≤ j := by omega
      rw [List.getElem?_append_right (by simpa using hle)]
      have h1 : j / w = (j - w) / w + 1 := by rw [Nat.div_eq_sub_div hw hle]
      have h2 : j % w = (j - w) % w := Nat.mod_eq_sub_mod hle
      simp [ih, h1, h2]

/-! ### The alphabet -/

/-- The values of a list are pairwise different when `distinct` says so. -/
theorem distinct_nodup {l : List Nat} (h : distinct l = true) : l.Nodup := by
  induction l with
  | nil => exact List.nodup_nil
  | cons a t ih =>
    simp only [distinct, Bool.and_eq_true, List.all_eq_true, Bool.not_eq_true'] at h
    refine List.nodup_cons.2 ⟨fun hm => ?_, ih h.2⟩
    have := h.1 a hm
    simp at this

theorem distinct_of_nodup {l : List Nat} (h : l.Nodup) : distinct l = true := by
  induction l with
  | nil => rfl
  | cons a t ih =>
    obtain ⟨h1, h2⟩ := List.nodup_cons.1 h
    simp only [distinct, Bool.and_eq_true, List.all_eq_true, Bool.not_eq_true']
    refine ⟨fun b hb => ?_, ih h2⟩
    have : a ≠ b := fun e => h1 (e ▸ hb)
    cases hb : Nat.beq a b
    · rfl
    · exact absurd (Nat.eq_of_beq_eq_true hb) this

theorem distinct_iff_nodup (l : List Nat) : distinct l = true ↔ l.Nodup := ⟨distinct_nodup, distinct_of_nodup⟩

theorem g7Map_ok_of {p : Params} {t : List Char16} (h : ∀ c ∈ t, (charSeptets p c).isSome = true) :
    g7Map p t = .ok (t.flatMap fun c => (charSeptets p c).getD []) := by
  have : t.findIdx? (fun c => (charSeptets p c).isNone) = none := by
    rw [List.findIdx?_eq_none_iff]
    intro c hc
    have := h c hc
    cases hx : charSeptets p c <;> simp_all
  simp [g7Map, this]

theorem g7Encode_ok_length {p : Params} {t : List Char16} {r : List Byte} (h : g7Encode p t = .ok r) :
    ∃ s, g7Map p t = .ok s ∧ r.length = (7 * s.length + 7) / 8 := by
  unfold g7Encode at h
  split at h
  · cases h
  · rename_i s hs
    cases h
    exact ⟨s, hs, by simp⟩

theorem g7Read_ok_length {p : Params} {k : Nat} {s : List Septet} {r : List Char16} (h : g7Read p k s = .ok r) :
    r.length ≤ s.length := by
  fun_induction g7Read p k s generalizing r with
  | case1 => cases h; simp
  | case2 => cases h
  | case3 => cases h; simp
  | case4 => cases h
  | case5 => cases h
  | case6 _ _ _ _ _ _ hr ih =>
    cases h
    have := ih hr
    simp
    omega
  | case7 => cases h
  | case8 _ _ _ _ _ _ hr ih =>
    cases h
    have := ih hr
    simp at this ⊢
    omega

theorem g7Decode_ok_length {p : Params} {bs : List Byte} {r : List Char16} (h : g7Decode p bs = .ok r) :
    r.length ≤ 8 * bs.length / 7 := by
  simpa using g7Read_ok_length h

/-! ### The address of a field -/

theorem bodyDigits_le (body : List Byte) : bodyDigits body ≤ 2 * body.length := by
  unfold bodyDigits
  split
  · omega
  · split <;> omega

theorem fieldAddress_length {p : Params} {raw : List Byte} {v : List Char16} (h : fieldAddress p raw = some v) :
    v.length ≤ max (2 * (raw.length - 1)) (8 * (raw.length - 1) / 7) := by
  cases raw with
  | nil => cases h
  | cons hd body =>
    simp only [fieldAddress] at h
    split at h
    · cases hg : g7Decode p body with
      | error e => simp [hg, nullOnError] at h
      | ok r =>
        simp [hg, nullOnError] at h
        subst h
        exact le_max_of_le_right (by simpa using g7Decode_ok_length hg)
    · cases hb : bcdDecode body (bodyDigits body) with
      | error e => simp [hb, nullOnError] at h
      | ok r =>
        simp [hb, nullOnError] at h
        subst h
        rw [bcdDecode_ok_length hb]
        exact le_max_of_le_left (by simpa using bodyDigits_le body)

end Sys2Proof.Machine
end

