-- ==== Sys2Proof/Laws/Words.lean ====
section
/-! SUPPORT. The fields of STATUS, RES and the header byte: each accessor gives back what the word was made of, and the
reserved bits are 0. -/

namespace Sys2Proof.Machine

/-! ### STATUS (R30) -/

section Status

variable (cause sub : BitVec 4) (sticky : Bool) (idx : BitVec 16)

@[simp] theorem statusCause_statusWord : statusCause (statusWord cause sub sticky idx) = cause := by
  ext j hj
  interval_cases j <;> simp [statusCause, statusWord]

@[simp] theorem statusSub_statusWord : statusSub (statusWord cause sub sticky idx) = sub := by
  ext j hj
  interval_cases j <;> simp [statusSub, statusWord]

@[simp] theorem statusSticky_statusWord : statusSticky (statusWord cause sub sticky idx) = sticky := by
  simp [statusSticky, statusWord]

@[simp] theorem statusIdx_statusWord : statusIdx (statusWord cause sub sticky idx) = idx := by
  ext j hj
  have h1 : 16 + j < 32 := by omega
  have h2 : 16 + j - 8 ≠ 0 := by omega
  have h3 : sub.getLsbD (16 + j - 4) = false := BitVec.getLsbD_of_ge _ _ (by omega)
  have h4 : cause.getLsbD (16 + j) = false := BitVec.getLsbD_of_ge _ _ (by omega)
  simp [statusIdx, statusWord, hj, h1, h2, h3, h4]

/-- The reserved bits of STATUS are 0. -/
theorem statusWord_used : statusWord cause sub sticky idx &&& statusUsedBits = statusWord cause sub sticky idx := by
  ext j hj
  interval_cases j <;> simp [statusWord, statusUsedBits]

@[simp] theorem statusSticky_afterError (e : AfcError) : statusSticky (statusAfterError e) = true := by
  simp [statusAfterError]

@[simp] theorem statusSticky_afterSuccess (v : Word) : statusSticky (statusAfterSuccess v) = statusSticky v := by
  simp [statusAfterSuccess]

@[simp] theorem statusCause_afterSuccess (v : Word) : statusCause (statusAfterSuccess v) = 0 := by
  simp [statusAfterSuccess]

@[simp] theorem statusCause_afterError (e : AfcError) : statusCause (statusAfterError e) = e.cause := by
  simp [statusAfterError]

/-- No error has the cause code of success (R101). -/
theorem AfcError.cause_ne_zero (e : AfcError) : e.cause ≠ 0 := by cases e <;> simp [AfcError.cause]

/-- STATUS after a success is legal. -/
theorem statusLegal_afterSuccess (v : Word) : StatusLegal (statusAfterSuccess v) := .inl ⟨_, rfl⟩

/-- STATUS after an error is legal. -/
theorem statusLegal_afterError (e : AfcError) : StatusLegal (statusAfterError e) := .inr ⟨e, rfl⟩

theorem statusLegal_zero : StatusLegal 0 := .inl ⟨false, by decide⟩

end Status

/-! ### RES (R29) -/

section Res

variable (nat : BitVec 3) (pln : BitVec 4) (ext natv plnv extv strv : Bool)

@[simp] theorem resNat_resWord : resNat (resWord nat pln ext natv plnv extv strv) = nat := by
  ext j hj
  interval_cases j <;> simp [resNat, resWord]

@[simp] theorem resPln_resWord : resPln (resWord nat pln ext natv plnv extv strv) = pln := by
  ext j hj
  interval_cases j <;> simp [resPln, resWord]

@[simp] theorem resExt_resWord : resExt (resWord nat pln ext natv plnv extv strv) = ext := by
  simp [resExt, resWord]

@[simp] theorem resNatv_resWord : resNatv (resWord nat pln ext natv plnv extv strv) = natv := by
  simp [resNatv, resWord]

@[simp] theorem resPlnv_resWord : resPlnv (resWord nat pln ext natv plnv extv strv) = plnv := by
  simp [resPlnv, resWord]

@[simp] theorem resExtv_resWord : resExtv (resWord nat pln ext natv plnv extv strv) = extv := by
  simp [resExtv, resWord]

@[simp] theorem resStrv_resWord : resStrv (resWord nat pln ext natv plnv extv strv) = strv := by
  simp [resStrv, resWord]

/-- The reserved bits of RES are 0. -/
theorem resWord_reserved : resWord nat pln ext natv plnv extv strv &&& ~~~resUsedBits = 0 := by
  ext j hj
  interval_cases j <;> simp [resWord, resUsedBits]

variable {nat pln natv plnv}

/-- A RES word whose valid bits stand only beside defined codes is legal. -/
theorem resLegal_resWord {p : Params} (hn : natv = true → natureDefined p nat = true)
    (hp : plnv = true → planDefined p pln = true) : ResLegal p (resWord nat pln ext natv plnv extv strv) :=
  ⟨resWord_reserved .., by simpa using hn, by simpa using hp⟩

end Res

theorem resLegal_zero (p : Params) : ResLegal p 0 := ⟨by decide, fun h => absurd h (by decide), fun h => absurd h (by decide)⟩

/-! ### The header byte (R65, R66) -/

@[simp] theorem hdrNature_hdrEncode (nat : BitVec 3) (pln : BitVec 4) (ext : Bool) :
    hdrNature (hdrEncode nat pln ext) = nat := by
  ext j hj
  cases ext <;> interval_cases j <;> simp [hdrNature, hdrEncode]

@[simp] theorem hdrPlan_hdrEncode (nat : BitVec 3) (pln : BitVec 4) (ext : Bool) :
    hdrPlan (hdrEncode nat pln ext) = pln := by
  ext j hj
  cases ext <;> interval_cases j <;> simp [hdrPlan, hdrEncode]

@[simp] theorem hdrExt_hdrEncode (nat : BitVec 3) (pln : BitVec 4) (ext : Bool) :
    hdrExt (hdrEncode nat pln ext) = ext := by
  cases ext <;> simp [hdrExt, hdrEncode]

end Sys2Proof.Machine
end

