-- ==== Sys2Proof/Laws/Ops.lean ====
section
/-! SUPPORT. Everything each shared operation can do, said once: later proofs cite these and do not unfold the
operation. -/

namespace Sys2Proof.Machine

/-- BCD_ENC and G7_ENC: an operand over capacity, the codec's error, a result over capacity, or the result (R76, R88). -/
theorem encodeOperand_cases (codec : List Char16 → Except AfcError (List Byte)) (s : State) :
    (ichrOver s = true ∧ encodeOperand codec s = raiseEncoder (.ichrOverrun s.iclen.toNat) s) ∨
    (ichrOver s = false ∧ ∃ e, codec (stringOperand s) = .error e ∧ encodeOperand codec s = raiseEncoded e s) ∨
    (ichrOver s = false ∧ ∃ r, codec (stringOperand s) = .ok r ∧ s.cfg.params.obufCap < r.length ∧
      encodeOperand codec s = raiseEncoded (.obufOverrun r.length) s) ∨
    (ichrOver s = false ∧ ∃ r, codec (stringOperand s) = .ok r ∧ r.length ≤ s.cfg.params.obufCap ∧
      encodeOperand codec s = complete (putBytes r s)) := by
  unfold encodeOperand
  cases ho : ichrOver s with
  | true => simp
  | false =>
    cases hc : codec (stringOperand s) with
    | error e => simp
    | ok r =>
      by_cases hl : s.cfg.params.obufCap < r.length
      · simp [hl]
      · simp [hl, Nat.le_of_not_lt hl]

/-- BCD_DEC and G7_DEC: an operand over capacity, the codec's error, or the result (R77, R89). -/
theorem decodeOperand_cases (codec : List Byte → Except AfcError (List Char16)) (s : State) :
    (ibufOver s = true ∧ decodeOperand codec s = raiseDecoder (.ibufOverrun s.ilen.toNat) s) ∨
    (ibufOver s = false ∧ ∃ e, codec (byteOperand s) = .error e ∧ decodeOperand codec s = raiseDecoded e s) ∨
    (ibufOver s = false ∧ ∃ r, codec (byteOperand s) = .ok r ∧ decodeOperand codec s = complete (putChars r s)) := by
  unfold decodeOperand
  cases ho : ibufOver s with
  | true => simp
  | false => cases hc : codec (byteOperand s) <;> simp

/-- FLD_CONS and FLD_LOAD: the FIELD kept and an error, or the FIELD replaced whole (R24, R103). -/
theorem storeField_cases (r : Except AfcError (List Byte)) (s : State) :
    (∃ e, r = .error e ∧ storeField r s = raise e s) ∨
    (∃ bs, r = .ok bs ∧ storeField r s = complete (putField bs s)) := by
  cases r with
  | error e => exact .inl ⟨e, rfl, rfl⟩
  | ok bs => exact .inr ⟨bs, rfl, rfl⟩

/-- FLD_ADDR: null, or the string (R99). -/
theorem addressResult_cases (v : Option (List Char16)) (s : State) :
    (v = none ∧ addressResult v s = resultCommand 0 (clearChars s)) ∨
    (∃ cs, v = some cs ∧
      addressResult v s = resultCommand (resWord 0 0 false false false false true) (putChars cs s)) := by
  cases v with
  | none => exact .inl ⟨rfl, rfl⟩
  | some cs => exact .inr ⟨cs, rfl, rfl⟩

/-- A constructed field fits RAW (R91). -/
theorem consField_ok_fits {p : Params} {nat : BitVec 3} {pln : BitVec 4} {natp plnp ext adrp overrun : Bool} {n : Nat}
    {a : List Char16} {bs : List Byte} (h : consField p nat natp pln plnp ext adrp overrun n a = .ok bs) :
    bs.length ≤ p.rawCap := by
  unfold consField at h
  split_ifs at h
  unfold joinField at h
  split at h
  · cases h
  · split_ifs at h with h1
    cases h
    simp
    omega

/-- A loaded field is the byte operand and fits RAW (R92). -/
theorem loadField_ok {s : State} {bs : List Byte} (h : loadField s = .ok bs) :
    bs = byteOperand s ∧ s.ilen.toNat ≤ s.cfg.params.ibufCap ∧ s.ilen.toNat ≤ s.cfg.params.rawCap := by
  unfold loadField at h
  split_ifs at h with h1 h2
  cases h
  simp only [ibufOver, decide_eq_true_eq] at h1
  exact ⟨rfl, by omega, by omega⟩

/-- A write to CMD: an illegal word writes STATUS only, a legal one is executed (R60). -/
theorem execute_cases (v : Word) (s : State) :
    (∃ e, decode v = .error e ∧ execute v s = .next (raise (illegalError e) s)) ∨
    (∃ i, decode v = .ok i ∧ execute v s = exec i s) := by
  unfold execute
  cases h : decode v with
  | error e => exact .inl ⟨e, rfl, rfl⟩
  | ok i => exact .inr ⟨i, rfl, rfl⟩

/-- A register write: CMD executes, ILEN and ICLEN are stored, every other index takes no effect (R33). -/
theorem hostWriteReg_cases (r : BitVec 8) (v : Word) (s : State) :
    (r = 0x00 ∧ hostWriteReg r v s = execute v { s with cmd := v }) ∨
    (r = 0x03 ∧ hostWriteReg r v s = .next { s with ilen := v.extractLsb' 0 16 }) ∨
    (r = 0x04 ∧ hostWriteReg r v s = .next { s with iclen := v.extractLsb' 0 16 }) ∨
    (r ≠ 0x00 ∧ r ≠ 0x03 ∧ r ≠ 0x04 ∧ hostWriteReg r v s = .next s) := by
  unfold hostWriteReg
  split_ifs with h1 h2 h3 <;> simp_all

/-- A buffer write: one element of IBUF or ICHR inside its capacity, or nothing (R34). -/
theorem hostWriteBuf_cases (b : HostBuf) (i : Nat) (v : Word) (s : State) :
    (b = .ibuf ∧ i < s.cfg.params.ibufCap ∧
      hostWriteBuf b i v s = { s with ibuf := s.ibuf.write i (v.extractLsb' 0 8) }) ∨
    (b = .ichr ∧ i < s.cfg.params.ichrCap ∧
      hostWriteBuf b i v s = { s with ichr := s.ichr.write i (v.extractLsb' 0 16) }) ∨
    hostWriteBuf b i v s = s := by
  cases b with
  | ibuf => by_cases h : i < s.cfg.params.ibufCap <;> simp [hostWriteBuf, h]
  | ichr => by_cases h : i < s.cfg.params.ichrCap <;> simp [hostWriteBuf, h]
  | obuf => simp [hostWriteBuf]
  | ochr => simp [hostWriteBuf]

/-- One step: no access left and nothing changes; an access while reset is asserted; or an access of the running machine. -/
theorem step_cases (s : State) :
    (s.pending = [] ∧ step s = .next s) ∨
    (∃ a rest, s.pending = a :: rest ∧ s.resetLine = true ∧
      step s = .next (accessInReset a { s with pending := rest })) ∨
    (∃ a rest, s.pending = a :: rest ∧ s.resetLine = false ∧
      step s = accessRunning a { s with pending := rest }) := by
  unfold step performNext
  cases hp : s.pending with
  | nil => exact .inl ⟨rfl, rfl⟩
  | cons a rest =>
    cases hr : s.resetLine with
    | true => exact .inr (.inl ⟨a, rest, rfl, rfl, by simp [hostAccess]⟩)
    | false => exact .inr (.inr ⟨a, rest, rfl, rfl, by simp [hostAccess]⟩)

/-- A step of the running machine performs the host's next access. -/
theorem step_running {s : State} {a : HostAccess} {rest : List HostAccess} (hr : s.resetLine = false)
    (hp : s.pending = a :: rest) : step s = accessRunning a { s with pending := rest } := by
  simp [step, performNext, hp, hostAccess, hr]

/-- A step while reset is asserted. -/
theorem step_inReset {s : State} {a : HostAccess} {rest : List HostAccess} (hr : s.resetLine = true)
    (hp : s.pending = a :: rest) : step s = .next (accessInReset a { s with pending := rest }) := by
  simp [step, performNext, hp, hostAccess, hr]

end Sys2Proof.Machine
end

