-- ==== Sys2Proof/Laws/Configuration.lean ====
section
/-! SUPPORT. What the constraints of spec/00_scope.md R13 give a configuration: the arithmetic of the capacities, and
the alphabet tables as maps. -/

namespace Sys2Proof.Machine

/-- The capacities of a configuration, in the words of R13 (a) to (d). -/
theorem config_caps (c : Config) :
    20 ≤ c.params.rawCap ∧ c.params.rawCap ≤ 65535 ∧
    1 ≤ c.params.ibufCap ∧ c.params.ibufCap ≤ 65535 ∧ 1 ≤ c.params.ichrCap ∧ c.params.ichrCap ≤ 65535 ∧
    1 ≤ c.params.obufCap ∧ c.params.obufCap ≤ 65535 ∧ 1 ≤ c.params.ochrCap ∧ c.params.ochrCap ≤ 65535 ∧
    c.params.rawCap ≤ c.params.obufCap ∧ 255 ≤ c.params.ochrCap ∧
    2 * (c.params.rawCap - 1) ≤ c.params.ochrCap ∧
    8 * c.params.ibufCap / 7 ≤ c.params.ochrCap ∧ 8 * (c.params.rawCap - 1) / 7 ≤ c.params.ochrCap := by
  have h := c.wf
  simp only [Params.wf, Params.rawCapOk, Params.bufferCapsOk, capInRange, Params.obufHoldsRaw,
    Params.ochrHoldsDecoded, Bool.and_eq_true, decide_eq_true_eq] at h
  omega

/-- `P_ALNUM_PLAN` is a defined plan (R13 (e)). -/
theorem alnumPlan_defined (c : Config) : planDefined c.params c.params.alnumPlan = true := by
  have h := c.wf
  simp only [Params.wf, Params.alnumPlanDefined, Bool.and_eq_true] at h
  exact h.1.1.1.2

/-- The table facts of R80: both tables map each septet once, give each character once, have no key 0x1B, share no
character, and the basic table has 127 entries. -/
theorem config_tables (c : Config) :
    (c.params.gsm7Basic.map Prod.fst).Nodup ∧ (c.params.gsm7Basic.map Prod.snd).Nodup ∧
    (∀ e ∈ c.params.gsm7Basic, e.1 ≠ escapeSeptet) ∧ c.params.gsm7Basic.length = 127 ∧
    (c.params.gsm7Ext.map Prod.fst).Nodup ∧ (c.params.gsm7Ext.map Prod.snd).Nodup ∧
    (∀ e ∈ c.params.gsm7Ext, e.1 ≠ escapeSeptet) ∧
    ∀ e ∈ c.params.gsm7Ext, ∀ b ∈ c.params.gsm7Basic, e.2 ≠ b.2 := by
  have h := c.wf
  simp only [Params.wf, Params.basicTableOk, Params.extTableOk, Params.tablesDisjoint, Bool.and_eq_true,
    List.all_eq_true, bne_iff_ne, ne_eq, Bool.not_eq_true'] at h
  have nodupOf : ∀ {w : Nat} {α : Type} (l : List α) (f : α → BitVec w),
      distinct (l.map fun e => (f e).toNat) = true → (l.map f).Nodup := by
    intro w α l f hd
    have := distinct_nodup hd
    rw [show (l.map fun e => (f e).toNat) = (l.map f).map BitVec.toNat by simp] at this
    exact this.of_map _
  obtain ⟨⟨⟨_, ⟨⟨h1, h2⟩, h3⟩, h4⟩, ⟨h5, h6⟩, h7⟩, h8⟩ := h
  refine ⟨nodupOf _ _ h1, nodupOf _ _ h2, h3, Nat.eq_of_beq_eq_true h4, nodupOf _ _ h5, nodupOf _ _ h6, h7, ?_⟩
  intro e he b hb hc
  have := h8 e he b hb
  rw [hc] at this
  simp at this

/-- In a table that maps each key once, looking up a listed key finds its entry. -/
theorem find?_fst_of_mem {w v : Nat} {l : List (BitVec w × BitVec v)} (hl : (l.map Prod.fst).Nodup)
    {x : BitVec w} {y : BitVec v} (h : (x, y) ∈ l) : l.find? (fun e => e.1 == x) = some (x, y) := by
  induction l with
  | nil => cases h
  | cons a t ih =>
    simp only [List.map_cons, List.nodup_cons] at hl
    rcases List.mem_cons.1 h with rfl | h
    · simp
    · have : a.1 ≠ x := by
        rintro rfl
        exact hl.1 (List.mem_map.2 ⟨_, h, rfl⟩)
      rw [List.find?_cons_of_neg (by simpa using this)]
      exact ih hl.2 h

/-- In a table that gives each value once, looking up a listed value finds its entry. -/
theorem find?_snd_of_mem {w v : Nat} {l : List (BitVec w × BitVec v)} (hl : (l.map Prod.snd).Nodup)
    {x : BitVec w} {y : BitVec v} (h : (x, y) ∈ l) : l.find? (fun e => e.2 == y) = some (x, y) := by
  induction l with
  | nil => cases h
  | cons a t ih =>
    simp only [List.map_cons, List.nodup_cons] at hl
    rcases List.mem_cons.1 h with rfl | h
    · simp
    · have : a.2 ≠ y := by
        rintro rfl
        exact hl.1 (List.mem_map.2 ⟨_, h, rfl⟩)
      rw [List.find?_cons_of_neg (by simpa using this)]
      exact ih hl.2 h

theorem charOf_of_mem {l : List (Septet × Char16)} (hl : (l.map Prod.fst).Nodup) {x : Septet} {ch : Char16}
    (h : (x, ch) ∈ l) : charOf l x = some ch := by simp [charOf, find?_fst_of_mem hl h]

theorem septetOf_of_mem {l : List (Septet × Char16)} (hl : (l.map Prod.snd).Nodup) {x : Septet} {ch : Char16}
    (h : (x, ch) ∈ l) : septetOf l ch = some x := by simp [septetOf, find?_snd_of_mem hl h]

theorem mem_of_charOf {l : List (Septet × Char16)} {x : Septet} {ch : Char16} (h : charOf l x = some ch) :
    (x, ch) ∈ l := by
  obtain ⟨e, he, rfl⟩ := Option.map_eq_some_iff.1 h
  have h1 := List.mem_of_find?_eq_some he
  have h2 := List.find?_some he
  simp at h2
  exact h2 ▸ h1

theorem mem_of_septetOf {l : List (Septet × Char16)} {x : Septet} {ch : Char16} (h : septetOf l ch = some x) :
    (x, ch) ∈ l := by
  obtain ⟨e, he, rfl⟩ := Option.map_eq_some_iff.1 h
  have h1 := List.mem_of_find?_eq_some he
  have h2 := List.find?_some he
  simp at h2
  exact h2 ▸ h1

theorem charOf_eq_none {l : List (Septet × Char16)} {x : Septet} : charOf l x = none ↔ x ∉ l.map Prod.fst := by
  simp only [charOf, Option.map_eq_none_iff, List.find?_eq_none, List.mem_map, Prod.exists, beq_iff_eq]
  exact ⟨fun h ⟨_, b, hb, e⟩ => h _ hb e, fun h e he hx => h ⟨e.1, e.2, he, hx⟩⟩

theorem septetOf_eq_none {l : List (Septet × Char16)} {ch : Char16} :
    septetOf l ch = none ↔ ch ∉ l.map Prod.snd := by
  simp only [septetOf, Option.map_eq_none_iff, List.find?_eq_none, List.mem_map, Prod.exists, beq_iff_eq]
  exact ⟨fun h ⟨_, b, hb, e⟩ => h _ hb e, fun h e he hx => h ⟨e.1, e.2, he, hx⟩⟩

/-- The basic table is total off the escape (R80 (a)): 127 different keys among the 127 septets other than 0x1B. -/
theorem basic_total (c : Config) {x : Septet} (hx : x ≠ escapeSeptet) : x ∈ c.params.gsm7Basic.map Prod.fst := by
  obtain ⟨h1, _, h3, h4, _⟩ := config_tables c
  have hnat : (c.params.gsm7Basic.map fun e => e.1.toNat).Nodup := by
    have := h1.map (f := BitVec.toNat) fun a b h => BitVec.eq_of_toNat_eq h
    rwa [List.map_map] at this
  have hsub : (c.params.gsm7Basic.map fun e => e.1.toNat).toFinset ⊆ (Finset.range 128).erase 27 := by
    intro y hy
    obtain ⟨e, he, rfl⟩ := List.mem_map.1 (List.mem_toFinset.1 hy)
    refine Finset.mem_erase.2 ⟨fun h => h3 e he (BitVec.eq_of_toNat_eq h), Finset.mem_range.2 e.1.isLt⟩
  have hcard : ((Finset.range 128).erase 27).card ≤ (c.params.gsm7Basic.map fun e => e.1.toNat).toFinset.card := by
    rw [List.toFinset_card_of_nodup hnat]
    simp [h4]
  have heq := Finset.eq_of_subset_of_card_le hsub hcard
  have hmem : x.toNat ∈ (Finset.range 128).erase 27 :=
    Finset.mem_erase.2 ⟨fun h => hx (BitVec.eq_of_toNat_eq h), Finset.mem_range.2 x.isLt⟩
  rw [← heq] at hmem
  obtain ⟨e, he, hxe⟩ := List.mem_map.1 (List.mem_toFinset.1 hmem)
  exact List.mem_map.2 ⟨e, he, BitVec.eq_of_toNat_eq hxe⟩

/-- The character of a septet other than the escape is the one the basic table gives it: the default of `basicChar` is
never used. -/
theorem basicChar_mem (c : Config) {x : Septet} (hx : x ≠ escapeSeptet) :
    (x, basicChar c.params x) ∈ c.params.gsm7Basic := by
  cases h : charOf c.params.gsm7Basic x with
  | none => exact absurd (basic_total c hx) (charOf_eq_none.1 h)
  | some ch =>
    have : basicChar c.params x = ch := by simp [basicChar, h]
    rw [this]
    exact mem_of_charOf h

end Sys2Proof.Machine
end

