-- ==== Sys2Proof/Laws/Alphabet.lean ====
section
/-! SUPPORT. What the septet reader of spec/42_gsm7.md R85 does on the septets that R81 gives a text, whatever follows
them: it reads the text and goes on. Both directions of the alphabet are seen through one character at a time. -/

namespace Sys2Proof.Machine

/-- A text that maps to septets has septets for each character, one sequence after the other (R81). -/
theorem g7Map_ok {p : Params} {t : List Char16} {sep : List Septet} (h : g7Map p t = .ok sep) :
    (∀ c ∈ t, (charSeptets p c).isSome = true) ∧ sep = t.flatMap fun c => (charSeptets p c).getD [] := by
  unfold g7Map at h
  split at h
  · cases h
  · next hn =>
    refine ⟨fun c hc => ?_, by cases h; rfl⟩
    have := List.findIdx?_eq_none_iff.mp hn c hc
    simpa [Option.isSome_iff_ne_none] using this

/-- The septets of a character: its septet, which is no escape, or the escape and its septet (R80, R81). -/
theorem charSeptets_cases (c : Config) {ch : Char16} {l : List Septet} (h : charSeptets c.params ch = some l) :
    (∃ x, l = [x] ∧ x ≠ escapeSeptet ∧ basicChar c.params x = ch) ∨
    ∃ e, l = [escapeSeptet, e] ∧ charOf c.params.gsm7Ext e = some ch := by
  obtain ⟨h1, _, h3, _, h5, _⟩ := config_tables c
  unfold charSeptets at h
  split at h
  · next x hx =>
    have hm := mem_of_septetOf hx
    refine .inl ⟨x, by cases h; rfl, h3 _ hm, ?_⟩
    rw [basicChar, charOf_of_mem h1 hm, Option.getD_some]
  · split at h
    · next e he => exact .inr ⟨e, by cases h; rfl, charOf_of_mem h5 (mem_of_septetOf he)⟩
    · cases h

/-- A septet other than the escape reads as its basic character, wherever it stands (R85). -/
theorem g7Read_basic (p : Params) {k : Nat} {x : Septet} (hx : x ≠ escapeSeptet) (rest : List Septet) :
    g7Read p k (x :: rest) = (g7Read p (k + 1) rest).map (basicChar p x :: ·) := by
  cases rest with
  | nil => simp [g7Read, hx, Except.map]
  | cons e t =>
    rw [g7Read, if_neg hx]
    cases g7Read p (k + 1) (e :: t) <;> rfl

/-- An escape and a septet of the extension table read as its character (R85). -/
theorem g7Read_escape {p : Params} {k : Nat} {e : Septet} {ch : Char16} (he : charOf p.gsm7Ext e = some ch)
    (rest : List Septet) :
    g7Read p k (escapeSeptet :: e :: rest) = (g7Read p (k + 2) rest).map (ch :: ·) := by
  rw [g7Read, if_pos rfl, he]
  cases g7Read p (k + 2) rest <;> rfl

/-- The reader on the septets of a text and whatever follows: the text, then what the rest reads as from its own septet
index on, the rest's error included (R81, R85). -/
theorem g7Read_of_text (c : Config) {t : List Char16} {sep : List Septet} (h : g7Map c.params t = .ok sep) (k : Nat)
    (rest : List Septet) :
    g7Read c.params k (sep ++ rest) = (g7Read c.params (k + sep.length) rest).map (t ++ ·) := by
  obtain ⟨hs, rfl⟩ := g7Map_ok h
  clear h
  induction t generalizing k with
  | nil => cases hr : g7Read c.params k rest <;> simp [hr, Except.map]
  | cons ch t ih =>
    obtain ⟨l, hl⟩ := Option.isSome_iff_exists.mp (hs ch (by simp))
    have ih := fun k => ih k fun d hd => hs d (by simp [hd])
    simp only [List.flatMap_cons, hl, Option.getD_some, List.append_assoc, List.length_append]
    rcases charSeptets_cases c hl with ⟨x, rfl, hx, rfl⟩ | ⟨e, rfl, he⟩
    · rw [List.singleton_append, g7Read_basic _ hx, ih, List.length_singleton, Nat.add_assoc]
      cases g7Read c.params (k + (1 + _)) rest <;> rfl
    · rw [List.cons_append, List.singleton_append, g7Read_escape he, ih, Nat.add_assoc]
      cases g7Read c.params (k + (2 + _)) rest <;> rfl

end Sys2Proof.Machine
end

