-- ==== Sys2Proof/Laws/PerInstr.lean ====
section
/-! SUPPORT. A family of statements made per command: the encoded word (spec/30_encoding.md R54, R55, R58). -/

namespace Sys2Proof.Laws.EncodedWord

/-- The word of the command has RSV = 0 and an assigned opcode, and no 1 outside the fields its format uses: it is a
legal word whatever the operands are. -/
def Statement (i : Instr) : Prop :=
  i.wf = true ∧ (encode i).extractLsb' 27 5 = 0 ∧
  ∃ r, rowOf (opcOf (encode i)) = some r ∧ encode i &&& r.format.mask = r.opc.setWidth 32

theorem hdrEnc (nat : BitVec 3) (pln : BitVec 4) (ext : Bool) : Statement (.hdrEnc nat pln ext) := by
  refine ⟨rfl, ?_, ⟨0x01, .h, fun v => .hdrEnc (natOf v) (plnOf v) (extOf v)⟩, ?_, ?_⟩
  · revert nat pln ext; decide +kernel
  · have h : opcOf (encode (.hdrEnc nat pln ext)) = 0x01 := by revert nat pln ext; decide +kernel
    rw [h]; rfl
  · revert nat pln ext; decide +kernel

theorem hdrDec (imm8 : Byte) : Statement (.hdrDec imm8) := by
  refine ⟨rfl, ?_, ⟨0x02, .i, fun v => .hdrDec (imm8Of v)⟩, ?_, ?_⟩
  · revert imm8; decide +kernel
  · have h : opcOf (encode (.hdrDec imm8)) = 0x02 := by revert imm8; decide +kernel
    rw [h]; rfl
  · revert imm8; decide +kernel

theorem bcdEnc : Statement .bcdEnc := ⟨rfl, rfl, _, rfl, rfl⟩

theorem bcdDec (imm8 : Byte) : Statement (.bcdDec imm8) := by
  refine ⟨rfl, ?_, ⟨0x04, .i, fun v => .bcdDec (imm8Of v)⟩, ?_, ?_⟩
  · revert imm8; decide +kernel
  · have h : opcOf (encode (.bcdDec imm8)) = 0x04 := by revert imm8; decide +kernel
    rw [h]; rfl
  · revert imm8; decide +kernel

theorem g7Enc : Statement .g7Enc := ⟨rfl, rfl, _, rfl, rfl⟩

theorem g7Dec : Statement .g7Dec := ⟨rfl, rfl, _, rfl, rfl⟩

theorem fldCons (nat : BitVec 3) (natp : Bool) (pln : BitVec 4) (plnp ext adrp : Bool) :
    Statement (.fldCons nat natp pln plnp ext adrp) := by
  refine ⟨rfl, ?_, ⟨0x10, .f, fun v => .fldCons (natOf v) (natpOf v) (plnOf v) (plnpOf v) (extOf v) (adrpOf v)⟩, ?_, ?_⟩
  · revert nat natp pln plnp ext adrp; decide +kernel
  · have h : opcOf (encode (.fldCons nat natp pln plnp ext adrp)) = 0x10 := by
      revert nat natp pln plnp ext adrp; decide +kernel
    rw [h]; rfl
  · revert nat natp pln plnp ext adrp; decide +kernel

theorem fldLoad : Statement .fldLoad := ⟨rfl, rfl, _, rfl, rfl⟩

theorem fldRaw : Statement .fldRaw := ⟨rfl, rfl, _, rfl, rfl⟩

theorem fldNat : Statement .fldNat := ⟨rfl, rfl, _, rfl, rfl⟩

theorem fldPlan : Statement .fldPlan := ⟨rfl, rfl, _, rfl, rfl⟩

theorem fldExt : Statement .fldExt := ⟨rfl, rfl, _, rfl, rfl⟩

theorem fldAddr : Statement .fldAddr := ⟨rfl, rfl, _, rfl, rfl⟩

end Sys2Proof.Laws.EncodedWord
end

