-- ==== Sys2Proof/Tests/Slice0.lean ====
section
/-! SUPPORT. The model's own tests, each with expected values from spec/95_test_vectors.md or spec/30_encoding.md, and
for each statement of Sys2Proof/Certificates/Slice0/Obligations.lean that has hypotheses a witness that meets them. -/

namespace Sys2Proof.Tests

open Sys2Proof.Machine

/-! ## Small states -/

/-- The state right after reset, with these characters in ICHR[0..ICLEN). -/
def withText (cs : List Char16) : State :=
  { State.reset with ichr := ⟨indexedFrom 0 cs, 0⟩, iclen := BitVec.ofNat 16 cs.length }

/-- The state right after reset, with these bytes in IBUF[0..ILEN). -/
def withBytes (bs : List Byte) : State :=
  { State.reset with ibuf := ⟨indexedFrom 0 bs, 0⟩, ilen := BitVec.ofNat 16 bs.length }

/-- The state right after reset, with these bytes in the FIELD storage. -/
def withField (bs : List Byte) : State :=
  { State.reset with raw := ⟨indexedFrom 0 bs, 0⟩, rawLen := BitVec.ofNat 16 bs.length }

/-- The state right after reset, with these accesses to come. -/
def withHost (accesses : List HostAccess) : State := { State.reset with pending := accesses }

/-- The state with the reset input asserted and these accesses to come. -/
def inReset (accesses : List HostAccess) : State := { withHost accesses with resetLine := true }

/-- The outcome is a next state with this property. -/
def nextIs (o : Host.Outcome State Fault Refusal) (p : State → Bool) : Bool :=
  match o with
  | .next t => p t
  | .fault _ => false
  | .refused _ => false

/-- One step that runs the word ends in a state with this property. -/
def runs (s : State) (w : Nat) (p : State → Bool) : Bool := nextIs (step (s.withFetchWord 32 w)) p

/-- The decoder's answer as comparable data. -/
def decodesTo (v : Word) (i : Instr) : Bool :=
  match decode v with
  | .ok j => decide (j = i)
  | .error _ => false

/-- The decoder rejects the word for this reason. -/
def rejects (v : Word) (e : IllegalWord) : Bool :=
  match decode v with
  | .ok _ => false
  | .error f => decide (f = e)

/-! ## Decoding: one word for each command, its bits from 30_encoding.md R54, R55, R58 -/

theorem test_decode_hdrEnc : decodesTo 0b00000010_1111_0_111_00000000_00000001 (.hdrEnc 7 15 true) = true := by decide
theorem test_decode_hdrDec : decodesTo 0b00000000_00000000_10101110_00000010 (.hdrDec 0xAE) = true := by decide
theorem test_decode_bcdEnc : decodesTo 0b00000000_00000000_00000000_00000011 .bcdEnc = true := by decide
theorem test_decode_bcdDec : decodesTo 0b00000000_00000000_00000110_00000100 (.bcdDec 6) = true := by decide
theorem test_decode_g7Enc : decodesTo 0b00000000_00000000_00000000_00000101 .g7Enc = true := by decide
theorem test_decode_g7Dec : decodesTo 0b00000000_00000000_00000000_00000110 .g7Dec = true := by decide
theorem test_decode_fldCons :
    decodesTo 0b00000_1_1_1_0101_1_000_00000000_00010000 (.fldCons 0 true 5 true true true) = true := by decide
theorem test_decode_fldCons_absent :
    decodesTo 0b00000_1_0_1_0001_0_000_00000000_00010000 (.fldCons 0 false 1 true false true) = true := by decide
theorem test_decode_fldLoad : decodesTo 0b00000000_00000000_00000000_00010001 .fldLoad = true := by decide
theorem test_decode_fldRaw : decodesTo 0b00000000_00000000_00000000_00010010 .fldRaw = true := by decide
theorem test_decode_fldNat : decodesTo 0b00000000_00000000_00000000_00010011 .fldNat = true := by decide
theorem test_decode_fldPlan : decodesTo 0b00000000_00000000_00000000_00010100 .fldPlan = true := by decide
theorem test_decode_fldExt : decodesTo 0b00000000_00000000_00000000_00010101 .fldExt = true := by decide
theorem test_decode_fldAddr : decodesTo 0b00000000_00000000_00000000_00010110 .fldAddr = true := by decide

/-- The words of vectors V-HDR-2, V-FLD-1, V-FLD-6, V-FLD-8 come out of the assembler (R62). -/
theorem test_assemble :
    assemble (.hdrEnc 7 15 true) = 0x02F70001 ∧ assemble (.fldCons (some 1) (some 1) false true) = 0x05190010 ∧
    assemble (.fldCons none (some 1) false true) = 0x05100010 ∧
    assemble (.fldCons (some 1) (some 1) false false) = 0x01190010 ∧ assemble (.bcdDec 6) = 0x00000604 := by decide

/-- The edges of the unassigned ranges (R59; V-ILL-1 to V-ILL-4). -/
theorem test_unassigned :
    rejects 0x00000000 .unassignedOpcode = true ∧ rejects 0x00000007 .unassignedOpcode = true ∧
    rejects 0x0000000F .unassignedOpcode = true ∧ rejects 0x00000017 .unassignedOpcode = true ∧
    rejects 0xFFFFFFFF .unassignedOpcode = true := by decide

/-- V-ILL-5 to V-ILL-10, V-FLD-21, V-FLD-22. -/
theorem test_mustBeZero :
    rejects 0x00000103 .mustBeZero = true ∧ rejects 0x80000001 .mustBeZero = true ∧
    rejects 0x00080001 .mustBeZero = true ∧ rejects 0x01000001 .mustBeZero = true ∧
    rejects 0x00001001 .mustBeZero = true ∧ rejects 0x00000112 .mustBeZero = true ∧
    rejects 0x08000010 .mustBeZero = true ∧ rejects 0x0000FF10 .mustBeZero = true := by decide

theorem test_decodeTableWord :
    decodeTableWord 32 0x05190010 = some (.fldCons 1 true 1 true false true) ∧ decodeTableWord 32 0 = none := by decide

/-! ## Well-formedness: an ill-formed configuration for each check (R13, R80). An ill-formed instruction cannot be
written, since the fields' types have the widths of the word's fields (R54). -/

/-- The default configuration with another set of capacities. -/
def withCaps (ibuf ichr obuf ochr raw : Nat) : Params :=
  { defaultParams with ibufCap := ibuf, ichrCap := ichr, obufCap := obuf, ochrCap := ochr, rawCap := raw }

theorem test_wf_rawCap : (withCaps 256 512 256 512 19).rawCapOk = false ∧ (withCaps 256 512 256 512 19).wf = false := by
  decide +kernel
theorem test_wf_bufferCaps : (withCaps 0 512 256 512 256).bufferCapsOk = false ∧ (withCaps 0 512 256 512 256).wf = false := by
  decide +kernel
theorem test_wf_obuf : (withCaps 256 512 255 512 256).obufHoldsRaw = false ∧ (withCaps 256 512 255 512 256).wf = false := by
  decide +kernel
/-- V-FLD-51's condition: with P_IBUF_CAP = 512, P_OCHR_CAP must be at least 585. -/
theorem test_wf_ochr :
    (withCaps 512 512 256 584 256).ochrHoldsDecoded = false ∧ (withCaps 512 512 256 584 256).wf = false ∧
    (withCaps 512 512 256 585 256).wf = true := by decide +kernel
theorem test_wf_alnumPlan : { defaultParams with alnumPlan := 12 }.alnumPlanDefined = false ∧
    { defaultParams with alnumPlan := 12 }.wf = false := by decide +kernel
theorem test_wf_basicTable : { defaultParams with gsm7Basic := defaultGsm7Basic.tail }.basicTableOk = false ∧
    { defaultParams with gsm7Basic := defaultGsm7Basic.tail }.wf = false := by decide +kernel
theorem test_wf_extTable : { defaultParams with gsm7Ext := [(0x1B, 0x20AC)] }.extTableOk = false ∧
    { defaultParams with gsm7Ext := [(0x1B, 0x20AC)] }.wf = false := by decide +kernel
theorem test_wf_disjoint : { defaultParams with gsm7Ext := [(0x65, 0x0041)] }.tablesDisjoint = false ∧
    { defaultParams with gsm7Ext := [(0x65, 0x0041)] }.wf = false := by decide +kernel

/-- A configuration that breaks R13 is refused. -/
theorem test_powerOn_refuses : powerOn (withCaps 256 512 256 512 19) = .refused .illFormedConfig :=
  dif_neg (by decide +kernel)

/-- No command line gives a nature code together with NATP = 0 (R62); the word is legal all the same (R55). -/
theorem test_fromLine : (Instr.fldCons 1 false 0 true false true).fromLine = false ∧
    decodesTo (encode (.fldCons 1 false 0 true false true)) (.fldCons 1 false 0 true false true) = true := by decide

/-! ## One step for each command, from State.reset with operands placed -/

/-- V-HDR-2. -/
theorem test_hdrEnc : runs State.reset 0x02F70001
    (fun t => t.obuf.cells == [(0, 0xFF)] && t.olen == 1 && t.status == 0 && t.cmd == 0x02F70001) = true := by decide +kernel
/-- V-HDR-5. -/
theorem test_hdrEnc_plan : runs State.reset 0x02340001 (fun t => t.obuf.cells == [(0, 0xC3)]) = true := by decide +kernel
/-- V-HDR-13. -/
theorem test_hdrDec : runs State.reset 0x0000AE02 (fun t => t.res == 0x00000BE2) = true := by decide +kernel
/-- V-HDR-6. -/
theorem test_hdrDec_valid : runs State.reset 0x00009102 (fun t => t.res == 0x00000F11) = true := by decide +kernel
/-- V-BCD-1. -/
theorem test_bcdEnc : runs (withText [0x31, 0x32, 0x33]) 0x00000003
    (fun t => t.obuf.cells == [(0, 0x21), (1, 0xF3)] && t.olen == 2 && t.status == 0) = true := by decide +kernel
/-- V-BCD-5. -/
theorem test_bcdEnc_letter : runs (withText [0x31, 0x32, 0x61]) 0x00000003
    (fun t => t.status == 0x00020113 && t.olen == 0) = true := by decide +kernel
/-- V-BCD-14. -/
theorem test_bcdDec : runs (withBytes [0x21, 0xA3]) 0x00000304
    (fun t => t.ochr.cells == [(0, 0x31), (1, 0x32), (2, 0x33)] && t.oclen == 3) = true := by decide +kernel
/-- V-BCD-13. -/
theorem test_bcdDec_filler : runs (withBytes [0x21, 0xF3]) 0x00000404
    (fun t => t.status == 0x00030124 && t.oclen == 0) = true := by decide +kernel
/-- V-G7-9. -/
theorem test_g7Enc : runs (withText [0x61, 0x62, 0x7B]) 0x00000005
    (fun t => t.obuf.cells == [(0, 0x61), (1, 0xF1), (2, 0x06), (3, 0x05)] && t.olen == 4) = true := by decide +kernel
/-- V-G7-15. -/
theorem test_g7Enc_foreign : runs (withText [0x41, 0x0416]) 0x00000005
    (fun t => t.status == 0x00010123 && t.olen == 0) = true := by decide +kernel
/-- V-G7-6: seven bytes give an eighth septet, 0x00, which is '@'. -/
theorem test_g7Dec : runs (withBytes [0x31, 0xD9, 0x8C, 0x56, 0xB3, 0xDD, 0x00]) 0x00000006
    (fun t => t.ochr.cells.map Prod.snd == [0x31, 0x32, 0x33, 0x34, 0x35, 0x36, 0x37, 0x40] && t.oclen == 8) = true := by
  decide +kernel
/-- V-G7-24. -/
theorem test_g7Dec_escape : runs (withBytes [0x9B, 0x00]) 0x00000006
    (fun t => t.status == 0x00000144 && t.oclen == 0) = true := by decide +kernel
/-- V-FLD-15. -/
theorem test_fldCons : runs (withText [0x48, 0x49]) 0x07580010
    (fun t => t.raw.cells == [(0, 0x85), (1, 0xC8), (2, 0x24)] && t.rawLen == 3 && t.status == 0) = true := by decide +kernel
/-- V-FLD-14: the length is checked before the characters, and the FIELD is kept. -/
theorem test_fldCons_tooLong : runs { withText (List.replicate 39 0x61) with rawLen := 3 } 0x05190010
    (fun t => t.status == 0x00270142 && t.rawLen == 3 && t.raw.cells == []) = true := by decide +kernel
/-- V-FLD-30, the load. -/
theorem test_fldLoad : runs (withBytes [0x91, 0x21, 0xF3]) 0x00000011
    (fun t => t.raw.cells == [(0, 0x91), (1, 0x21), (2, 0xF3)] && t.rawLen == 3) = true := by decide +kernel
/-- The configuration of V-FLD-51. -/
def bigInput : Config := ⟨withCaps 512 512 256 585 256, by decide +kernel⟩
/-- V-FLD-51. -/
theorem test_fldLoad_tooLong : runs { State.resetWith bigInput with ilen := 300 } 0x00000011
    (fun t => t.status == 0x012C0145 && t.rawLen == 0) = true := by decide +kernel
/-- FLD_RAW after V-FLD-30. -/
theorem test_fldRaw : runs (withField [0x91, 0x21, 0xF3]) 0x00000012
    (fun t => t.obuf.cells == [(0, 0x91), (1, 0x21), (2, 0xF3)] && t.olen == 3) = true := by decide +kernel
/-- V-FLD-39. -/
theorem test_fldNat : runs (withField [0xEA, 0x21]) 0x00000013 (fun t => t.res == 0x00000206) = true := by decide +kernel
/-- V-FLD-35: an undefined plan is null, with no error. -/
theorem test_fldPlan : runs (withField [0x1C, 0x21]) 0x00000014
    (fun t => t.res == 0x000000C0 && t.status == 0) = true := by decide +kernel
/-- V-FLD-39. -/
theorem test_fldExt : runs (withField [0xEA, 0x21]) 0x00000015 (fun t => t.res == 0x00000900) = true := by decide +kernel
/-- V-FLD-45: from reset. -/
theorem test_fldExt_absent : runs State.reset 0x00000015 (fun t => t.res == 0 && t.status == 0) = true := by decide +kernel
/-- V-FLD-30: the filler is dropped. -/
theorem test_fldAddr : runs (withField [0x91, 0x21, 0xF3]) 0x00000016
    (fun t => t.ochr.cells == [(0, 0x31), (1, 0x32), (2, 0x33)] && t.oclen == 3 && t.res == 0x00001000) = true := by
  decide +kernel
/-- V-FLD-42: null. -/
theorem test_fldAddr_null : runs (withField [0x11, 0x21, 0xF3, 0x54]) 0x00000016
    (fun t => t.res == 0 && t.oclen == 0 && t.status == 0) = true := by decide +kernel
/-- V-ILL-1 and V-ILL-7. -/
theorem test_illegal : runs State.reset 0x00000000 (fun t => t.status == 0x00000111) = true ∧
    runs State.reset 0x00080001 (fun t => t.status == 0x00000121 && t.cmd == 0x00080001) = true := by decide +kernel

/-! ## The host port -/

/-- V-HOST-1 and V-HOST-2. -/
theorem test_writeReg :
    nextIs (step (withHost [.writeReg 0x03 0x00012345])) (fun t => t.ilen == 0x2345) = true ∧
    nextIs (step (withHost [.writeReg 0x01 0xFFFFFFFF])) (fun t => t.status == 0) = true := by decide +kernel
/-- V-HOST-4 and V-HOST-6. -/
theorem test_buffers :
    nextIs (step (withHost [.readBuf .ibuf 300])) (fun t => t.reads == [0]) = true ∧
    nextIs (step (withHost [.writeBuf .ibuf 0 0x1FF])) (fun t => t.ibuf.cells == [(0, 0xFF)]) = true := by decide +kernel
/-- R63: WRBYTES expands to the element writes and the length write; RDBYTES reads OLEN elements. -/
theorem test_pseudo :
    (Pseudo.wrbytes [0x91, 0x21]).accesses State.reset =
      [.writeBuf .ibuf 0 0x91, .writeBuf .ibuf 1 0x21, .writeReg 0x03 2] ∧
    Pseudo.rdbytes.accesses { State.reset with olen := 2 } =
      [.readReg 0x05, .readBuf .obuf 0, .readBuf .obuf 1] := by decide +kernel
/-- R63, R34, R43: value 65536 of a WRBYTES is written to index 65536, which is outside every IBUF, and not to index 0. -/
theorem test_elementWrites_long : elementWrites .ibuf 65536 [7] = [.writeBuf .ibuf 65536 7] ∧
    nextIs (step (withHost [.writeBuf .ibuf 65536 7])) (fun t => t.ibuf.cells == []) = true := by decide +kernel

/-! ## Witnesses: for each statement with hypotheses, a state and operands that meet them, one for each clause -/

/-- A configuration with small stores, near the lower bounds of R13. -/
def smallConfig : Config := ⟨withCaps 256 64 20 512 20, by decide +kernel⟩

/-- A configuration in which nature code 7 is undefined. -/
def fewNatures : Config := ⟨{ defaultParams with natureDefined := [0, 1] }, by decide +kernel⟩

/-- The state right after reset in `c`, with these characters in ICHR[0..ICLEN). -/
def textIn (c : Config) (cs : List Char16) : State := { withText cs with cfg := c }

theorem witness_DecodeOfEncodeIsIdentity : (Instr.fldCons 7 true 15 true true true).wf = true := rfl

theorem witness_EncodeOfDecodeIsIdentity : decode 0x07FF0010 = .ok (.fldCons 7 true 15 true true true) := by
  decide

/-- One opcode of each format, with a must-be-zero bit at an edge of its range set. -/
theorem witness_MustBeZeroBitsRejected :
    opcOf 0x04000001 = 0x01 ∧ opcOf 0x00010002 = 0x02 ∧ opcOf 0x80000004 = 0x04 ∧ opcOf 0x08000010 = 0x10 ∧
    opcOf 0x00000103 = 0x03 ∧ opcOf 0x00000111 = 0x11 ∧ opcOf 0x00000116 = 0x16 := by decide

/-- A word under each clause, and an illegal one under the last. -/
theorem witness_OpcodeTableRowsSelectCommands :
    (0x02F70001 &&& 0xFD08FFFF : Word) = 0x00000001 ∧ (0x0000AE02 &&& 0xFFFF00FF : Word) = 0x00000002 ∧
    (0x0000FF04 &&& 0xFFFF00FF : Word) = 0x00000004 ∧ (0x07FF0010 &&& 0xF800FFFF : Word) = 0x00000010 ∧
    (0x08000010 &&& 0xFD08FFFF : Word) ≠ 0x00000001 ∧ (0x08000010 &&& 0xFFFF00FF : Word) ≠ 0x00000002 ∧
    (0x08000010 &&& 0xFFFF00FF : Word) ≠ 0x00000004 ∧ (0x08000010 &&& 0xF800FFFF : Word) ≠ 0x00000010 := by decide

theorem witness_StepRunsDecodedCommand :
    (withHost [.writeReg 0x00 0x12]).resetLine = false ∧
    (withHost [.writeReg 0x00 0x12]).pending = .writeReg 0x00 0x12 :: [] ∧
    decode 0x12 = .ok .fldRaw ∧ Instr.fldRaw.wf = true := ⟨rfl, rfl, rfl, rfl⟩

theorem witness_StepReportsIllegalWord :
    (withHost [.writeReg 0x00 0x17]).resetLine = false ∧
    (withHost [.writeReg 0x00 0x17]).pending = .writeReg 0x00 0x17 :: [] ∧
    decode 0x17 = .error .unassignedOpcode ∧ decode 0x112 = .error .mustBeZero := ⟨rfl, rfl, rfl, rfl⟩

/-- A field of one byte, an error reported, and FLD_RAW about to run. -/
def oneByteField : State := { withField [0x11] with status := 0x00000112, pending := [.writeReg 0x00 0x12] }

theorem witness_StepKeepsInvariant : oneByteField.Inv ∧ ∃ t, step oneByteField = .next t := by
  refine ⟨?_, _, rfl⟩
  constructor
  case statusLegal => exact .inr ⟨.natureAbsent, by decide⟩
  case resLegal => exact ⟨by decide, by decide, by decide⟩
  case inReset => intro h; cases h
  all_goals decide +kernel

/-- Every capacity at the least value R13 allows. -/
def leastConfig : Config := ⟨withCaps 1 1 20 255 20, by decide +kernel⟩

theorem witness_IllFormedConfigurationRefused : MeetsConstraints leastConfig.params := by
  obtain ⟨h1, h2, h3, h4, h5, h6, h7, h8⟩ := config_tables leastConfig
  constructor
  case basicTotal =>
    refine fun x => ⟨fun h hx => ?_, basic_total leastConfig⟩
    obtain ⟨e, he, rfl⟩ := List.mem_map.mp h
    exact h3 e he hx
  case basicMap => exact h1
  case basicInjective => exact h2
  case extMap => exact h5
  case extInjective => exact h6
  case extNoEscape =>
    intro h
    obtain ⟨e, he, hx⟩ := List.mem_map.mp h
    exact h7 e he hx
  case disjoint =>
    rintro c h h'
    obtain ⟨e, he, rfl⟩ := List.mem_map.mp h
    obtain ⟨b, hb, hc⟩ := List.mem_map.mp h'
    exact h8 e he b hb hc.symm
  all_goals decide

theorem witness_IllFormedConfigurationRefused_broken : ¬ MeetsConstraints (withCaps 256 512 256 512 19) :=
  fun h => absurd h.rawCap.1 (by decide)

theorem witness_ResetInputClearsState :
    ((withHost [.assertReset]).pending = .assertReset :: [] ∧ (withHost [.assertReset]).resetLine = false) ∧
    ((inReset [.readReg 0x01]).pending = .readReg 0x01 :: [] ∧ (inReset [.readReg 0x01]).resetLine = true) ∧
    ((inReset [.readBuf .obuf 0]).pending = .readBuf .obuf 0 :: [] ∧ (inReset [.readBuf .obuf 0]).resetLine = true) ∧
    ((inReset [.writeReg 0x03 5]).pending = .writeReg 0x03 5 :: [] ∧ (inReset [.writeReg 0x03 5]).resetLine = true) ∧
    ((inReset [.assertReset]).pending = .assertReset :: [] ∧ (inReset [.assertReset]).resetLine = true) ∧
    ((inReset [.releaseReset]).pending = .releaseReset :: [] ∧ (inReset [.releaseReset]).resetLine = true) ∧
    ((withHost [.releaseReset]).pending = .releaseReset :: [] ∧ (withHost [.releaseReset]).resetLine = false) := by
  decide +kernel

/-- For every register index, so for each clause. -/
theorem witness_RegisterReadReturnsValue (r : BitVec 8) :
    (withHost [.readReg r]).resetLine = false ∧ (withHost [.readReg r]).pending = .readReg r :: [] := ⟨rfl, rfl⟩

/-- For every register index and value, so for each clause. -/
theorem witness_RegisterWriteStoresLengths (r : BitVec 8) (v : Word) :
    (withHost [.writeReg r v]).resetLine = false ∧ (withHost [.writeReg r v]).pending = .writeReg r v :: [] := ⟨rfl, rfl⟩

/-- The last index inside IBUF and the first outside. -/
theorem witness_ByteElementWrite (i : Nat) (v : Word) :
    (withHost [.writeBuf .ibuf i v]).resetLine = false ∧
    (withHost [.writeBuf .ibuf i v]).pending = .writeBuf .ibuf i v :: [] ∧
    255 < (withHost [.writeBuf .ibuf i v]).cfg.params.ibufCap ∧
    (withHost [.writeBuf .ibuf i v]).cfg.params.ibufCap ≤ 256 :=
  ⟨rfl, rfl, by change 255 < 256; decide, by change 256 ≤ 256; decide⟩

/-- The last index inside ICHR and the first outside, and the buffers the host cannot write. -/
theorem witness_CharacterElementWrite (b : HostBuf) (i : Nat) (v : Word) :
    (withHost [.writeBuf b i v]).resetLine = false ∧
    (withHost [.writeBuf b i v]).pending = .writeBuf b i v :: [] ∧
    511 < (withHost [.writeBuf b i v]).cfg.params.ichrCap ∧
    (withHost [.writeBuf b i v]).cfg.params.ichrCap ≤ 512 :=
  ⟨rfl, rfl, by change 511 < 512; decide, by change 512 ≤ 512; decide⟩

theorem witness_BufferReadReturnsElement (b : HostBuf) (i : Nat) :
    (withHost [.readBuf b i]).resetLine = false ∧ (withHost [.readBuf b i]).pending = .readBuf b i :: [] := ⟨rfl, rfl⟩

/-- "123" has an odd length, "" is the empty string. -/
theorem witness_BcdEncodePacksDigits :
    ((withText [0x31, 0x32, 0x33]).iclen.toNat ≤ (withText [0x31, 0x32, 0x33]).cfg.params.ichrCap ∧
      (∀ i < (withText [0x31, 0x32, 0x33]).iclen.toNat,
        IsDigitChar ((withText [0x31, 0x32, 0x33]).ichr.read .ichr i)) ∧
      ((withText [0x31, 0x32, 0x33]).iclen.toNat + 1) / 2 ≤ (withText [0x31, 0x32, 0x33]).cfg.params.obufCap) ∧
    (withText []).iclen.toNat = 0 := by
  unfold IsDigitChar; decide +kernel

theorem witness_BcdEncodeReportsNonDigit :
    (withText [0x31, 0x32, 0x3A]).iclen.toNat ≤ (withText [0x31, 0x32, 0x3A]).cfg.params.ichrCap ∧
    2 < (withText [0x31, 0x32, 0x3A]).iclen.toNat ∧
    (∀ i < 2, IsDigitChar ((withText [0x31, 0x32, 0x3A]).ichr.read .ichr i)) ∧
    ¬ IsDigitChar ((withText [0x31, 0x32, 0x3A]).ichr.read .ichr 2) := by
  unfold IsDigitChar; decide +kernel

theorem witness_BcdDecodeUnpacksDigits :
    (withBytes [0x21, 0xF3]).ilen.toNat ≤ (withBytes [0x21, 0xF3]).cfg.params.ibufCap ∧
    ((3#8).toNat + 1) / 2 ≤ (withBytes [0x21, 0xF3]).ilen.toNat ∧
    (∀ k < (3#8).toNat, (nibbleAt ((withBytes [0x21, 0xF3]).ibuf.read .ibuf) k).toNat ≤ 9) := by decide +kernel

/-- One byte for three digits, and a filler in a digit position. -/
theorem witness_BcdDecodeReportsErrors :
    ((withBytes [0x21]).ilen.toNat ≤ (withBytes [0x21]).cfg.params.ibufCap ∧
      (withBytes [0x21]).ilen.toNat < ((3#8).toNat + 1) / 2) ∧
    ((withBytes [0x21, 0xF3]).ilen.toNat ≤ (withBytes [0x21, 0xF3]).cfg.params.ibufCap ∧
      ((4#8).toNat + 1) / 2 ≤ (withBytes [0x21, 0xF3]).ilen.toNat ∧ 3 < (4#8).toNat ∧
      (∀ j < 3, (nibbleAt ((withBytes [0x21, 0xF3]).ibuf.read .ibuf) j).toNat ≤ 9) ∧
      9 < (nibbleAt ((withBytes [0x21, 0xF3]).ibuf.read .ibuf) 3).toNat) := by decide +kernel

/-- The lowest and the highest digit, at an even and an odd length. -/
theorem witness_BcdCodecLaws :
    (∀ c ∈ [(0x30 : Char16), 0x39], IsDigitChar c) ∧ ∀ c ∈ [(0x39 : Char16)], IsDigitChar c := by
  simp [IsDigitChar]

/-- A character outside both tables, U+0416. -/
theorem foreignCharacter : ¬ InAlphabet defaultParams 0x0416 := by
  rintro (⟨x, h⟩ | ⟨x, h⟩)
  · have hm : (0x0416 : Char16) ∈ defaultParams.gsm7Basic.map Prod.snd := List.mem_map_of_mem h
    exact absurd hm (by decide +kernel)
  · have hm : (0x0416 : Char16) ∈ defaultParams.gsm7Ext.map Prod.snd := List.mem_map_of_mem h
    exact absurd hm (by decide +kernel)

theorem witness_SeptetMapping_default : defaultConfig.params = defaultParams ∧ (0x001B#16).toNat = 0x1B ∧
    0xD800 ≤ (0xD800#16).toNat ∧ (0xDFFF#16).toNat ≤ 0xDFFF := ⟨rfl, by decide⟩

/-- The letter A is in the alphabet. -/
theorem letterA : InAlphabet defaultParams 0x0041 := .inl ⟨0x41, by decide +kernel⟩

theorem witness_SeptetMapping :
    (0x41, 0x0041) ∈ defaultConfig.params.gsm7Basic ∧ (0x65, 0x20AC) ∈ defaultConfig.params.gsm7Ext ∧
    ¬ InAlphabet defaultConfig.params 0x0416 ∧ g7Map defaultConfig.params [0x41] = .ok [0x41] ∧
    g7Map defaultConfig.params [0x20AC] = .ok [0x1B, 0x65] ∧ ∀ d ∈ [(0x41 : Char16)], InAlphabet defaultConfig.params d := by
  refine ⟨by decide +kernel, by decide +kernel, foreignCharacter, by decide +kernel, by decide +kernel, ?_⟩
  intro d hd
  rw [List.mem_singleton.mp hd]
  exact letterA

theorem witness_G7EncodePacksSeptets :
    (withText [0x48, 0x49]).iclen.toNat ≤ (withText [0x48, 0x49]).cfg.params.ichrCap ∧
    g7Map (withText [0x48, 0x49]).cfg.params (stringOperand (withText [0x48, 0x49])) = .ok [0x48, 0x49] ∧
    (7 * [(0x48 : Septet), 0x49].length + 7) / 8 ≤ (withText [0x48, 0x49]).cfg.params.obufCap :=
  ⟨by decide +kernel, by decide +kernel, by decide +kernel⟩

theorem witness_G7EncodeReportsForeignCharacter :
    (withText [0x41, 0x0416]).iclen.toNat ≤ (withText [0x41, 0x0416]).cfg.params.ichrCap ∧
    1 < (withText [0x41, 0x0416]).iclen.toNat ∧
    (∀ i < 1, InAlphabet (withText [0x41, 0x0416]).cfg.params ((withText [0x41, 0x0416]).ichr.read .ichr i)) ∧
    ¬ InAlphabet (withText [0x41, 0x0416]).cfg.params ((withText [0x41, 0x0416]).ichr.read .ichr 1) := by
  refine ⟨by decide +kernel, by decide +kernel, ?_, foreignCharacter⟩
  intro i hi
  rw [Nat.lt_one_iff.mp hi]
  exact letterA

theorem witness_G7DecodeUnpacksText :
    (withBytes [0xC8, 0x24]).ilen.toNat ≤ (withBytes [0xC8, 0x24]).cfg.params.ibufCap ∧
    ∀ x ∈ g7Unpack (byteOperand (withBytes [0xC8, 0x24])), x ≠ 0x1B := by decide +kernel

/-- A text with an escape in it (V-G7-11), taken whole and cut before its second escape, and two streams whose bytes were
packed by hand with R82: "A" and a dangling escape, "€" and an undefined escape. -/
theorem witness_G7DecodeEscapes :
    (withBytes [0x1B, 0xDE, 0xC6, 0x07]).ilen.toNat ≤ defaultParams.ibufCap ∧
    (g7Map defaultParams [0x5B, 0x5D] = .ok [0x1B, 0x3C, 0x1B, 0x3E] ∧
      g7Unpack (byteOperand (withBytes [0x1B, 0xDE, 0xC6, 0x07])) = [0x1B, 0x3C, 0x1B, 0x3E]) ∧
    (g7Map defaultParams [0x5B] = .ok [0x1B, 0x3C] ∧
      g7Unpack (byteOperand (withBytes [0x1B, 0xDE, 0xC6, 0x07])) = [0x1B, 0x3C] ++ 0x1B :: 0x3E :: [] ∧
      (0x3E, 0x5D) ∈ defaultParams.gsm7Ext ∧ g7Map defaultParams [] = .ok []) ∧
    (g7Map defaultParams [0x41] = .ok [0x41] ∧
      g7Unpack (byteOperand (withBytes [0xC1, 0x0D])) = [0x41] ++ [0x1B]) ∧
    (g7Map defaultParams [0x20AC] = .ok [0x1B, 0x65] ∧
      g7Unpack (byteOperand (withBytes [0x9B, 0xF2, 0x26, 0x00])) = [0x1B, 0x65] ++ 0x1B :: 0x01 :: [] ∧
      0x01 ∉ defaultParams.gsm7Ext.map Prod.fst) := by decide +kernel

theorem witness_G7DecodeErrorsAtEscapes : g7Decode defaultParams [0x1B] = .error (.danglingEscape 0) ∧
    g7Decode defaultParams [0x9B, 0x00] = .error (.undefinedEscape 0) := by decide +kernel

/-- "HI" has two septets and "1234567" has seven. -/
theorem witness_G7RoundTripWithTrailingSeptet :
    g7Map defaultConfig.params [0x48, 0x49] = .ok [0x48, 0x49] ∧
    g7Map defaultConfig.params [0x31, 0x32, 0x33, 0x34, 0x35, 0x36, 0x37] = .ok [0x31, 0x32, 0x33, 0x34, 0x35, 0x36, 0x37] := by
  decide +kernel

/-- One character and one byte too many. -/
theorem witness_CodecOperandOverrun :
    ({ State.reset with iclen := 513 }).cfg.params.ichrCap < ({ State.reset with iclen := 513 }).iclen.toNat ∧
    ({ State.reset with ilen := 257 }).cfg.params.ibufCap < ({ State.reset with ilen := 257 }).ilen.toNat := by decide +kernel

/-- 41 digits, and 24 letters, do not fit an OBUF of 20 bytes. -/
theorem witness_EncoderResultOverrun :
    ((textIn smallConfig (List.replicate 41 0x31)).iclen.toNat ≤ 64 ∧
      (∀ i < (textIn smallConfig (List.replicate 41 0x31)).iclen.toNat,
        IsDigitChar ((textIn smallConfig (List.replicate 41 0x31)).ichr.read .ichr i)) ∧
      (textIn smallConfig (List.replicate 41 0x31)).cfg.params.obufCap <
        ((textIn smallConfig (List.replicate 41 0x31)).iclen.toNat + 1) / 2) ∧
    (textIn smallConfig (List.replicate 24 0x78)).iclen.toNat ≤ 64 ∧
    smallConfig.params.obufCap < (7 * (List.replicate 24 (0x78 : Septet)).length + 7) / 8 := by
  unfold IsDigitChar; decide +kernel

theorem witness_EncoderResultOverrun_septets :
    g7Map smallConfig.params (stringOperand (textIn smallConfig (List.replicate 24 0x78))) =
      .ok (List.replicate 24 0x78) := by decide +kernel

/-- 38 digits, the longest digit string. -/
theorem witness_ConstructDigitField :
    1 ∈ (withText (List.replicate 38 0x39)).cfg.params.natureDefined ∧
    1 ∈ (withText (List.replicate 38 0x39)).cfg.params.planDefined ∧
    1 ≠ (withText (List.replicate 38 0x39)).cfg.params.alnumPlan ∧
    (withText (List.replicate 38 0x39)).iclen.toNat ≤ (withText (List.replicate 38 0x39)).cfg.params.ichrCap ∧
    (withText (List.replicate 38 0x39)).iclen.toNat ≤ 38 ∧
    ∀ i < (withText (List.replicate 38 0x39)).iclen.toNat,
      IsDigitChar ((withText (List.replicate 38 0x39)).ichr.read .ichr i) := by
  unfold IsDigitChar; decide +kernel

theorem witness_ConstructAlphanumericField :
    0 ∈ (withText [0x48, 0x49]).cfg.params.natureDefined ∧
    (withText [0x48, 0x49]).iclen.toNat ≤ (withText [0x48, 0x49]).cfg.params.ichrCap ∧
    g7Map (withText [0x48, 0x49]).cfg.params (stringOperand (withText [0x48, 0x49])) = .ok [0x48, 0x49] ∧
    1 + (7 * [(0x48 : Septet), 0x49].length + 7) / 8 ≤ (withText [0x48, 0x49]).cfg.params.rawCap :=
  ⟨by decide +kernel, by decide +kernel, by decide +kernel, by decide +kernel⟩

/-- The codes, capacities and lengths that the last four checks need: an undefined nature, an undefined plan, an ICLEN of
513, an ICLEN of 39 on the digit path. -/
theorem witness_ConstructChecksInOrder :
    7 ∉ (State.resetWith fewNatures).cfg.params.natureDefined ∧
    (1 ∈ State.reset.cfg.params.natureDefined ∧ 12 ∉ State.reset.cfg.params.planDefined) ∧
    (1 ∈ ({ State.reset with iclen := 513 }).cfg.params.planDefined ∧
      ({ State.reset with iclen := 513 }).cfg.params.ichrCap < ({ State.reset with iclen := 513 }).iclen.toNat) ∧
    (({ State.reset with iclen := 39 }).iclen.toNat ≤ ({ State.reset with iclen := 39 }).cfg.params.ichrCap ∧
      1 ≠ ({ State.reset with iclen := 39 }).cfg.params.alnumPlan ∧ 38 < ({ State.reset with iclen := 39 }).iclen.toNat) := by
  decide +kernel

/-- The digit path: "12:" fails at index 2. -/
theorem witness_ConstructBodyErrors_digit :
    1 ∈ (withText [0x31, 0x32, 0x3A]).cfg.params.natureDefined ∧ 1 ∈ (withText [0x31, 0x32, 0x3A]).cfg.params.planDefined ∧
    1 ≠ (withText [0x31, 0x32, 0x3A]).cfg.params.alnumPlan ∧ (withText [0x31, 0x32, 0x3A]).iclen.toNat ≤ 38 ∧
    (∀ i < 2, IsDigitChar ((withText [0x31, 0x32, 0x3A]).ichr.read .ichr i)) ∧
    ¬ IsDigitChar ((withText [0x31, 0x32, 0x3A]).ichr.read .ichr 2) := by
  unfold IsDigitChar; decide +kernel

/-- The alphanumeric path: plan 5 selects it; its foreign character is `witness_G7EncodeReportsForeignCharacter`'s. -/
theorem witness_ConstructBodyErrors_foreign :
    5 = (withText [0x41, 0x0416]).cfg.params.alnumPlan ∧ 5 ∈ (withText [0x41, 0x0416]).cfg.params.planDefined ∧
    ¬ InAlphabet (withText [0x41, 0x0416]).cfg.params ((withText [0x41, 0x0416]).ichr.read .ichr 1) :=
  ⟨by decide +kernel, by decide +kernel, foreignCharacter⟩

/-- 22 letters make a field of 21 bytes, one more than a RAW of 20. -/
theorem witness_ConstructBodyErrors_long :
    g7Map smallConfig.params (stringOperand (textIn smallConfig (List.replicate 22 0x78))) =
      .ok (List.replicate 22 0x78) ∧
    smallConfig.params.rawCap < 1 + (7 * (List.replicate 22 (0x78 : Septet)).length + 7) / 8 :=
  ⟨by decide +kernel, by decide +kernel⟩

theorem witness_LoadFieldStoresBytes :
    ((withBytes [0x91]).ilen.toNat ≤ (withBytes [0x91]).cfg.params.ibufCap ∧
      (withBytes [0x91]).ilen.toNat ≤ (withBytes [0x91]).cfg.params.rawCap) ∧
    ({ State.reset with ilen := 257 }).cfg.params.ibufCap < ({ State.reset with ilen := 257 }).ilen.toNat ∧
    (({ State.resetWith bigInput with ilen := 257 }).ilen.toNat ≤
        ({ State.resetWith bigInput with ilen := 257 }).cfg.params.ibufCap ∧
      ({ State.resetWith bigInput with ilen := 257 }).cfg.params.rawCap <
        ({ State.resetWith bigInput with ilen := 257 }).ilen.toNat) := by decide +kernel

/-- `raw` absent and present, for the statements about the accessors. -/
theorem witness_accessors : State.reset.rawLen = 0 ∧ (withField [0x91]).rawLen ≠ 0 := by decide +kernel

/-- V-FLD-30 (an odd count), V-FLD-37 (no body) and V-FLD-32 (a nibble that is no digit). -/
theorem witness_AddressOfDigitField :
    ((withField [0x91, 0x21, 0xF3]).rawLen.toNat = 1 + 2 ∧
      (withField [0x91, 0x21, 0xF3]).rawLen.toNat ≤ (withField [0x91, 0x21, 0xF3]).cfg.params.rawCap ∧
      ((withField [0x91, 0x21, 0xF3]).raw.read .raw 0).extractLsb' 0 4 ≠ (withField [0x91, 0x21, 0xF3]).cfg.params.alnumPlan ∧
      3 = (if 1 ≤ 2 ∧ ((withField [0x91, 0x21, 0xF3]).raw.read .raw 2).extractLsb' 4 4 = 0xF then 2 * 2 - 1 else 2 * 2) ∧
      ∀ k < 3, (nibbleAt (fun j => (withField [0x91, 0x21, 0xF3]).raw.read .raw (1 + j)) k).toNat ≤ 9) ∧
    (withField [0x11]).rawLen.toNat = 1 + 0 ∧
    ((withField [0x11, 0x3A]).rawLen.toNat = 1 + 1 ∧
      ∃ k < 2, 9 < (nibbleAt (fun j => (withField [0x11, 0x3A]).raw.read .raw (1 + j)) k).toNat) := by decide +kernel

/-- V-FLD-40 and V-FLD-36. -/
theorem witness_AddressOfAlphanumericField :
    ((withField [0x85, 0xC8, 0x24]).rawLen ≠ 0 ∧
      (withField [0x85, 0xC8, 0x24]).rawLen.toNat ≤ (withField [0x85, 0xC8, 0x24]).cfg.params.rawCap ∧
      ((withField [0x85, 0xC8, 0x24]).raw.read .raw 0).extractLsb' 0 4 = (withField [0x85, 0xC8, 0x24]).cfg.params.alnumPlan) ∧
    g7Decode defaultParams (fieldBytes (withField [0x85, 0xC8, 0x24])).tail = .ok [0x48, 0x49] ∧
    g7Decode defaultParams (fieldBytes (withField [0x15, 0x1B])).tail = .error (.danglingEscape 0) :=
  ⟨by decide +kernel, by decide +kernel, by decide +kernel⟩

theorem witness_AccessorsNeverFail : Instr.fldAddr = .fldNat ∨ Instr.fldAddr = .fldPlan ∨ Instr.fldAddr = .fldExt ∨
    Instr.fldAddr = .fldAddr := by decide

/-- "1" and "12": an odd and an even length. -/
theorem witness_DigitFieldRoundTrip :
    (1 ∈ (withText [0x31]).cfg.params.natureDefined ∧ 1 ∈ (withText [0x31]).cfg.params.planDefined ∧
      1 ≠ (withText [0x31]).cfg.params.alnumPlan ∧ (withText [0x31]).iclen.toNat ≤ (withText [0x31]).cfg.params.ichrCap ∧
      (withText [0x31]).iclen.toNat ≤ 38 ∧
      ∀ i < (withText [0x31]).iclen.toNat, IsDigitChar ((withText [0x31]).ichr.read .ichr i)) ∧
    ∀ i < (withText [0x31, 0x32]).iclen.toNat, IsDigitChar ((withText [0x31, 0x32]).ichr.read .ichr i) := by
  unfold IsDigitChar; decide +kernel

/-- Seven septets, so that the trailing character appears. -/
theorem witness_AlphanumericFieldRoundTrip :
    g7Map defaultParams (stringOperand (withText [0x31, 0x32, 0x33, 0x34, 0x35, 0x36, 0x37])) =
      .ok [0x31, 0x32, 0x33, 0x34, 0x35, 0x36, 0x37] ∧
    1 + (7 * 7 + 7) / 8 ≤ (withText [0x31, 0x32, 0x33, 0x34, 0x35, 0x36, 0x37]).cfg.params.rawCap :=
  ⟨by decide +kernel, by decide +kernel⟩

/-- W8: "123" with nature 1, plan 1, and with nature 4, plan 9. -/
theorem witness_HeaderIsolation :
    (withField [0x11, 0x21, 0xF3]).cfg = (withField [0x49, 0x21, 0xF3]).cfg ∧
    (withField [0x11, 0x21, 0xF3]).rawLen ≠ 0 ∧ (withField [0x49, 0x21, 0xF3]).rawLen ≠ 0 ∧
    (withField [0x11, 0x21, 0xF3]).raw.read .raw 0 = (withField [0x11, 0x43]).raw.read .raw 0 ∧
    (withField [0x11, 0x21, 0xF3]).rawLen = (withField [0x49, 0x21, 0xF3]).rawLen ∧
    (∀ i < 3, 1 ≤ i → (withField [0x11, 0x21, 0xF3]).raw.read .raw i = (withField [0x49, 0x21, 0xF3]).raw.read .raw i) ∧
    (hdrPlan ((withField [0x11, 0x21, 0xF3]).raw.read .raw 0) = defaultParams.alnumPlan ↔
      hdrPlan ((withField [0x49, 0x21, 0xF3]).raw.read .raw 0) = defaultParams.alnumPlan) := by decide +kernel

/-- A command that is not FLD_CONS or FLD_LOAD, one of them that fails, and one that succeeds. -/
theorem witness_FieldWrittenWholeOrNotAtAll :
    (Instr.fldRaw.writesField = false ∧ ∃ t, exec .fldRaw (withField [0x91]) = .next t) ∧
    (∃ t, exec .fldLoad { State.reset with ilen := 257 } = .next t ∧ statusCause t.status ≠ 0) ∧
    (Instr.fldLoad.writesField = true ∧ ∃ t, exec .fldLoad (withBytes [0x91]) = .next t ∧ statusCause t.status = 0) :=
  ⟨⟨rfl, _, rfl⟩, ⟨_, rfl, by decide +kernel⟩, rfl, _, rfl, by decide +kernel⟩

theorem witness_ErrorLeavesStateButReport :
    ∃ t, exec .bcdEnc (withText [0x61]) = .next t ∧ statusCause t.status ≠ 0 := ⟨_, rfl, by decide +kernel⟩

theorem witness_StickyClearedOnlyByReset :
    (∃ t, step { withHost [.readReg 0x01] with status := 0x00000100 } = .next t ∧ statusSticky 0x00000100 = true) ∧
    ∃ t, execute 0x17 State.reset = .next t ∧ statusCause t.status ≠ 0 :=
  ⟨⟨_, rfl, by decide⟩, _, rfl, by decide +kernel⟩

theorem witness_CommandsWriteOnlyTheirResults : ∃ t, exec .fldRaw (withField [0x91]) = .next t := ⟨_, rfl⟩

theorem witness_SuccessKeepsElementsBeyondLength :
    (withField [0x91]).rawLen.toNat ≤ (withField [0x91]).cfg.params.rawCap ∧
    (∃ t, exec .fldRaw (withField [0x91]) = .next t ∧ statusCause t.status = 0) ∧
    (∃ t, exec .fldAddr (withField [0x91]) = .next t ∧ statusCause t.status = 0) ∧
    Instr.fldRaw.writesField = false ∧ Instr.fldRaw.writesChars = false ∧ Instr.fldAddr.writesBytes = false :=
  ⟨by decide +kernel, ⟨_, rfl, by decide +kernel⟩, ⟨_, rfl, by decide +kernel⟩, rfl, rfl, rfl⟩

theorem witness_OnlyAccessesChangeTheMachine : State.reset.pending = [] := rfl

end Sys2Proof.Tests
end

section
/-! PROOFS. Which configurations are refused (spec/00_scope.md R13, spec/42_gsm7.md R80): the model's check
`Params.wf` answers true exactly for the parameters that meet the constraints as the rules word them. -/

namespace Sys2Proof.Machine

/-! ## From the check to the constraints -/

/-- The keys of the basic table are the septets other than the escape (R80 (a)). -/
theorem mem_basic_keys_iff (c : Config) (x : Septet) :
    x ∈ c.params.gsm7Basic.map Prod.fst ↔ x ≠ escapeSeptet := by
  obtain ⟨-, -, noEscape, -⟩ := config_tables c
  refine ⟨fun hx => ?_, basic_total c⟩
  obtain ⟨e, he, rfl⟩ := List.mem_map.1 hx
  exact noEscape e he

/-- What the check accepts meets every constraint. -/
theorem config_meetsConstraints (c : Config) : MeetsConstraints c.params := by
  have caps := config_caps c
  obtain ⟨basicMap, basicInjective, -, -, extMap, extInjective, extNoEscape, disjoint⟩ := config_tables c
  constructor
  case alnumPlan => exact List.contains_iff_mem.1 (alnumPlan_defined c)
  case basicTotal => exact mem_basic_keys_iff c
  case basicMap => exact basicMap
  case basicInjective => exact basicInjective
  case extMap => exact extMap
  case extInjective => exact extInjective
  case extNoEscape =>
    intro hm
    obtain ⟨e, he, hx⟩ := List.mem_map.1 hm
    exact extNoEscape e he hx
  case disjoint =>
    intro ch hext hbasic
    obtain ⟨e, he, rfl⟩ := List.mem_map.1 hext
    obtain ⟨b, hb, hbe⟩ := List.mem_map.1 hbasic
    exact disjoint e he b hb hbe.symm
  -- the capacities of R13 (a) to (d)
  all_goals omega

/-! ## From the constraints to the check -/

/-- `distinct` compares the words of a table column as numbers, which repeats none that differ. -/
theorem distinct_toNat_of_nodup {α : Type} {w : Nat} {l : List α} {f : α → BitVec w} (h : (l.map f).Nodup) :
    distinct (l.map fun e => (f e).toNat) = true := by
  have hnat := h.map (f := BitVec.toNat) fun _ _ => BitVec.eq_of_toNat_eq
  rw [List.map_map] at hnat
  exact distinct_of_nodup hnat

/-- Septets that are all there but the escape, each once, are 127. -/
theorem length_eq_of_mem_iff_ne_escape {keys : List Septet} (hmap : keys.Nodup)
    (htotal : ∀ x : Septet, x ∈ keys ↔ x ≠ escapeSeptet) : keys.length = 127 := by
  have hset : keys.toFinset = Finset.univ.erase escapeSeptet := by
    ext x
    simp [htotal]
  rw [← List.toFinset_card_of_nodup hmap, hset, Finset.card_erase_of_mem (Finset.mem_univ _), Finset.card_univ,
    Fintype.card_congr BitVec.equivFin.toEquiv, Fintype.card_fin]
  norm_num

/-- A table without the key 0x1B passes the check's own form of that constraint. -/
theorem all_ne_escape_of_notMem {l : List (Septet × Char16)} (h : escapeSeptet ∉ l.map Prod.fst) :
    (l.all fun e => e.1 != escapeSeptet) = true :=
  List.all_eq_true.2 fun _ he => bne_iff_ne.2 fun hx => h (hx ▸ List.mem_map_of_mem he)

namespace MeetsConstraints

variable {p : Params} (h : MeetsConstraints p)
include h

/-- R13 (b). -/
theorem bufferCapsOk : p.bufferCapsOk = true := by
  simp only [Params.bufferCapsOk, capInRange, Bool.and_eq_true, decide_eq_true_eq]
  exact ⟨⟨⟨h.ibufCap, h.ichrCap⟩, h.obufCap⟩, h.ochrCap⟩

/-- R13 (d). -/
theorem ochrHoldsDecoded_eq_true : p.ochrHoldsDecoded = true :=
  have ⟨h255, hrest⟩ := max_le_iff.1 h.ochrHoldsDecoded
  decide_eq_true ⟨h255, max_le_iff.1 hrest⟩

/-- R80 (a). -/
theorem basicTableOk : p.basicTableOk = true := by
  have hlen : p.gsm7Basic.length = 127 := by
    rw [← length_eq_of_mem_iff_ne_escape h.basicMap h.basicTotal, List.length_map]
  have hescape := all_ne_escape_of_notMem fun hm => (h.basicTotal escapeSeptet).1 hm rfl
  simp only [Params.basicTableOk, Bool.and_eq_true]
  exact ⟨⟨⟨distinct_toNat_of_nodup h.basicMap, distinct_toNat_of_nodup h.basicInjective⟩, hescape⟩,
    Nat.beq_eq.mpr hlen⟩

/-- R80 (b). -/
theorem extTableOk : p.extTableOk = true := by
  simp only [Params.extTableOk, Bool.and_eq_true]
  exact ⟨⟨distinct_toNat_of_nodup h.extMap, distinct_toNat_of_nodup h.extInjective⟩,
    all_ne_escape_of_notMem h.extNoEscape⟩

/-- R80 (c). -/
theorem tablesDisjoint : p.tablesDisjoint = true := by
  refine List.all_eq_true.2 fun e he => List.all_eq_true.2 fun b hb => ?_
  have hne : e.2 ≠ b.2 := fun heq => h.disjoint e.2 (List.mem_map_of_mem he) (heq ▸ List.mem_map_of_mem hb)
  rw [Bool.not_eq_true', ← Bool.not_eq_true, Nat.beq_eq, BitVec.toNat_inj]
  exact hne

/-- Parameters that meet every constraint pass the check. -/
theorem wf : p.wf = true := by
  simp only [Params.wf, Bool.and_eq_true]
  exact ⟨⟨⟨⟨⟨⟨⟨decide_eq_true h.rawCap, h.bufferCapsOk⟩, decide_eq_true h.obufHoldsRaw⟩, h.ochrHoldsDecoded_eq_true⟩,
    List.contains_iff_mem.2 h.alnumPlan⟩, h.basicTableOk⟩, h.extTableOk⟩, h.tablesDisjoint⟩

end MeetsConstraints

/-- R13, R80: the check and the constraints agree. -/
theorem wf_iff_meetsConstraints (p : Params) : p.wf = true ↔ MeetsConstraints p :=
  ⟨fun h => config_meetsConstraints ⟨p, h⟩, MeetsConstraints.wf⟩

/-! ## What `powerOn` answers -/

theorem powerOn_of_wf {p : Params} (h : p.wf = true) : powerOn p = .next (State.resetWith ⟨p, h⟩) := dif_pos h

theorem powerOn_refused_iff (p : Params) : powerOn p = .refused .illFormedConfig ↔ ¬ p.wf = true := by
  by_cases h : p.wf = true
  · simp [powerOn_of_wf h, h]
  · simp [powerOn, h]

/-- Settles O12: `powerOn` refuses what fails the check, and the check says what the constraints say. -/
theorem illFormedConfigurationRefused : Obligations.IllFormedConfigurationRefused := by
  unfold Obligations.IllFormedConfigurationRefused
  refine ⟨config_meetsConstraints defaultConfig, fun p => ⟨?_, fun h => ⟨h.wf, powerOn_of_wf h.wf⟩⟩⟩
  rw [powerOn_refused_iff, wf_iff_meetsConstraints]

end Sys2Proof.Machine
end

section
/-! SUPPORT. What a command can do, said once (spec/10_state.md, section 1; spec/60_exceptions.md R102, R103): every
command ends in one of the successes or one of the failures below, and what commands keep follows from these cases. -/

namespace Sys2Proof.Machine

/-! ## The cases -/

/-- The states in which a command can end when it succeeds (R102): its result written, and STATUS completed. A result
fits its store; those that come from the FIELD storage do so where RAWLEN is inside its capacity (R20). -/
inductive CommandSucceeds (s : State) : Instr → State → Prop
  | bytes {i : Instr} (bs : List Byte) (writer : i.writesBytes = true)
      (fits : s.rawLen.toNat ≤ s.cfg.params.rawCap → bs.length ≤ s.cfg.params.obufCap) :
      CommandSucceeds s i (complete (putBytes bs s))
  | chars {i : Instr} (cs : List Char16) (decoder : (∃ c, i = .bcdDec c) ∨ i = .g7Dec)
      (fits : cs.length ≤ s.cfg.params.ochrCap) : CommandSucceeds s i (complete (putChars cs s))
  | field {i : Instr} (bs : List Byte) (writer : i.writesField = true) (fits : bs.length ≤ s.cfg.params.rawCap) :
      CommandSucceeds s i (complete (putField bs s))
  | result {i : Instr} (v : Word) (reader : (∃ b, i = .hdrDec b) ∨ i = .fldNat ∨ i = .fldPlan ∨ i = .fldExt)
      (legal : ResLegal s.cfg.params v) : CommandSucceeds s i (resultCommand v s)
  | nullAddress : CommandSucceeds s .fldAddr (resultCommand 0 (clearChars s))
  | address (cs : List Char16) (fits : s.rawLen.toNat ≤ s.cfg.params.rawCap → cs.length ≤ s.cfg.params.ochrCap) :
      CommandSucceeds s .fldAddr (resultCommand (resWord 0 0 false false false false true) (putChars cs s))

/-- The states in which a command can end when it fails (R103). -/
inductive CommandFails (s : State) : Instr → State → Prop
  | field {i : Instr} (e : AfcError) (writer : i.writesField = true) : CommandFails s i (raise e s)
  | encoderOperand {i : Instr} (e : AfcError) (encoder : i = .bcdEnc ∨ i = .g7Enc) :
      CommandFails s i (raiseEncoder e s)
  | encoderCodec {i : Instr} (e : AfcError) (encoder : i = .bcdEnc ∨ i = .g7Enc) : CommandFails s i (raiseEncoded e s)
  | decoderOperand {i : Instr} (e : AfcError) (decoder : (∃ c, i = .bcdDec c) ∨ i = .g7Dec) :
      CommandFails s i (raiseDecoder e s)
  | decoderCodec {i : Instr} (e : AfcError) (decoder : (∃ c, i = .bcdDec c) ∨ i = .g7Dec) :
      CommandFails s i (raiseDecoded e s)

variable {i : Instr} {s t : State}

theorem CommandSucceeds.statusCause_eq_zero (h : CommandSucceeds s i t) : statusCause t.status = 0 := by
  cases h <;> exact statusCause_afterSuccess _

theorem statusCause_afterError_ne_zero (e : AfcError) : statusCause (statusAfterError e) ≠ 0 := by
  rw [statusCause_afterError]
  exact e.cause_ne_zero

theorem CommandFails.statusCause_ne_zero (h : CommandFails s i t) : statusCause t.status ≠ 0 := by
  cases h <;> exact statusCause_afterError_ne_zero _

/-! ## The shared operations reach no other state -/

/-- BCD_ENC, G7_ENC. -/
theorem encodeOperand_ends (hi : i = .bcdEnc ∨ i = .g7Enc) (codec : List Char16 → Except AfcError (List Byte)) :
    CommandSucceeds s i (encodeOperand codec s) ∨ CommandFails s i (encodeOperand codec s) := by
  have writer : i.writesBytes = true := by rcases hi with rfl | rfl <;> rfl
  obtain ⟨-, heq⟩ | ⟨-, e, -, heq⟩ | ⟨-, r, -, -, heq⟩ | ⟨-, r, -, fits, heq⟩ := encodeOperand_cases codec s <;>
    rw [heq]
  · exact .inr (.encoderOperand _ hi)
  · exact .inr (.encoderCodec _ hi)
  · exact .inr (.encoderCodec _ hi)
  · exact .inl (.bytes r writer fun _ => fits)

/-- BCD_DEC, G7_DEC: what the codec makes of an operand inside IBUF fits OCHR. -/
theorem decodeOperand_ends (hi : (∃ c, i = .bcdDec c) ∨ i = .g7Dec) {codec : List Byte → Except AfcError (List Char16)}
    (fits : ∀ bs cs, bs.length ≤ s.cfg.params.ibufCap → codec bs = .ok cs → cs.length ≤ s.cfg.params.ochrCap) :
    CommandSucceeds s i (decodeOperand codec s) ∨ CommandFails s i (decodeOperand codec s) := by
  obtain ⟨-, heq⟩ | ⟨-, e, -, heq⟩ | ⟨hover, cs, hcs, heq⟩ := decodeOperand_cases codec s <;> rw [heq]
  · exact .inr (.decoderOperand _ hi)
  · exact .inr (.decoderCodec _ hi)
  · refine .inl (.chars cs hi (fits (byteOperand s) cs ?_ hcs))
    simpa [ibufOver, byteOperand] using hover

/-- FLD_CONS, FLD_LOAD. -/
theorem storeField_ends (writer : i.writesField = true) {r : Except AfcError (List Byte)}
    (fits : ∀ bs, r = .ok bs → bs.length ≤ s.cfg.params.rawCap) :
    CommandSucceeds s i (storeField r s) ∨ CommandFails s i (storeField r s) := by
  obtain ⟨e, -, heq⟩ | ⟨bs, hbs, heq⟩ := storeField_cases r s <;> rw [heq]
  · exact .inr (.field e writer)
  · exact .inl (.field bs writer (fits bs hbs))

/-- FLD_ADDR. -/
theorem addressResult_succeeds {v : Option (List Char16)}
    (fits : ∀ cs, v = some cs → s.rawLen.toNat ≤ s.cfg.params.rawCap → cs.length ≤ s.cfg.params.ochrCap) :
    CommandSucceeds s .fldAddr (addressResult v s) := by
  obtain ⟨-, heq⟩ | ⟨cs, hcs, heq⟩ := addressResult_cases v s <;> rw [heq]
  · exact .nullAddress
  · exact .address cs (fits cs hcs)

/-! ## What the results are -/

theorem resLegal_hdrResult (p : Params) (b : Byte) : ResLegal p (hdrResult p b) := resLegal_resWord _ _ _ id id

theorem resLegal_natResult (p : Params) : ∀ h : Option Byte, ResLegal p (natResult p h)
  | none => resLegal_zero p
  | some _ => resLegal_resWord _ _ _ id nofun

theorem resLegal_planResult (p : Params) : ∀ h : Option Byte, ResLegal p (planResult p h)
  | none => resLegal_zero p
  | some _ => resLegal_resWord _ _ _ nofun id

theorem resLegal_extResult (p : Params) : ∀ h : Option Byte, ResLegal p (extResult h)
  | none => resLegal_zero p
  | some _ => resLegal_resWord _ _ _ nofun nofun

@[simp] theorem fieldBytes_length (s : State) : (fieldBytes s).length = s.rawLen.toNat := readPrefix_length _ _ _

/-- The digits that an 8-bit digit count asks for fit OCHR (R77, R13 (d)). -/
theorem bcdDecode_fits (c : Config) {bs : List Byte} {imm8 : Byte} {cs : List Char16}
    (h : bcdDecode bs imm8.toNat = .ok cs) : cs.length ≤ c.params.ochrCap := by
  have hlen := bcdDecode_ok_length h
  have hcap : 255 ≤ c.params.ochrCap := by have := config_caps c; omega
  have hcount := imm8.isLt
  omega

/-- The text of an operand inside IBUF fits OCHR (R89, R13 (d)). -/
theorem g7Decode_fits (c : Config) {bs : List Byte} {cs : List Char16} (hbs : bs.length ≤ c.params.ibufCap)
    (h : g7Decode c.params bs = .ok cs) : cs.length ≤ c.params.ochrCap := by
  have hlen := g7Decode_ok_length h
  have hcap : 8 * c.params.ibufCap / 7 ≤ c.params.ochrCap := by have := config_caps c; omega
  omega

/-- The address of a field inside RAW fits OCHR (R99, R13 (d)). -/
theorem fieldAddress_fits (c : Config) {raw : List Byte} {cs : List Char16} (hraw : raw.length ≤ c.params.rawCap)
    (h : fieldAddress c.params raw = some cs) : cs.length ≤ c.params.ochrCap := by
  have hlen := fieldAddress_length h
  have hcap : 2 * (c.params.rawCap - 1) ≤ c.params.ochrCap ∧ 8 * (c.params.rawCap - 1) / 7 ≤ c.params.ochrCap := by
    have := config_caps c; omega
  omega

/-! ## Lengths of results -/

/-- A length inside a capacity is not cut by a 16-bit register (R13 (a), (b)). -/
theorem toNat_ofNat_length {α : Type} {l : List α} {cap : Nat} (fits : l.length ≤ cap) (hcap : cap ≤ 65535) :
    (BitVec.ofNat 16 l.length).toNat = l.length := by
  rw [BitVec.toNat_ofNat, Nat.mod_eq_of_lt (by omega)]

/-- OLEN after a byte result that fits. -/
theorem putBytes_olen_toNat {bs : List Byte} (fits : bs.length ≤ s.cfg.params.obufCap) :
    (putBytes bs s).olen.toNat = bs.length :=
  toNat_ofNat_length fits (by have := config_caps s.cfg; omega)

/-- OCLEN after a string result that fits. -/
theorem putChars_oclen_toNat {cs : List Char16} (fits : cs.length ≤ s.cfg.params.ochrCap) :
    (putChars cs s).oclen.toNat = cs.length :=
  toNat_ofNat_length fits (by have := config_caps s.cfg; omega)

/-- RAWLEN after a field that fits. -/
theorem putField_rawLen_toNat {bs : List Byte} (fits : bs.length ≤ s.cfg.params.rawCap) :
    (putField bs s).rawLen.toNat = bs.length :=
  toNat_ofNat_length fits (by have := config_caps s.cfg; omega)

/-- The elements from a length register on, where the register holds the length of the result written (R35). -/
theorem sameFrom_writePrefix_length {w n : Nat} (which : Store) (m : Memory w) {vs : List (BitVec w)}
    (hn : n = vs.length) : SameFrom which n m (m.writePrefix vs) := hn ▸ sameFrom_writePrefix which m vs

/-! ## Every command -/

/-- A command that writes the FIELD storage stores what it made, or reports its error, and what it makes does not depend
on what the FIELD storage held (R24, R91, R92). -/
theorem exec_fieldWriter (hi : i.writesField = true) (s : State) : ∃ r : Except AfcError (List Byte),
    (∀ bs, r = .ok bs → bs.length ≤ s.cfg.params.rawCap) ∧ exec i s = .next (storeField r s) ∧
    ∀ (before : Memory 8) (len : BitVec 16), exec i { s with raw := before, rawLen := len } =
      .next (storeField r { s with raw := before, rawLen := len }) := by
  cases i with
  | fldCons => exact ⟨_, fun _ => consField_ok_fits, rfl, fun _ _ => rfl⟩
  | fldLoad =>
    refine ⟨loadField s, fun bs hbs => ?_, rfl, fun _ _ => rfl⟩
    obtain ⟨rfl, -, fits⟩ := loadField_ok hbs
    simpa [byteOperand] using fits
  | _ => exact absurd hi (by simp [Instr.writesField])

/-- Every command ends, and in one of the successes or failures. -/
theorem exec_ends (i : Instr) (s : State) :
    ∃ t, exec i s = .next t ∧ (CommandSucceeds s i t ∨ CommandFails s i t) := by
  have caps : 1 ≤ s.cfg.params.obufCap ∧ s.cfg.params.rawCap ≤ s.cfg.params.obufCap := by
    have := config_caps s.cfg; omega
  by_cases hw : i.writesField = true
  · obtain ⟨r, fits, hexec, -⟩ := exec_fieldWriter hw s
    exact ⟨_, hexec, storeField_ends hw fits⟩
  cases i with
  | hdrEnc => exact ⟨_, rfl, .inl (.bytes _ rfl fun _ => caps.1)⟩
  | hdrDec b => exact ⟨_, rfl, .inl (.result _ (.inl ⟨b, rfl⟩) (resLegal_hdrResult _ b))⟩
  | bcdEnc => exact ⟨_, rfl, encodeOperand_ends (.inl rfl) _⟩
  | bcdDec c => exact ⟨_, rfl, decodeOperand_ends (.inl ⟨c, rfl⟩) fun _ _ _ => bcdDecode_fits s.cfg⟩
  | g7Enc => exact ⟨_, rfl, encodeOperand_ends (.inr rfl) _⟩
  | g7Dec => exact ⟨_, rfl, decodeOperand_ends (.inr rfl) fun _ _ => g7Decode_fits s.cfg⟩
  | fldCons => exact absurd rfl hw
  | fldLoad => exact absurd rfl hw
  | fldRaw => exact ⟨_, rfl, .inl (.bytes _ rfl fun h => by rw [fieldBytes_length]; exact h.trans caps.2)⟩
  | fldNat => exact ⟨_, rfl, .inl (.result _ (.inr (.inl rfl)) (resLegal_natResult _ _))⟩
  | fldPlan => exact ⟨_, rfl, .inl (.result _ (.inr (.inr (.inl rfl))) (resLegal_planResult _ _))⟩
  | fldExt => exact ⟨_, rfl, .inl (.result _ (.inr (.inr (.inr rfl))) (resLegal_extResult _ _))⟩
  | fldAddr =>
    refine ⟨_, rfl, .inl (addressResult_succeeds fun _ hcs hraw => fieldAddress_fits s.cfg ?_ hcs)⟩
    rwa [fieldBytes_length]

/-- The state after a command is one of its successes or failures. -/
theorem exec_cases (h : exec i s = .next t) : CommandSucceeds s i t ∨ CommandFails s i t := by
  obtain ⟨u, hu, ends⟩ := exec_ends i s
  cases h.symm.trans hu
  exact ends

/-- CAUSE 0 after a command means success (R102, R103). -/
theorem succeeds_of_statusCause_eq_zero (h : exec i s = .next t) (hc : statusCause t.status = 0) :
    CommandSucceeds s i t :=
  (exec_cases h).resolve_right fun hf => hf.statusCause_ne_zero hc

/-- A nonzero CAUSE after a command means failure (R102, R103). -/
theorem fails_of_statusCause_ne_zero (h : exec i s = .next t) (hc : statusCause t.status ≠ 0) : CommandFails s i t :=
  (exec_cases h).resolve_left fun hs => hc hs.statusCause_eq_zero

end Sys2Proof.Machine
end

section
/-! PROOFS. Every step keeps the machine's invariant (spec/10_state.md R20, R27 to R30, R35; spec/60_exceptions.md R101;
spec/70_reset_and_hazards.md R111): first each operation, then each host access. -/

namespace Sys2Proof.Machine

variable {s t : State}

/-! ## The operations of a command, with the reset input released -/

section Operations

variable (h : s.Inv) (hr : s.resetLine = false)
include h hr

theorem inv_complete : (complete s).Inv :=
  { h with statusLegal := statusLegal_afterSuccess _, inReset := by simp [hr] }

theorem inv_raise (e : AfcError) : (raise e s).Inv :=
  { h with statusLegal := statusLegal_afterError e, inReset := by simp [hr] }

theorem inv_raiseEncoder (e : AfcError) : (raiseEncoder e s).Inv :=
  { inv_raise h hr e with olenFits := Nat.zero_le _, bytesListed := by simp, inReset := by simp [hr] }

theorem inv_raiseDecoder (e : AfcError) : (raiseDecoder e s).Inv :=
  { inv_raise h hr e with oclenFits := Nat.zero_le _, charsListed := by simp, inReset := by simp [hr] }

theorem inv_raiseEncoded (e : AfcError) : (raiseEncoded e s).Inv :=
  { inv_raiseEncoder h hr e with obufWf := forget_wf _ _, bytesListed := by simp, inReset := by simp [hr] }

theorem inv_raiseDecoded (e : AfcError) : (raiseDecoded e s).Inv :=
  { inv_raiseDecoder h hr e with ochrWf := forget_wf _ _, charsListed := by simp, inReset := by simp [hr] }

theorem inv_clearChars : (clearChars s).Inv :=
  { h with oclenFits := Nat.zero_le _, charsListed := by simp, inReset := by simp [hr] }

theorem inv_putRes {v : Word} (legal : ResLegal s.cfg.params v) : (putRes v s).Inv :=
  { h with resLegal := legal, inReset := by simp [hr] }

theorem inv_putBytes {bs : List Byte} (fits : bs.length ≤ s.cfg.params.obufCap) : (putBytes bs s).Inv :=
  { h with
    obufWf := writePrefix_wf h.obufWf fits
    olenFits := (putBytes_olen_toNat fits).trans_le fits
    bytesListed := fun _ hi => listed_writePrefix _ bs (hi.trans_eq (putBytes_olen_toNat fits))
    inReset := by simp [hr] }

theorem inv_putChars {cs : List Char16} (fits : cs.length ≤ s.cfg.params.ochrCap) : (putChars cs s).Inv :=
  { h with
    ochrWf := writePrefix_wf h.ochrWf fits
    oclenFits := (putChars_oclen_toNat fits).trans_le fits
    charsListed := fun _ hi => listed_writePrefix _ cs (hi.trans_eq (putChars_oclen_toNat fits))
    inReset := by simp [hr] }

theorem inv_putField {bs : List Byte} (fits : bs.length ≤ s.cfg.params.rawCap) : (putField bs s).Inv :=
  { h with
    rawWf := writePrefix_wf h.rawWf fits
    rawLenFits := (putField_rawLen_toNat fits).trans_le fits
    fieldListed := fun _ hi => listed_writePrefix _ bs (hi.trans_eq (putField_rawLen_toNat fits))
    inReset := by simp [hr] }

theorem inv_resultCommand {v : Word} (legal : ResLegal s.cfg.params v) : (resultCommand v s).Inv :=
  inv_complete (inv_putRes h hr legal) hr

/-! ## Commands and words -/

theorem CommandSucceeds.inv {i : Instr} (hc : CommandSucceeds s i t) : t.Inv := by
  cases hc with
  | bytes bs _ fits => exact inv_complete (inv_putBytes h hr (fits h.rawLenFits)) hr
  | chars cs _ fits => exact inv_complete (inv_putChars h hr fits) hr
  | field bs _ fits => exact inv_complete (inv_putField h hr fits) hr
  | result v _ legal => exact inv_resultCommand h hr legal
  | nullAddress => exact inv_resultCommand (inv_clearChars h hr) hr (resLegal_zero _)
  | address cs fits =>
    exact inv_resultCommand (inv_putChars h hr (fits h.rawLenFits)) hr (resLegal_resWord _ _ _ nofun nofun)

theorem CommandFails.inv {i : Instr} (hc : CommandFails s i t) : t.Inv := by
  cases hc with
  | field e => exact inv_raise h hr e
  | encoderOperand e => exact inv_raiseEncoder h hr e
  | encoderCodec e => exact inv_raiseEncoded h hr e
  | decoderOperand e => exact inv_raiseDecoder h hr e
  | decoderCodec e => exact inv_raiseDecoded h hr e

/-- Every command keeps the invariant. -/
theorem inv_exec {i : Instr} (hx : exec i s = .next t) : t.Inv :=
  (exec_cases hx).elim (·.inv h hr) (·.inv h hr)

/-- Every word written to CMD keeps the invariant, legal or not (R60). -/
theorem inv_execute {v : Word} (hx : execute v s = .next t) : t.Inv := by
  obtain ⟨e, -, heq⟩ | ⟨i, -, heq⟩ := execute_cases v s <;> rw [heq] at hx
  · cases hx
    exact inv_raise h hr _
  · exact inv_exec h hr hx

/-! ## Host writes with the reset input released -/

theorem inv_hostWriteReg {r : BitVec 8} {v : Word} (hx : hostWriteReg r v s = .next t) : t.Inv := by
  obtain ⟨-, heq⟩ | ⟨-, heq⟩ | ⟨-, heq⟩ | ⟨-, -, -, heq⟩ := hostWriteReg_cases r v s <;> rw [heq] at hx
  · exact inv_execute (s := { s with cmd := v }) { h with inReset := by simp [hr] } hr hx
  · cases hx
    exact { h with inReset := by simp [hr] }
  · cases hx
    exact { h with inReset := by simp [hr] }
  · cases hx
    exact h

end Operations

/-! ## Host accesses that touch no register -/

/-- The lists of accesses and of values read are no state of the AFC (log 2). -/
theorem inv_pending_reads (h : s.Inv) (rest : List HostAccess) (vs : List Word) :
    State.Inv { s with pending := rest, reads := vs } := { h with }

theorem inv_hostWriteBuf (h : s.Inv) (b : HostBuf) (i : Nat) (v : Word) : (hostWriteBuf b i v s).Inv := by
  obtain ⟨-, hi, heq⟩ | ⟨-, hi, heq⟩ | heq := hostWriteBuf_cases b i v s <;> rw [heq]
  · exact { h with ibufWf := write_wf _ h.ibufWf hi }
  · exact { h with ichrWf := write_wf _ h.ichrWf hi }
  · exact h

/-- A change of the reset input (R111). -/
theorem inv_resetTo (line : Bool) (s : State) : (resetTo line s).Inv where
  rawWf := forget_wf _ _
  ibufWf := forget_wf _ _
  ichrWf := forget_wf _ _
  obufWf := forget_wf _ _
  ochrWf := forget_wf _ _
  rawLenFits := Nat.zero_le _
  olenFits := Nat.zero_le _
  oclenFits := Nat.zero_le _
  fieldListed := by simp
  bytesListed := by simp
  charsListed := by simp
  statusLegal := statusLegal_zero
  resLegal := resLegal_zero _
  inReset := fun _ => ⟨rfl, rfl, rfl, rfl, rfl, rfl, rfl, rfl⟩

/-! ## Every access -/

theorem inv_accessRunning (h : s.Inv) (hr : s.resetLine = false) {a : HostAccess} (hx : accessRunning a s = .next t) :
    t.Inv := by
  cases a with
  | writeReg r v => exact inv_hostWriteReg h hr hx
  | readReg r => cases hx; exact inv_pending_reads h _ _
  | writeBuf b i v => cases hx; exact inv_hostWriteBuf h b i v
  | readBuf b i => cases hx; exact inv_pending_reads h _ _
  | assertReset => cases hx; exact inv_resetTo true s
  | releaseReset => cases hx; exact h

theorem inv_accessInReset (h : s.Inv) (a : HostAccess) : (accessInReset a s).Inv := by
  cases a with
  | writeReg r v => exact h
  | readReg r => exact inv_pending_reads h _ _
  | writeBuf b i v => exact h
  | readBuf b i => exact inv_pending_reads h _ _
  | assertReset => exact h
  | releaseReset => exact inv_resetTo false s

/-- Settles O11: a step takes no access, one in reset, or one of the running machine, and each keeps the invariant. -/
theorem stepKeepsInvariant : Obligations.StepKeepsInvariant := by
  unfold Obligations.StepKeepsInvariant
  intro s t h hstep
  obtain ⟨-, heq⟩ | ⟨a, rest, -, -, heq⟩ | ⟨a, rest, -, hr, heq⟩ := step_cases s <;> rw [heq] at hstep
  · cases hstep
    exact h
  · cases hstep
    exact inv_accessInReset (inv_pending_reads h rest _) a
  · exact inv_accessRunning (inv_pending_reads h rest _) hr hstep

end Sys2Proof.Machine
end

section
/-! PROOFS. What commands write and what they leave alone (spec/10_state.md, section 1, R24, R31, R35, R38), from the
cases in which a command can end. -/

namespace Sys2Proof.Machine

variable {i : Instr} {s t : State}

/-! ## Frames -/

/-- A failed command writes STATUS and its own result, and no more (R103, R106). -/
theorem CommandFails.frame (h : CommandFails s i t) : SameHostSide s t ∧ SameField s t ∧ t.res = s.res := by
  cases h <;> exact ⟨⟨rfl, rfl, rfl, rfl, rfl, rfl, rfl, rfl, rfl⟩, ⟨rfl, rfl⟩, rfl⟩

theorem CommandSucceeds.sameHostSide (h : CommandSucceeds s i t) : SameHostSide s t := by
  cases h <;> exact ⟨rfl, rfl, rfl, rfl, rfl, rfl, rfl, rfl, rfl⟩

theorem CommandSucceeds.sameField (h : CommandSucceeds s i t) (hi : i.writesField = false) : SameField s t := by
  cases h with
  | field bs writer => exact absurd writer (by simp [hi])
  | _ => exact ⟨rfl, rfl⟩

/-- The commands that write OBUF and OLEN (R38). -/
theorem writesBytes_iff : i.writesBytes = true ↔
    (∃ nat pln ext, i = .hdrEnc nat pln ext) ∨ i = .bcdEnc ∨ i = .g7Enc ∨ i = .fldRaw := by
  cases i <;> simp [Instr.writesBytes]

/-- The commands that write OCHR and OCLEN (R38). -/
theorem writesChars_iff : i.writesChars = true ↔ (∃ c, i = .bcdDec c) ∨ i = .g7Dec ∨ i = .fldAddr := by
  cases i <;> simp [Instr.writesChars]

/-- RES changes only by the commands that write it. -/
theorem CommandSucceeds.res (h : CommandSucceeds s i t) :
    t.res = s.res ∨ (∃ b, i = .hdrDec b) ∨ i = .fldNat ∨ i = .fldPlan ∨ i = .fldExt ∨ i = .fldAddr := by
  cases h with
  | bytes => exact .inl rfl
  | chars => exact .inl rfl
  | field => exact .inl rfl
  | result v reader => tauto
  | nullAddress => tauto
  | address => tauto

theorem sameBytes_of_exec (h : exec i s = .next t) : SameBytes s t ∨ i.writesBytes = true := by
  obtain h | h := exec_cases h
  · cases h with
    | bytes bs writer => exact .inr writer
    | _ => exact .inl ⟨rfl, rfl⟩
  · cases h with
    | encoderOperand e encoder => exact .inr (writesBytes_iff.2 (by tauto))
    | encoderCodec e encoder => exact .inr (writesBytes_iff.2 (by tauto))
    | _ => exact .inl ⟨rfl, rfl⟩

theorem sameChars_of_exec (h : exec i s = .next t) : SameChars s t ∨ i.writesChars = true := by
  obtain h | h := exec_cases h
  · cases h with
    | chars cs decoder => exact .inr (writesChars_iff.2 (by tauto))
    | nullAddress => exact .inr rfl
    | address => exact .inr rfl
    | _ => exact .inl ⟨rfl, rfl⟩
  · cases h with
    | decoderOperand e decoder => exact .inr (writesChars_iff.2 (by tauto))
    | decoderCodec e decoder => exact .inr (writesChars_iff.2 (by tauto))
    | _ => exact .inl ⟨rfl, rfl⟩

/-- Settles O56: each store and register is the same, or the command is among those that write it. -/
theorem commandsWriteOnlyTheirResults : Obligations.CommandsWriteOnlyTheirResults := by
  unfold Obligations.CommandsWriteOnlyTheirResults
  intro i s t h
  have hbytes := (sameBytes_of_exec h).imp_right writesBytes_iff.1
  have hchars := (sameChars_of_exec h).imp_right writesChars_iff.1
  obtain hs | hf := exec_cases h
  · exact ⟨hs.sameHostSide, hs.res, hbytes, hchars⟩
  · obtain ⟨hhost, -, hres⟩ := hf.frame
    exact ⟨hhost, .inl hres, hbytes, hchars⟩

/-! ## The FIELD storage -/

/-- A field command's success is the field it made, written whole (R24). -/
theorem storeField_succeeds {r : Except AfcError (List Byte)} (hc : statusCause (storeField r s).status = 0) :
    ∃ bs, r = .ok bs := by
  obtain ⟨e, -, heq⟩ | ⟨bs, hbs, -⟩ := storeField_cases r s
  · rw [heq] at hc
    exact absurd hc (statusCause_afterError_ne_zero e)
  · exact ⟨bs, hbs⟩

/-- Settles O53: a command that writes the FIELD storage makes its field from the other state, so it makes the same one
whatever the storage held. -/
theorem fieldWrittenWholeOrNotAtAll : Obligations.FieldWrittenWholeOrNotAtAll := by
  unfold Obligations.FieldWrittenWholeOrNotAtAll
  intro i s t h
  refine ⟨fun hkept => ?_, fun writer hc => ?_⟩
  · obtain hs | hf := exec_cases h
    · exact hs.sameField (hkept.resolve_right (not_not_intro hs.statusCause_eq_zero))
    · obtain ⟨-, hfield, -⟩ := hf.frame
      exact hfield
  · obtain ⟨r, fits, hexec, hother⟩ := exec_fieldWriter writer s
    cases h.symm.trans hexec
    obtain ⟨bs, rfl⟩ := storeField_succeeds hc
    have hlen : (putField bs s).rawLen.toNat = bs.length := putField_rawLen_toNat (fits bs rfl)
    refine ⟨sameFrom_writePrefix_length _ _ hlen, fun before len =>
      ⟨_, hother before len, rfl, rfl, fun k hk => ?_⟩⟩
    have hk : k < bs.length := hk.trans_eq hlen
    exact (read_writePrefix_lt .raw before bs hk).trans (read_writePrefix_lt .raw s.raw bs hk).symm

/-! ## Elements beyond a result -/

/-- The elements beyond the length of each result are as they were (R35). -/
theorem CommandSucceeds.sameFrom (h : CommandSucceeds s i t) (hraw : s.rawLen.toNat ≤ s.cfg.params.rawCap) :
    SameFrom .obuf t.olen.toNat s.obuf t.obuf ∧ SameFrom .ochr t.oclen.toNat s.ochr t.ochr ∧
    SameFrom .raw t.rawLen.toNat s.raw t.raw := by
  cases h with
  | bytes bs _ fits =>
    have hlen := putBytes_olen_toNat (fits hraw)
    exact ⟨sameFrom_writePrefix_length _ _ hlen, sameFrom_refl _ _ _, sameFrom_refl _ _ _⟩
  | chars cs _ fits =>
    have hlen := putChars_oclen_toNat fits
    exact ⟨sameFrom_refl _ _ _, sameFrom_writePrefix_length _ _ hlen, sameFrom_refl _ _ _⟩
  | field bs _ fits =>
    have hlen := putField_rawLen_toNat fits
    exact ⟨sameFrom_refl _ _ _, sameFrom_refl _ _ _, sameFrom_writePrefix_length _ _ hlen⟩
  | result => exact ⟨sameFrom_refl _ _ _, sameFrom_refl _ _ _, sameFrom_refl _ _ _⟩
  | nullAddress => exact ⟨sameFrom_refl _ _ _, sameFrom_refl _ _ _, sameFrom_refl _ _ _⟩
  | address cs fits =>
    have hlen := putChars_oclen_toNat (fits hraw)
    exact ⟨sameFrom_refl _ _ _, sameFrom_writePrefix_length _ _ hlen, sameFrom_refl _ _ _⟩

/-- Settles O57: the elements beyond each result, and the stores that the command does not write. -/
theorem successKeepsElementsBeyondLength : Obligations.SuccessKeepsElementsBeyondLength := by
  unfold Obligations.SuccessKeepsElementsBeyondLength
  intro i s t hraw h hc
  have hs := succeeds_of_statusCause_eq_zero h hc
  obtain ⟨hobuf, hochr, hfield⟩ := hs.sameFrom hraw
  obtain ⟨-, hibuf, -, hichr, -⟩ := hs.sameHostSide
  refine ⟨hobuf, hochr, hfield, hibuf, hichr, fun hi => ?_, fun hi => ?_, fun hi => (hs.sameField hi).1⟩
  · exact ((sameBytes_of_exec h).resolve_right (by simp [hi])).1
  · exact ((sameChars_of_exec h).resolve_right (by simp [hi])).1

end Sys2Proof.Machine
end

section
/-! PROOFS. The host port with the reset input released (spec/10_state.md R31 to R34; spec/20_memory.md R44, R48). -/

namespace Sys2Proof.Machine

variable {s : State} {rest : List HostAccess}

/-! ## Registers -/

/-- Settles O7: the write stores the word, and executing it is executing the command it decodes to. -/
theorem stepRunsDecodedCommand : Obligations.StepRunsDecodedCommand := by
  unfold Obligations.StepRunsDecodedCommand
  intro s v rest i hr hp hdecode _
  rw [step_running hr hp]
  obtain ⟨e, he, -⟩ | ⟨j, hj, heq⟩ := execute_cases v { s with pending := rest, cmd := v }
  · cases hdecode.symm.trans he
  · cases hdecode.symm.trans hj
    exact heq

/-- A read-only or reserved register index takes no write (R33). -/
theorem hostWriteReg_noEffect {r : BitVec 8} (h0 : r ≠ 0x00) (h3 : r ≠ 0x03) (h4 : r ≠ 0x04) (v : Word) (s : State) :
    hostWriteReg r v s = .next s := by
  simp only [hostWriteReg, if_neg h0, if_neg h3, if_neg h4]

/-- Settles O15: the length registers take the low half of the word, and every other index but CMD's takes nothing. -/
theorem registerWriteStoresLengths : Obligations.RegisterWriteStoresLengths := by
  unfold Obligations.RegisterWriteStoresLengths
  intro s r v rest hr hp
  rw [step_running hr hp]
  refine ⟨?_, ?_, fun h0 h3 h4 => ?_⟩
  · rintro rfl
    rfl
  · rintro rfl
    rfl
  · exact hostWriteReg_noEffect h0 h3 h4 v _

/-- A reserved register index reads 0 (R32). -/
theorem hostReadReg_reserved {r : BitVec 8} (h : 8 ≤ r.toNat) (s : State) : hostReadReg r s = 0 := by
  have hne (k : BitVec 8) (hk : k.toNat < 8) : r ≠ k := fun hrk => by subst hrk; omega
  simp [hostReadReg, hne]

/-- A length register is read with zeros above its 16 bits (R32). -/
theorem length_setWidth_toNat (n : BitVec 16) : (n.setWidth 32).toNat = n.toNat :=
  BitVec.toNat_setWidth_of_le (by decide)

/-- Settles O14: the value read is `hostReadReg` of the index, the register's value where it has one. -/
theorem registerReadReturnsValue : Obligations.RegisterReadReturnsValue := by
  unfold Obligations.RegisterReadReturnsValue
  intro s r rest hr hp
  refine ⟨hostReadReg r { s with pending := rest }, step_running hr hp, ?_, ?_, ?_, ?_, ?_, ?_, ?_, ?_,
    fun h => hostReadReg_reserved h _⟩ <;> rintro rfl
  -- CMD, STATUS, RES
  · rfl
  · rfl
  · rfl
  -- the length registers, extended with zeros
  all_goals exact length_setWidth_toNat _

/-! ## Buffers -/

/-- The step of a buffer write (R34). -/
theorem step_writeBuf {b : HostBuf} {i : Nat} {v : Word} (hr : s.resetLine = false)
    (hp : s.pending = .writeBuf b i v :: rest) : step s = .next (hostWriteBuf b i v { s with pending := rest }) :=
  step_running hr hp

theorem hostWriteBuf_ibuf_inside {i : Nat} (hi : i < s.cfg.params.ibufCap) (v : Word) :
    hostWriteBuf .ibuf i v s = { s with ibuf := s.ibuf.write i (v.extractLsb' 0 8) } := if_pos hi

theorem hostWriteBuf_ibuf_outside {i : Nat} (hi : ¬ i < s.cfg.params.ibufCap) (v : Word) :
    hostWriteBuf .ibuf i v s = s := if_neg hi

theorem hostWriteBuf_ichr_inside {i : Nat} (hi : i < s.cfg.params.ichrCap) (v : Word) :
    hostWriteBuf .ichr i v s = { s with ichr := s.ichr.write i (v.extractLsb' 0 16) } := if_pos hi

theorem hostWriteBuf_ichr_outside {i : Nat} (hi : ¬ i < s.cfg.params.ichrCap) (v : Word) :
    hostWriteBuf .ichr i v s = s := if_neg hi

/-- Settles O16: inside the capacity one element is written, outside it none. -/
theorem byteElementWrite : Obligations.ByteElementWrite := by
  unfold Obligations.ByteElementWrite
  intro s i v rest hr hp
  have hstep := step_writeBuf hr hp
  by_cases hi : i < s.cfg.params.ibufCap
  · have hwrite := hostWriteBuf_ibuf_inside (s := { s with pending := rest }) hi v
    exact ⟨_, hstep.trans (congrArg Host.Outcome.next hwrite), rfl,
      fun _ => ⟨read_write_same .., fun _ => read_write_ne _ _ _⟩, fun hge => absurd hi (by omega)⟩
  · have hwrite := hostWriteBuf_ibuf_outside (s := { s with pending := rest }) hi v
    exact ⟨_, hstep.trans (congrArg Host.Outcome.next hwrite), rfl, fun hlt => absurd hlt hi, fun _ => rfl⟩

/-- Settles O17: the same for ICHR; the result buffers take no write. -/
theorem characterElementWrite : Obligations.CharacterElementWrite := by
  unfold Obligations.CharacterElementWrite
  intro s i v rest hr
  refine ⟨fun hp => ?_, fun hp => ?_⟩
  · have hstep := step_writeBuf hr hp
    by_cases hi : i < s.cfg.params.ichrCap
    · have hwrite := hostWriteBuf_ichr_inside (s := { s with pending := rest }) hi v
      exact ⟨_, hstep.trans (congrArg Host.Outcome.next hwrite), rfl,
        fun _ => ⟨read_write_same .., fun _ => read_write_ne _ _ _⟩, fun hge => absurd hi (by omega)⟩
    · have hwrite := hostWriteBuf_ichr_outside (s := { s with pending := rest }) hi v
      exact ⟨_, hstep.trans (congrArg Host.Outcome.next hwrite), rfl, fun hlt => absurd hlt hi, fun _ => rfl⟩
  · obtain hp | hp := hp
    · exact step_writeBuf hr hp
    · exact step_writeBuf hr hp

/-- An element extended to a word with zeros, or 0, keeps its number. -/
theorem toNat_ite_setWidth {w : Nat} (hw : w ≤ 32) (p : Prop) [Decidable p] (x : BitVec w) :
    (if p then x.setWidth 32 else (0 : Word)).toNat = if p then x.toNat else 0 := by
  split_ifs
  · exact BitVec.toNat_setWidth_of_le hw
  · rfl

/-- Settles O18: the value read is `hostReadBuf` of the index, which is the element inside the capacity. -/
theorem bufferReadReturnsElement : Obligations.BufferReadReturnsElement := by
  unfold Obligations.BufferReadReturnsElement
  intro s b i rest hr hp
  refine ⟨hostReadBuf b i { s with pending := rest }, step_running hr hp, ?_, ?_, ?_, ?_⟩ <;> rintro rfl
  all_goals exact toNat_ite_setWidth (by decide) _ _

end Sys2Proof.Machine
end

section
/-! PROOFS. The encoding (spec/30_encoding.md R54 to R60): the decoder as a search for the row that a word matches, the
must-be-zero bits of each format, the fields of an encoded word, and the step on an illegal word. -/

namespace Sys2Proof.Machine

/-! ## The rows of the opcode map -/

theorem rowOf_of_mem {r : OpcodeRow} (hr : r ∈ opcodeTable) : rowOf r.opc = some r := by
  revert r
  simp only [opcodeTable, List.forall_mem_cons]
  exact ⟨rfl, rfl, rfl, rfl, rfl, rfl, rfl, rfl, rfl, rfl, rfl, rfl, rfl, nofun⟩

theorem rowOf_eq_some_iff {opc : BitVec 8} {r : OpcodeRow} : rowOf opc = some r ↔ r ∈ opcodeTable ∧ r.opc = opc := by
  refine ⟨fun h => ⟨List.mem_of_find?_eq_some h, by simpa using List.find?_some h⟩, ?_⟩
  rintro ⟨hr, rfl⟩
  exact rowOf_of_mem hr

theorem rowOf_eq_none_iff {opc : BitVec 8} : rowOf opc = none ↔ ∀ r ∈ opcodeTable, r.opc ≠ opc := by
  simp [rowOf]

/-! ## Must-be-zero bits -/

/-- The bits above the opcode that must be zero in a word of the format (R55). -/
def MustBeZeroBit : Format → Nat → Prop
  | .n, _ => True
  | .i, j => 16 ≤ j
  | .h, j => j < 16 ∨ j = 19 ∨ j = 24 ∨ 26 ≤ j
  | .f, j => j < 16 ∨ 27 ≤ j

/-- No must-be-zero bit of the format is 1. -/
def FixedBitsClear (form : Format) (v : Word) : Prop :=
  ∀ j, 8 ≤ j → j < 32 → MustBeZeroBit form j → v.getLsbD j = false

/-- The word has the row's opcode and no 1 in a must-be-zero bit of its format. -/
def RowMatches (r : OpcodeRow) (v : Word) : Prop := v &&& r.format.mask = r.opc.setWidth 32

theorem mask_getLsbD_low (form : Format) {j : Nat} (hj : j < 8) : form.mask.getLsbD j = true := by
  cases form <;> interval_cases j <;> rfl

theorem mask_getLsbD_high (form : Format) {j : Nat} (h8 : 8 ≤ j) (h32 : j < 32) :
    form.mask.getLsbD j = true ↔ MustBeZeroBit form j := by
  cases form <;> interval_cases j <;> simp [Format.mask, MustBeZeroBit]

theorem opcOf_getLsbD (v : Word) {j : Nat} (hj : j < 8) : (opcOf v).getLsbD j = v.getLsbD j := by
  simp [opcOf, hj]

theorem rowMatches_iff {r : OpcodeRow} {v : Word} :
    RowMatches r v ↔ opcOf v = r.opc ∧ FixedBitsClear r.format v := by
  constructor
  · intro h
    have hbit (j : Nat) : (v.getLsbD j && r.format.mask.getLsbD j) = (decide (j < 32) && r.opc.getLsbD j) := by
      rw [← BitVec.getLsbD_and, h, BitVec.getLsbD_setWidth]
    refine ⟨BitVec.eq_of_getLsbD_eq fun j hj => ?_, fun j h8 h32 hz => ?_⟩
    · have h32 : j < 32 := by omega
      rw [opcOf_getLsbD v hj]
      simpa only [mask_getLsbD_low _ hj, h32, decide_true, Bool.and_true, Bool.true_and] using hbit j
    · rw [← mask_getLsbD_high _ h8 h32] at hz
      simpa only [hz, BitVec.getLsbD_of_ge r.opc j h8, Bool.and_true, Bool.and_false] using hbit j
  · rintro ⟨ho, hz⟩
    refine BitVec.eq_of_getLsbD_eq fun j h32 => ?_
    rw [BitVec.getLsbD_and, BitVec.getLsbD_setWidth, ← ho]
    by_cases hj : j < 8
    · simp only [mask_getLsbD_low _ hj, opcOf_getLsbD v hj, h32, decide_true, Bool.and_true, Bool.true_and]
    · have h8 : 8 ≤ j := by omega
      rw [BitVec.getLsbD_of_ge _ j h8, Bool.and_false, Bool.and_eq_false_imp]
      intro hv
      by_contra hm
      rw [Bool.not_eq_false, mask_getLsbD_high _ h8 h32] at hm
      exact absurd (hz j h8 h32 hm) (by simp [hv])

/-- A field of a word is 0 when each of its bits is. -/
theorem extractLsb'_eq_zero_iff {w : Nat} (v : BitVec w) (a n : Nat) :
    v.extractLsb' a n = 0 ↔ ∀ j, a ≤ j → j < a + n → v.getLsbD j = false := by
  rw [BitVec.eq_of_getLsbD_eq_iff]
  constructor
  · intro h j ha hj
    obtain ⟨k, rfl⟩ := Nat.exists_eq_add_of_le ha
    have hk : k < n := by omega
    simpa [hk] using h k hk
  · intro h k hk
    simpa [hk] using h (a + k) (by omega) (by omega)

theorem fixedBitsClear_n_iff (v : Word) : FixedBitsClear .n v ↔ v.extractLsb' 8 24 = 0 := by
  rw [extractLsb'_eq_zero_iff]
  exact ⟨fun h j h8 h32 => h j h8 h32 trivial, fun h j h8 h32 _ => h j h8 h32⟩

theorem fixedBitsClear_i_iff (v : Word) : FixedBitsClear .i v ↔ v.extractLsb' 16 16 = 0 := by
  rw [extractLsb'_eq_zero_iff]
  exact ⟨fun h j h16 h32 => h j (by omega) h32 h16, fun h j _ h32 h16 => h j h16 h32⟩

theorem fixedBitsClear_h_iff (v : Word) : FixedBitsClear .h v ↔
    v.extractLsb' 26 6 = 0 ∧ v.getLsbD 24 = false ∧ v.getLsbD 19 = false ∧ v.extractLsb' 8 8 = 0 := by
  simp only [extractLsb'_eq_zero_iff]
  constructor
  · intro h
    exact ⟨fun j h26 h32 => h j (by omega) h32 (.inr (.inr (.inr h26))),
      h 24 (by omega) (by omega) (.inr (.inr (.inl rfl))), h 19 (by omega) (by omega) (.inr (.inl rfl)),
      fun j h8 h16 => h j h8 (by omega) (.inl h16)⟩
  · rintro ⟨h26, h24, h19, h8⟩ j hge hlt (hj | rfl | rfl | hj)
    · exact h8 j hge hj
    · exact h19
    · exact h24
    · exact h26 j hj hlt

theorem fixedBitsClear_f_iff (v : Word) : FixedBitsClear .f v ↔ v.extractLsb' 27 5 = 0 ∧ v.extractLsb' 8 8 = 0 := by
  simp only [extractLsb'_eq_zero_iff]
  constructor
  · intro h
    exact ⟨fun j h27 h32 => h j (by omega) h32 (.inr h27), fun j h8 h16 => h j h8 (by omega) (.inl h16)⟩
  · rintro ⟨h27, h8⟩ j hge hlt (hj | hj)
    · exact h8 j hge hj
    · exact h27 j hj hlt

/-! ## The decoder, said once -/

/-- A word whose opcode is assigned: what the decoder answers. -/
theorem decode_of_opc {r : OpcodeRow} {v : Word} (hr : r ∈ opcodeTable) (ho : opcOf v = r.opc) :
    (RowMatches r v ∧ decode v = .ok (r.build v)) ∨ (¬ RowMatches r v ∧ decode v = .error .mustBeZero) := by
  have hrow : rowOf (opcOf v) = some r := rowOf_eq_some_iff.2 ⟨hr, ho.symm⟩
  by_cases hm : RowMatches r v
  · exact .inl ⟨hm, by simp only [decode, hrow]; exact if_pos hm⟩
  · exact .inr ⟨hm, by simp only [decode, hrow]; exact if_neg hm⟩

/-- Everything the decoder can answer (R60). -/
theorem decode_cases (v : Word) :
    (rowOf (opcOf v) = none ∧ decode v = .error .unassignedOpcode) ∨
    (∃ r ∈ opcodeTable, opcOf v = r.opc ∧ ¬ RowMatches r v ∧ decode v = .error .mustBeZero) ∨
    (∃ r ∈ opcodeTable, RowMatches r v ∧ decode v = .ok (r.build v)) := by
  cases hrow : rowOf (opcOf v) with
  | none => exact .inl ⟨rfl, by simp only [decode, hrow]⟩
  | some r =>
    obtain ⟨hr, ho⟩ := rowOf_eq_some_iff.1 hrow
    obtain ⟨hm, hd⟩ | ⟨hm, hd⟩ := decode_of_opc hr ho.symm
    · exact .inr (.inr ⟨r, hr, hm, hd⟩)
    · exact .inr (.inl ⟨r, hr, ho.symm, hm, hd⟩)

theorem decode_of_rowMatches {r : OpcodeRow} {v : Word} (hr : r ∈ opcodeTable) (hm : RowMatches r v) :
    decode v = .ok (r.build v) :=
  ((decode_of_opc hr (rowMatches_iff.1 hm).1).resolve_right fun h => h.1 hm).2

theorem decode_eq_ok {v : Word} {i : Instr} (h : decode v = .ok i) :
    ∃ r ∈ opcodeTable, RowMatches r v ∧ r.build v = i := by
  obtain ⟨-, hd⟩ | ⟨r, -, -, -, hd⟩ | ⟨r, hr, hm, hd⟩ := decode_cases v
  · cases hd.symm.trans h
  · cases hd.symm.trans h
  · exact ⟨r, hr, hm, Except.ok.inj (hd.symm.trans h)⟩

theorem decode_eq_unassigned_iff (v : Word) : decode v = .error .unassignedOpcode ↔ rowOf (opcOf v) = none := by
  obtain ⟨hrow, hd⟩ | ⟨r, hr, ho, -, hd⟩ | ⟨r, hr, hm, hd⟩ := decode_cases v
  · simp [hrow, hd]
  · simp [hd, ho, rowOf_of_mem hr]
  · simp [hd, (rowMatches_iff.1 hm).1, rowOf_of_mem hr]

/-! ## The fields of an encoded word -/

section Fields

variable (opc : BitVec 8) (imm8 : Byte) (nat : BitVec 3) (natp : Bool) (pln : BitVec 4) (plnp ext adrp : Bool)

@[simp] theorem opcOf_commandWord : opcOf (commandWord opc imm8 nat natp pln plnp ext adrp) = opc := by
  ext j hj
  interval_cases j <;> simp [opcOf, commandWord]

@[simp] theorem imm8Of_commandWord : imm8Of (commandWord opc imm8 nat natp pln plnp ext adrp) = imm8 := by
  ext j hj
  interval_cases j <;> simp [imm8Of, commandWord]

@[simp] theorem natOf_commandWord : natOf (commandWord opc imm8 nat natp pln plnp ext adrp) = nat := by
  ext j hj
  interval_cases j <;> simp [natOf, commandWord]

@[simp] theorem natpOf_commandWord : natpOf (commandWord opc imm8 nat natp pln plnp ext adrp) = natp := by
  simp [natpOf, commandWord]

@[simp] theorem plnOf_commandWord : plnOf (commandWord opc imm8 nat natp pln plnp ext adrp) = pln := by
  ext j hj
  interval_cases j <;> simp [plnOf, commandWord]

@[simp] theorem plnpOf_commandWord : plnpOf (commandWord opc imm8 nat natp pln plnp ext adrp) = plnp := by
  simp [plnpOf, commandWord]

@[simp] theorem extOf_commandWord : extOf (commandWord opc imm8 nat natp pln plnp ext adrp) = ext := by
  simp [extOf, commandWord]

@[simp] theorem adrpOf_commandWord : adrpOf (commandWord opc imm8 nat natp pln plnp ext adrp) = adrp := by
  simp [adrpOf, commandWord]

end Fields

/-- A word with RSV = 0 is made of its fields (R54). -/
theorem commandWord_fields {v : Word} (hrsv : v.extractLsb' 27 5 = 0) :
    commandWord (opcOf v) (imm8Of v) (natOf v) (natpOf v) (plnOf v) (plnpOf v) (extOf v) (adrpOf v) = v := by
  rw [extractLsb'_eq_zero_iff] at hrsv
  refine BitVec.eq_of_getLsbD_eq fun j hj => ?_
  by_cases h27 : 27 ≤ j
  · rw [hrsv j h27 hj]
    interval_cases j <;> simp [commandWord]
  · interval_cases j <;> simp [commandWord, opcOf, imm8Of, natOf, natpOf, plnOf, plnpOf, extOf, adrpOf]

/-! ## Decoding an encoded word -/

theorem encodedWord (i : Instr) : Laws.EncodedWord.Statement i := by
  cases i with
  | hdrEnc nat pln ext => exact Laws.EncodedWord.hdrEnc nat pln ext
  | hdrDec imm8 => exact Laws.EncodedWord.hdrDec imm8
  | bcdEnc => exact Laws.EncodedWord.bcdEnc
  | bcdDec imm8 => exact Laws.EncodedWord.bcdDec imm8
  | g7Enc => exact Laws.EncodedWord.g7Enc
  | g7Dec => exact Laws.EncodedWord.g7Dec
  | fldCons nat natp pln plnp ext adrp => exact Laws.EncodedWord.fldCons nat natp pln plnp ext adrp
  | fldLoad => exact Laws.EncodedWord.fldLoad
  | fldRaw => exact Laws.EncodedWord.fldRaw
  | fldNat => exact Laws.EncodedWord.fldNat
  | fldPlan => exact Laws.EncodedWord.fldPlan
  | fldExt => exact Laws.EncodedWord.fldExt
  | fldAddr => exact Laws.EncodedWord.fldAddr

/-- The row of a command's word reads the command back from the word's fields. -/
theorem build_encode {i : Instr} {r : OpcodeRow} (h : rowOf (opcOf (encode i)) = some r) : r.build (encode i) = i := by
  cases i with
  | hdrEnc nat pln ext =>
    rw [encode, opcOf_commandWord] at h
    cases (h : some _ = some r)
    simp [encode]
  | hdrDec imm8 =>
    rw [encode, wordI, opcOf_commandWord] at h
    cases (h : some _ = some r)
    simp [encode, wordI]
  | bcdDec imm8 =>
    rw [encode, wordI, opcOf_commandWord] at h
    cases (h : some _ = some r)
    simp [encode, wordI]
  | fldCons nat natp pln plnp ext adrp =>
    rw [encode, opcOf_commandWord] at h
    cases (h : some _ = some r)
    simp [encode]
  | _ => cases (h : some _ = some r); rfl

/-- Settles O1: the word matches its row, and the row reads the operands back. -/
theorem decodeOfEncodeIsIdentity : Obligations.DecodeOfEncodeIsIdentity := by
  unfold Obligations.DecodeOfEncodeIsIdentity
  intro i _
  obtain ⟨-, -, r, hrow, hm⟩ := encodedWord i
  calc decode (encode i) = .ok (r.build (encode i)) := decode_of_rowMatches (rowOf_eq_some_iff.1 hrow).1 hm
    _ = .ok i := by rw [build_encode hrow]

/-! ## Encoding a decoded word -/

/-- A field inside the must-be-zero bits is 0. -/
theorem FixedBitsClear.extractLsb'_eq_zero {form : Format} {v : Word} (hz : FixedBitsClear form v) {a n : Nat}
    (h8 : 8 ≤ a) (h32 : a + n ≤ 32) (h : ∀ j, a ≤ j → j < a + n → MustBeZeroBit form j) : v.extractLsb' a n = 0 :=
  (extractLsb'_eq_zero_iff v a n).2 fun j ha hj => hz j (by omega) (by omega) (h j ha hj)

/-- A word of format F with no must-be-zero bit set is made of its operand fields. -/
theorem commandWord_eq_of_format_f {opc : BitVec 8} {v : Word} (ho : opcOf v = opc) (hz : FixedBitsClear .f v) :
    commandWord opc 0 (natOf v) (natpOf v) (plnOf v) (plnpOf v) (extOf v) (adrpOf v) = v := by
  obtain ⟨hrsv, himm⟩ := (fixedBitsClear_f_iff v).1 hz
  have himm : imm8Of v = 0 := himm
  simpa only [ho, himm] using commandWord_fields hrsv

/-- Format H is format F with NATP, PLNP and ADRP zero. -/
theorem commandWord_eq_of_format_h {opc : BitVec 8} {v : Word} (ho : opcOf v = opc) (hz : FixedBitsClear .h v) :
    commandWord opc 0 (natOf v) false (plnOf v) false (extOf v) false = v := by
  have hf : FixedBitsClear .f v := fun j h8 h32 hj => hz j h8 h32 (by simp only [MustBeZeroBit] at *; omega)
  have hnatp : natpOf v = false := hz 19 (by decide) (by decide) (by simp [MustBeZeroBit])
  have hplnp : plnpOf v = false := hz 24 (by decide) (by decide) (by simp [MustBeZeroBit])
  have hadrp : adrpOf v = false := hz 26 (by decide) (by decide) (by simp [MustBeZeroBit])
  simpa only [hnatp, hplnp, hadrp] using commandWord_eq_of_format_f ho hf

theorem wordI_eq_of_format_i {opc : BitVec 8} {v : Word} (ho : opcOf v = opc) (hz : FixedBitsClear .i v) :
    wordI opc (imm8Of v) = v := by
  have hfield {a n : Nat} (h16 : 16 ≤ a) (h32 : a + n ≤ 32) : v.extractLsb' a n = 0 :=
    hz.extractLsb'_eq_zero (by omega) h32 fun j hj _ => h16.trans hj
  have hbit {j : Nat} (h16 : 16 ≤ j) (h32 : j < 32) : v.getLsbD j = false := hz j (by omega) h32 h16
  have hnat : natOf v = 0 := hfield (by decide) (by decide)
  have hnatp : natpOf v = false := hbit (by decide) (by decide)
  have hpln : plnOf v = 0 := hfield (by decide) (by decide)
  have hplnp : plnpOf v = false := hbit (by decide) (by decide)
  have hext : extOf v = false := hbit (by decide) (by decide)
  have hadrp : adrpOf v = false := hbit (by decide) (by decide)
  have hrsv : v.extractLsb' 27 5 = 0 := hfield (by decide) (by decide)
  simpa only [wordI, ho, hnat, hnatp, hpln, hplnp, hext, hadrp] using commandWord_fields hrsv

/-- Format N is format I with IMM8 zero. -/
theorem wordN_eq_of_format_n {opc : BitVec 8} {v : Word} (ho : opcOf v = opc) (hz : FixedBitsClear .n v) :
    wordN opc = v := by
  have himm : imm8Of v = 0 := hz.extractLsb'_eq_zero (by decide) (by decide) fun _ _ _ => trivial
  have hi : FixedBitsClear .i v := fun j h8 h32 _ => hz j h8 h32 trivial
  simpa only [wordN, wordI, himm] using wordI_eq_of_format_i ho hi

/-- The command that a row reads from a word of its opcode and format has that word. -/
theorem encode_build (v : Word) :
    ∀ r ∈ opcodeTable, opcOf v = r.opc → FixedBitsClear r.format v → encode (r.build v) = v := by
  simp only [opcodeTable, List.forall_mem_cons]
  exact ⟨commandWord_eq_of_format_h, wordI_eq_of_format_i, wordN_eq_of_format_n, wordI_eq_of_format_i,
    wordN_eq_of_format_n, wordN_eq_of_format_n, commandWord_eq_of_format_f, wordN_eq_of_format_n, wordN_eq_of_format_n,
    wordN_eq_of_format_n, wordN_eq_of_format_n, wordN_eq_of_format_n, wordN_eq_of_format_n, nofun⟩

/-- Settles O2: a legal word matches a row, and the command the row reads from it has that word. -/
theorem encodeOfDecodeIsIdentity : Obligations.EncodeOfDecodeIsIdentity := by
  unfold Obligations.EncodeOfDecodeIsIdentity
  intro v i h
  obtain ⟨r, hr, hm, rfl⟩ := decode_eq_ok h
  obtain ⟨ho, hz⟩ := rowMatches_iff.1 hm
  exact encode_build v r hr ho hz

/-! ## Illegal words -/

/-- Settles O3: the decoder rejects exactly the words whose opcode has no row. -/
theorem unassignedOpcodesRejected : Obligations.UnassignedOpcodesRejected := by
  unfold Obligations.UnassignedOpcodesRejected
  intro v
  rw [decode_eq_unassigned_iff, rowOf_eq_none_iff]
  simp only [opcodeTable, List.forall_mem_cons, List.not_mem_nil, false_implies, implies_true, and_true, opcOf, ne_eq,
    ← BitVec.toNat_inj, BitVec.reduceToNat]
  omega

/-- The opcode is assigned to a command of the format (R58). -/
def HasFormat (opc : BitVec 8) (form : Format) : Prop := ∃ r ∈ opcodeTable, opc = r.opc ∧ r.format = form

theorem hasFormat_h_iff (opc : BitVec 8) : HasFormat opc .h ↔ opc.toNat = 0x01 := by
  simp [HasFormat, opcodeTable, ← BitVec.toNat_inj]

theorem hasFormat_i_iff (opc : BitVec 8) : HasFormat opc .i ↔ opc.toNat = 0x02 ∨ opc.toNat = 0x04 := by
  simp [HasFormat, opcodeTable, ← BitVec.toNat_inj]

theorem hasFormat_f_iff (opc : BitVec 8) : HasFormat opc .f ↔ opc.toNat = 0x10 := by
  simp [HasFormat, opcodeTable, ← BitVec.toNat_inj]

theorem hasFormat_n_iff (opc : BitVec 8) : HasFormat opc .n ↔
    opc.toNat = 0x03 ∨ opc.toNat = 0x05 ∨ opc.toNat = 0x06 ∨ (0x11 ≤ opc.toNat ∧ opc.toNat ≤ 0x16) := by
  have hrows : HasFormat opc .n ↔ opc.toNat ∈ [0x03, 0x05, 0x06, 0x11, 0x12, 0x13, 0x14, 0x15, 0x16] := by
    simp [HasFormat, opcodeTable, ← BitVec.toNat_inj]
  rw [hrows]
  simp only [List.mem_cons, List.not_mem_nil, or_false]
  omega

theorem HasFormat.decode_eq_mustBeZero_iff {form : Format} {v : Word} (h : HasFormat (opcOf v) form) :
    decode v = .error .mustBeZero ↔ ¬ FixedBitsClear form v := by
  obtain ⟨r, hr, ho, rfl⟩ := h
  have hm : RowMatches r v ↔ FixedBitsClear r.format v := by simp [rowMatches_iff, ho]
  rw [← hm]
  obtain ⟨hm, hd⟩ | ⟨hm, hd⟩ := decode_of_opc hr ho <;> simp [hm, hd]

/-- Settles O4: per format, the decoder's check is that the must-be-zero bits are clear. -/
theorem mustBeZeroBitsRejected : Obligations.MustBeZeroBitsRejected := by
  unfold Obligations.MustBeZeroBitsRejected
  refine fun v => ⟨fun h => ?_, fun h => ?_, fun h => ?_, fun h => ?_⟩
  · rw [((hasFormat_h_iff _).2 h).decode_eq_mustBeZero_iff, fixedBitsClear_h_iff]
    simp only [not_and_or, Bool.not_eq_false, ne_eq]
  · rw [((hasFormat_i_iff _).2 h).decode_eq_mustBeZero_iff, fixedBitsClear_i_iff]
  · rw [((hasFormat_f_iff _).2 h).decode_eq_mustBeZero_iff, fixedBitsClear_f_iff, not_and_or]
  · rw [((hasFormat_n_iff _).2 h).decode_eq_mustBeZero_iff, fixedBitsClear_n_iff]

/-! ## The opcode table -/

theorem decode_of_row (k : Nat) (hk : k < opcodeTable.length := by decide) {v : Word}
    (h : RowMatches opcodeTable[k] v) :
    decode v = .ok (opcodeTable[k].build v) :=
  decode_of_rowMatches (List.getElem_mem hk) h

/-- Every bit of a word of format N is fixed. -/
theorem and_mask_n (v : Word) : v &&& Format.n.mask = v := BitVec.and_allOnes

theorem decode_of_row_n (k : Nat) (hk : k < opcodeTable.length := by decide)
    (hn : opcodeTable[k].format = .n := by rfl) {v : Word} (h : v = opcodeTable[k].opc.setWidth 32) :
    decode v = .ok (opcodeTable[k].build v) :=
  decode_of_row k hk (by rw [RowMatches, hn, and_mask_n, h])

theorem decode_eq_error_of_no_row {v : Word} (h : ∀ r ∈ opcodeTable, ¬ RowMatches r v) : ∃ e, decode v = .error e := by
  obtain ⟨-, hd⟩ | ⟨-, -, -, -, hd⟩ | ⟨r, hr, hm, -⟩ := decode_cases v
  · exact ⟨_, hd⟩
  · exact ⟨_, hd⟩
  · exact absurd hm (h r hr)

/-- Settles O5: each clause is the row's match, and a word that no row matches is an error. -/
theorem opcodeTableRowsSelectCommands : Obligations.OpcodeTableRowsSelectCommands := by
  unfold Obligations.OpcodeTableRowsSelectCommands
  intro v
  refine ⟨decode_of_row 0, decode_of_row 1, decode_of_row_n 2, decode_of_row 3, decode_of_row_n 4, decode_of_row_n 5,
    decode_of_row 6, decode_of_row_n 7, decode_of_row_n 8, decode_of_row_n 9, decode_of_row_n 10, decode_of_row_n 11,
    decode_of_row_n 12, ?_⟩
  intro h1 h2 h3 h4 h5 h6 h10 h11 h12 h13 h14 h15 h16
  refine decode_eq_error_of_no_row ?_
  simp only [opcodeTable, List.forall_mem_cons, RowMatches, and_mask_n]
  exact ⟨h1, h2, h3, h4, h5, h6, h10, h11, h12, h13, h14, h15, h16, nofun⟩

/-- Settles O6: the decoder evaluates each word. -/
theorem sampleWordsDecode : Obligations.SampleWordsDecode := ⟨rfl, rfl, rfl, rfl, rfl, rfl, rfl⟩

/-! ## The step on an illegal word -/

theorem step_illegalWord {s : State} {v : Word} {rest : List HostAccess} {e : IllegalWord} (hr : s.resetLine = false)
    (hp : s.pending = .writeReg 0x00 v :: rest) (hd : decode v = .error e) :
    step s = .next (raise (illegalError e) { s with pending := rest, cmd := v }) := by
  rw [step_running hr hp]
  obtain ⟨e', he, heq⟩ | ⟨i, hi, -⟩ := execute_cases v { s with pending := rest, cmd := v }
  · cases hd.symm.trans he
    exact heq
  · cases hd.symm.trans hi

/-- Settles O8: the error an illegal word raises has CAUSE 1, SUB 1 or 2 and IDX 0. -/
theorem stepReportsIllegalWord : Obligations.StepReportsIllegalWord := by
  unfold Obligations.StepReportsIllegalWord
  exact fun s v rest hr hp => ⟨step_illegalWord hr hp, step_illegalWord hr hp⟩

end Sys2Proof.Machine
end

section
/-! PROOFS. The header byte (spec/40_header.md R65 to R69): its fields as arithmetic on the byte, both round trips, and
what HDR_ENC and HDR_DEC leave in the state. -/

namespace Sys2Proof.Machine

/-! ## The byte and its fields -/

theorem hdrNature_toNat (b : Byte) : (hdrNature b).toNat = b.toNat / 16 % 8 := by
  simp [hdrNature, Nat.shiftRight_eq_div_pow]

theorem hdrPlan_toNat (b : Byte) : (hdrPlan b).toNat = b.toNat % 16 := by
  simp [hdrPlan]

/-- The extension bit is the sign bit of the byte. -/
theorem hdrExt_eq_true_iff (b : Byte) : hdrExt b = true ↔ 128 ≤ b.toNat := by
  have hmsb : hdrExt b = b.msb := (BitVec.msb_eq_getLsbD_last b).symm
  simp [hmsb, BitVec.msb_eq_decide]

/-- Each of the eight bits of the byte comes back from the field that holds it. -/
theorem hdrEncode_fields (b : Byte) : hdrEncode (hdrNature b) (hdrPlan b) (hdrExt b) = b := by
  have hbit : b[7] = hdrExt b := rfl
  refine BitVec.eq_of_getLsbD_eq fun j hj => ?_
  cases hext : hdrExt b <;> interval_cases j <;> simp [hdrEncode, hdrNature, hdrPlan, hbit, hext]

/-- Settles O19: the fields of a byte, and the two round trips. -/
theorem headerByteRoundTrip : Obligations.HeaderByteRoundTrip := by
  unfold Obligations.HeaderByteRoundTrip
  exact ⟨fun b => ⟨hdrNature_toNat b, hdrPlan_toNat b, hdrExt_eq_true_iff b⟩, hdrEncode_fields,
    fun nat pln ext => ⟨hdrNature_hdrEncode nat pln ext, hdrPlan_hdrEncode nat pln ext, hdrExt_hdrEncode nat pln ext⟩⟩

/-- The masks of R65 cut nothing: the operands of HDR_ENC have the width of their fields. -/
theorem hdrEncode_eq_masked (nat : BitVec 3) (pln : BitVec 4) (ext : Bool) : hdrEncode nat pln ext =
    (if ext then 0x80 else 0x00) ||| ((nat.setWidth 8 &&& 0x7) <<< 4) ||| (pln.setWidth 8 &&& 0xF) := by
  have hnat : nat.setWidth 8 &&& 0x7 = nat.setWidth 8 := by revert nat; decide
  have hpln : pln.setWidth 8 &&& 0xF = pln.setWidth 8 := by revert pln; decide
  rw [hnat, hpln, hdrEncode]

theorem natureDefined_iff (p : Params) (n : BitVec 3) : natureDefined p n = true ↔ n ∈ p.natureDefined :=
  List.contains_iff_mem

theorem planDefined_iff (p : Params) (c : BitVec 4) : planDefined p c = true ↔ c ∈ p.planDefined :=
  List.contains_iff_mem

/-! ## A command that completes -/

/-- A byte result that fits stands in OBUF and OLEN (R27, R35). -/
theorem bytesWritten_putBytes {s : State} {bs : List Byte} (fits : bs.length ≤ s.cfg.params.obufCap) :
    BytesWritten bs s (complete (putBytes bs s)) :=
  ⟨putBytes_olen_toNat fits, fun _ => read_writePrefix_lt .obuf s.obuf bs, sameFrom_writePrefix .obuf s.obuf bs⟩

/-- Writing a byte result leaves all else but STATUS as it was (R102). -/
theorem completePutBytes_frame (bs : List Byte) (s : State) :
    Succeeded s (complete (putBytes bs s)) ∧ SameHostSide s (complete (putBytes bs s)) ∧
    SameField s (complete (putBytes bs s)) ∧ SameChars s (complete (putBytes bs s)) ∧
    (complete (putBytes bs s)).res = s.res :=
  ⟨rfl, ⟨rfl, rfl, rfl, rfl, rfl, rfl, rfl, rfl, rfl⟩, ⟨rfl, rfl⟩, ⟨rfl, rfl⟩, rfl⟩

/-- Writing RES leaves all else but STATUS as it was (R102). -/
theorem resultCommand_frame (v : Word) (s : State) :
    Succeeded s (resultCommand v s) ∧ SameHostSide s (resultCommand v s) ∧ SameField s (resultCommand v s) ∧
    SameBytes s (resultCommand v s) ∧ SameChars s (resultCommand v s) :=
  ⟨rfl, ⟨rfl, rfl, rfl, rfl, rfl, rfl, rfl, rfl, rfl⟩, ⟨rfl, rfl⟩, ⟨rfl, rfl⟩, ⟨rfl, rfl⟩⟩

/-! ## HDR_ENC and HDR_DEC -/

theorem exec_hdrEnc (nat : BitVec 3) (pln : BitVec 4) (ext : Bool) (s : State) :
    exec (.hdrEnc nat pln ext) s = .next (complete (putBytes [hdrEncode nat pln ext] s)) := rfl

theorem exec_hdrDec (b : Byte) (s : State) :
    exec (.hdrDec b) s = .next (resultCommand (hdrResult s.cfg.params b) s) := rfl

/-- Settles O20: the result is one byte, which fits every OBUF (R13 (b)). -/
theorem headerEncodeWritesByte : Obligations.HeaderEncodeWritesByte := by
  unfold Obligations.HeaderEncodeWritesByte
  intro nat pln ext s
  have fits : [hdrEncode nat pln ext].length ≤ s.cfg.params.obufCap := by
    have := config_caps s.cfg
    rw [List.length_singleton]
    omega
  rw [← hdrEncode_eq_masked]
  exact ⟨_, exec_hdrEnc nat pln ext s, bytesWritten_putBytes fits, completePutBytes_frame _ s⟩

/-- Settles O21: the accessors of RES give back the fields that `hdrResult` put in, and the frame of a RES command. -/
theorem headerDecodeWritesResult : Obligations.HeaderDecodeWritesResult := by
  unfold Obligations.HeaderDecodeWritesResult
  intro b s
  have hnatv : resNatv (hdrResult s.cfg.params b) = true ↔ hdrNature b ∈ s.cfg.params.natureDefined := by
    rw [hdrResult, resNatv_resWord, natureDefined_iff]
  have hplnv : resPlnv (hdrResult s.cfg.params b) = true ↔ hdrPlan b ∈ s.cfg.params.planDefined := by
    rw [hdrResult, resPlnv_resWord, planDefined_iff]
  exact ⟨_, exec_hdrDec b s, resNat_resWord .., resPln_resWord .., resExt_resWord .., hnatv, hplnv,
    resExtv_resWord .., resStrv_resWord .., resWord_reserved .., resultCommand_frame _ s⟩

end Sys2Proof.Machine
end

section
/-! SUPPORT. The commands that read an operand and run a codec on it (spec/10_state.md R25 to R28; spec/60_exceptions.md
R102, R103): where such a command ends, given what its codec answers, and what it leaves as it was. -/

namespace Sys2Proof.Machine

variable {s : State}

/-! ## The operands -/

theorem ichrOver_eq_false (fits : s.iclen.toNat ≤ s.cfg.params.ichrCap) : ichrOver s = false :=
  decide_eq_false (Nat.not_lt.2 fits)

theorem ibufOver_eq_false (fits : s.ilen.toNat ≤ s.cfg.params.ibufCap) : ibufOver s = false :=
  decide_eq_false (Nat.not_lt.2 fits)

/-- IDX holds a length register whole (R101). -/
theorem statusAfterError_ichrOverrun (n : BitVec 16) :
    statusAfterError (.ichrOverrun n.toNat) = statusWord 5 2 true n := by
  simp [statusAfterError, AfcError.cause, AfcError.sub, AfcError.idx]

/-- IDX holds a length register whole (R101). -/
theorem statusAfterError_ibufOverrun (n : BitVec 16) :
    statusAfterError (.ibufOverrun n.toNat) = statusWord 5 1 true n := by
  simp [statusAfterError, AfcError.cause, AfcError.sub, AfcError.idx]

@[simp] theorem stringOperand_length (s : State) : (stringOperand s).length = s.iclen.toNat := readPrefix_length ..

@[simp] theorem stringOperand_getElem (s : State) {i : Nat} (h : i < (stringOperand s).length) :
    (stringOperand s)[i] = s.ichr.read .ichr i := readPrefix_getElem ..

@[simp] theorem byteOperand_length (s : State) : (byteOperand s).length = s.ilen.toNat := readPrefix_length ..

@[simp] theorem byteOperand_getElem (s : State) {i : Nat} (h : i < (byteOperand s).length) :
    (byteOperand s)[i] = s.ibuf.read .ibuf i := readPrefix_getElem ..

/-- What holds of every element inside ICLEN holds of every character of the string operand. -/
theorem forall_mem_stringOperand {p : Char16 → Prop} (h : ∀ i < s.iclen.toNat, p (s.ichr.read .ichr i)) :
    ∀ c ∈ stringOperand s, p c := by
  refine List.forall_mem_iff_forall_getElem.2 fun i hi => ?_
  rw [stringOperand_getElem]
  exact h i (by simpa using hi)

/-! ## BCD_ENC and G7_ENC -/

section Encoder

variable {codec : List Char16 → Except AfcError (List Byte)}

theorem encodeOperand_of_overrun (overrun : s.cfg.params.ichrCap < s.iclen.toNat) :
    encodeOperand codec s = { s with status := statusWord 5 2 true s.iclen, olen := 0 } := by
  rw [← statusAfterError_ichrOverrun]
  exact if_pos (decide_eq_true overrun)

variable (fits : s.iclen.toNat ≤ s.cfg.params.ichrCap)
include fits

theorem encodeOperand_of_error {e : AfcError} (h : codec (stringOperand s) = .error e) :
    encodeOperand codec s = raiseEncoded e s := by
  simp [encodeOperand, ichrOver_eq_false fits, h]

theorem encodeOperand_of_long {r : List Byte} (h : codec (stringOperand s) = .ok r)
    (long : s.cfg.params.obufCap < r.length) :
    encodeOperand codec s = raiseEncoded (.obufOverrun r.length) s := by
  simp [encodeOperand, ichrOver_eq_false fits, h, long]

theorem encodeOperand_of_ok {r : List Byte} (h : codec (stringOperand s) = .ok r)
    (short : r.length ≤ s.cfg.params.obufCap) : encodeOperand codec s = complete (putBytes r s) := by
  simp [encodeOperand, ichrOver_eq_false fits, h, Nat.not_lt.2 short]

end Encoder

/-- An error of an encoder writes STATUS, OLEN and the elements of OBUF, and no more (R103). -/
theorem raiseEncoded_frame (e : AfcError) (s : State) :
    Failed e.cause e.sub e.idx (raiseEncoded e s) ∧ (raiseEncoded e s).olen = 0 ∧ SameHostSide s (raiseEncoded e s) ∧
    SameField s (raiseEncoded e s) ∧ SameChars s (raiseEncoded e s) ∧ (raiseEncoded e s).res = s.res :=
  ⟨rfl, rfl, ⟨rfl, rfl, rfl, rfl, rfl, rfl, rfl, rfl, rfl⟩, ⟨rfl, rfl⟩, ⟨rfl, rfl⟩, rfl⟩

/-! ## BCD_DEC and G7_DEC -/

section Decoder

variable {codec : List Byte → Except AfcError (List Char16)}

theorem decodeOperand_of_overrun (overrun : s.cfg.params.ibufCap < s.ilen.toNat) :
    decodeOperand codec s = { s with status := statusWord 5 1 true s.ilen, oclen := 0 } := by
  rw [← statusAfterError_ibufOverrun]
  exact if_pos (decide_eq_true overrun)

variable (fits : s.ilen.toNat ≤ s.cfg.params.ibufCap)
include fits

theorem decodeOperand_of_error {e : AfcError} (h : codec (byteOperand s) = .error e) :
    decodeOperand codec s = raiseDecoded e s := by
  simp [decodeOperand, ibufOver_eq_false fits, h]

theorem decodeOperand_of_ok {r : List Char16} (h : codec (byteOperand s) = .ok r) :
    decodeOperand codec s = complete (putChars r s) := by
  simp [decodeOperand, ibufOver_eq_false fits, h]

end Decoder

/-- An error of a decoder writes STATUS, OCLEN and the elements of OCHR, and no more (R103). -/
theorem raiseDecoded_frame (e : AfcError) (s : State) :
    Failed e.cause e.sub e.idx (raiseDecoded e s) ∧ (raiseDecoded e s).oclen = 0 ∧ SameHostSide s (raiseDecoded e s) ∧
    SameField s (raiseDecoded e s) ∧ SameBytes s (raiseDecoded e s) ∧ (raiseDecoded e s).res = s.res :=
  ⟨rfl, rfl, ⟨rfl, rfl, rfl, rfl, rfl, rfl, rfl, rfl, rfl⟩, ⟨rfl, rfl⟩, ⟨rfl, rfl⟩, rfl⟩

/-- A string result that fits stands in OCHR and OCLEN (R28, R35). -/
theorem charsWritten_putChars {cs : List Char16} (fits : cs.length ≤ s.cfg.params.ochrCap) :
    CharsWritten cs s (complete (putChars cs s)) :=
  ⟨putChars_oclen_toNat fits, fun _ => read_writePrefix_lt .ochr s.ochr cs, sameFrom_writePrefix .ochr s.ochr cs⟩

/-- Writing a string result leaves all else but STATUS as it was (R102). -/
theorem completePutChars_frame (cs : List Char16) (s : State) :
    Succeeded s (complete (putChars cs s)) ∧ SameHostSide s (complete (putChars cs s)) ∧
    SameField s (complete (putChars cs s)) ∧ SameBytes s (complete (putChars cs s)) ∧
    (complete (putChars cs s)).res = s.res :=
  ⟨rfl, ⟨rfl, rfl, rfl, rfl, rfl, rfl, rfl, rfl, rfl⟩, ⟨rfl, rfl⟩, ⟨rfl, rfl⟩, rfl⟩

/-! ## The commands -/

theorem exec_bcdEnc (s : State) : exec .bcdEnc s = .next (encodeOperand bcdEncode s) := rfl

theorem exec_g7Enc (s : State) : exec .g7Enc s = .next (encodeOperand (g7Encode s.cfg.params) s) := rfl

theorem exec_bcdDec (c : Byte) (s : State) :
    exec (.bcdDec c) s = .next (decodeOperand (fun bytes => bcdDecode bytes c.toNat) s) := rfl

theorem exec_g7Dec (s : State) : exec .g7Dec s = .next (decodeOperand (g7Decode s.cfg.params) s) := rfl

end Sys2Proof.Machine
end

section
/-! PROOFS. The digit-packing codec (spec/41_bcd.md R70 to R77): the nibbles of a packed digit string are its digits and
the filler, and what BCD_ENC and BCD_DEC leave in the state follows from what the codec makes of their operand. -/

namespace Sys2Proof.Machine

/-! ## Digits (R70, R72) -/

theorem isDigit_iff {c : Char16} : isDigit c = true ↔ IsDigitChar c := decide_eq_true_iff

theorem isDigitNibble_iff {v : Nibble} : isDigitNibble v = true ↔ v.toNat ≤ 9 := decide_eq_true_iff

theorem digitValue_toNat {c : Char16} (h : IsDigitChar c) : (digitValue c).toNat + 0x30 = c.toNat := by
  obtain ⟨h0, h9⟩ := h
  rw [digitValue, BitVec.toNat_ofNat]
  omega

theorem digitValue_le_nine {c : Char16} (h : IsDigitChar c) : (digitValue c).toNat ≤ 9 := by
  have hval := digitValue_toNat h
  obtain ⟨-, h9⟩ := h
  omega

theorem digitChar_toNat (v : Nibble) : (digitChar v).toNat = 0x30 + v.toNat := by
  rw [digitChar, BitVec.toNat_ofNat]
  omega

theorem digitChar_digitValue {c : Char16} (h : IsDigitChar c) : digitChar (digitValue c) = c := by
  refine BitVec.eq_of_toNat_eq ?_
  rw [digitChar_toNat, Nat.add_comm, digitValue_toNat h]

/-! ## The nibbles of a byte sequence (R71, R72) -/

@[simp] theorem nibblePair_low (hi lo : Nibble) : (nibblePair hi lo).extractLsb' 0 4 = lo := by
  revert hi lo; decide

@[simp] theorem nibblePair_high (hi lo : Nibble) : (nibblePair hi lo).extractLsb' 4 4 = hi := by
  revert hi lo; decide

/-- The nibbles of the packed bytes in reading order are the digits packed, and past an odd end the filler. -/
theorem nibblesOf_packNibbles (ds : List Nibble) :
    nibblesOf (packNibbles ds) = ds ++ List.replicate (ds.length % 2) fillerNibble := by
  induction ds using packNibbles.induct with
  | case1 => rfl
  | case2 lo => simp [packNibbles, nibblesOf]
  | case3 lo hi t ih => simp [packNibbles, nibblesOf, ih, Nat.add_assoc]

/-- Reading as many nibbles as digits were packed gives the digits. -/
theorem take_nibblesOf_packNibbles (ds : List Nibble) : (nibblesOf (packNibbles ds)).take ds.length = ds := by
  rw [nibblesOf_packNibbles, List.take_left]

theorem nibblesOf_getElem {bs : List Byte} {k : Nat} (hk : k / 2 < bs.length) :
    (nibblesOf bs)[k]'(by rw [nibblesOf_length]; omega) = bs[k / 2].extractLsb' (if k % 2 = 0 then 0 else 4) 4 := by
  apply Option.some_injective
  rw [← List.getElem?_eq_getElem, nibblesOf_getElem?, List.getElem?_eq_getElem hk, Option.map_some]

/-- The nibble at position `k` of the packed bytes is digit `k`, or the filler. -/
theorem packNibbles_getElem {ds : List Nibble} {k : Nat} (hk : k / 2 < (packNibbles ds).length) :
    (packNibbles ds)[k / 2].extractLsb' (if k % 2 = 0 then 0 else 4) 4 = ds.getD k fillerNibble := by
  rw [← nibblesOf_getElem hk]
  simp only [nibblesOf_packNibbles]
  by_cases h : k < ds.length
  · rw [List.getElem_append_left h, List.getD_eq_getElem _ _ h]
  · rw [List.getElem_append_right (by omega), List.getElem_replicate, List.getD_eq_default _ _ (by omega)]

theorem packNibbles_low {ds : List Nibble} {j : Nat} (hj : j < (packNibbles ds).length) :
    (packNibbles ds)[j].extractLsb' 0 4 = ds.getD (2 * j) fillerNibble := by
  have hdiv : 2 * j / 2 = j := by omega
  simpa [hdiv] using packNibbles_getElem (k := 2 * j) (by rwa [hdiv])

theorem packNibbles_high {ds : List Nibble} {j : Nat} (hj : j < (packNibbles ds).length) :
    (packNibbles ds)[j].extractLsb' 4 4 = ds.getD (2 * j + 1) fillerNibble := by
  have hdiv : (2 * j + 1) / 2 = j := by omega
  simpa [hdiv, Nat.add_mod] using packNibbles_getElem (k := 2 * j + 1) (by rwa [hdiv])

/-! ## The codec (R71 to R73) -/

theorem getD_map_digitValue {d : List Char16} {k : Nat} (hk : k < d.length) :
    (d.map digitValue).getD k fillerNibble = digitValue d[k] := by
  rw [List.getD_eq_getElem _ _ (by rwa [List.length_map]), List.getElem_map]

theorem getD_map_digitValue_of_ge {d : List Char16} {k : Nat} (hk : d.length ≤ k) :
    (d.map digitValue).getD k fillerNibble = fillerNibble :=
  List.getD_eq_default _ _ (by rwa [List.length_map])

theorem bcdEncode_of_digits {d : List Char16} (h : ∀ c ∈ d, IsDigitChar c) :
    bcdEncode d = .ok (packNibbles (d.map digitValue)) :=
  bcdEncode_eq_ok fun c hc => isDigit_iff.2 (h c hc)

theorem bcdEncode_eq_notDigit {d : List Char16} {k : Nat} (hk : k < d.length)
    (before : ∀ j (hj : j < k), IsDigitChar d[j]) (bad : ¬ IsDigitChar d[k]) : bcdEncode d = .error (.notDigit k) := by
  have hfind : d.findIdx? (fun c => !isDigit c) = some k :=
    List.findIdx?_eq_some_iff_getElem.2 ⟨hk, by simpa [← isDigit_iff] using bad, by simpa [isDigit_iff] using before⟩
  simp [bcdEncode, hfind]

theorem bcdDecode_eq_tooShort {bs : List Byte} {c : Nat} (short : bs.length < (c + 1) / 2) :
    bcdDecode bs c = .error (.tooShort ((c + 1) / 2)) := if_pos short

theorem bcdDecode_of_digits {bs : List Byte} {c : Nat} (enough : (c + 1) / 2 ≤ bs.length)
    (h : ∀ v ∈ (nibblesOf bs).take c, v.toNat ≤ 9) :
    bcdDecode bs c = .ok (((nibblesOf bs).take c).map digitChar) := by
  have hfind : ((nibblesOf bs).take c).findIdx? (fun v => !isDigitNibble v) = none :=
    List.findIdx?_eq_none_iff.2 fun v hv => by simpa [isDigitNibble_iff] using h v hv
  simp [bcdDecode, Nat.not_lt.2 enough, hfind]

theorem bcdDecode_eq_badNibble {bs : List Byte} {c k : Nat} (enough : (c + 1) / 2 ≤ bs.length)
    (hk : k < ((nibblesOf bs).take c).length) (before : ∀ j (hj : j < k), ((nibblesOf bs).take c)[j].toNat ≤ 9)
    (bad : 9 < ((nibblesOf bs).take c)[k].toNat) : bcdDecode bs c = .error (.badNibble k) := by
  have hfind : ((nibblesOf bs).take c).findIdx? (fun v => !isDigitNibble v) = some k :=
    List.findIdx?_eq_some_iff_getElem.2
      ⟨hk, by simpa [isDigitNibble] using bad, fun j hj => by simpa [isDigitNibble] using before j hj⟩
  simp [bcdDecode, Nat.not_lt.2 enough, hfind]

theorem map_digitChar_map_digitValue {d : List Char16} (h : ∀ c ∈ d, IsDigitChar c) :
    (d.map digitValue).map digitChar = d := by
  rw [List.map_map]
  exact (List.map_congr_left fun c hc => digitChar_digitValue (h c hc)).trans (List.map_id d)

theorem bcdDecode_packNibbles {d : List Char16} (h : ∀ c ∈ d, IsDigitChar c) :
    bcdDecode (packNibbles (d.map digitValue)) d.length = .ok d := by
  have htake : (nibblesOf (packNibbles (d.map digitValue))).take d.length = d.map digitValue := by
    simpa using take_nibblesOf_packNibbles (d.map digitValue)
  have hdigits : ∀ v ∈ d.map digitValue, v.toNat ≤ 9 :=
    List.forall_mem_map.2 fun c hc => digitValue_le_nine (h c hc)
  have hlen := bcdEncode_ok_length (bcdEncode_of_digits h)
  rw [bcdDecode_of_digits hlen.ge (by rwa [htake]), htake, map_digitChar_map_digitValue h]

/-- Settles O26: the nibbles of the packed bytes are the digits, and the filler past an odd end. -/
theorem bcdCodecLaws : Obligations.BcdCodecLaws := by
  unfold Obligations.BcdCodecLaws
  intro d hd
  have hlen := bcdEncode_ok_length (bcdEncode_of_digits hd)
  have hdigit (k : Nat) (hk : k < d.length) : ((d.map digitValue).getD k fillerNibble).toNat ≤ 9 := by
    rw [getD_map_digitValue hk]
    exact digitValue_le_nine (hd _ (List.getElem_mem hk))
  refine ⟨_, bcdEncode_of_digits hd, bcdDecode_packNibbles hd, fun hodd => ?_, fun heven b hb => ?_⟩
  · have hlast : d.length / 2 < (packNibbles (d.map digitValue)).length := by omega
    refine ⟨(packNibbles (d.map digitValue))[d.length / 2], ?_, ?_⟩
    · rw [List.getLast?_eq_getElem?, show (packNibbles (d.map digitValue)).length - 1 = d.length / 2 by omega]
      exact List.getElem?_eq_getElem hlast
    · rw [packNibbles_high hlast, getD_map_digitValue_of_ge (by omega)]
      rfl
  · obtain ⟨j, hj, rfl⟩ := List.getElem_of_mem hb
    rw [packNibbles_low hj, packNibbles_high hj]
    exact ⟨hdigit _ (by omega), hdigit _ (by omega)⟩

/-! ## BCD_ENC (R76) -/

/-- Settles O22: the digits of the operand stand at the positions of the nibbles, the filler at the one past an odd end. -/
theorem bcdEncodePacksDigits : Obligations.BcdEncodePacksDigits := by
  unfold Obligations.BcdEncodePacksDigits
  intro s L fits hd short
  have hcodec := bcdEncode_of_digits (forall_mem_stringOperand hd)
  have hlen := bcdEncode_ok_length hcodec
  rw [stringOperand_length] at hlen
  have hdigit (k : Nat) (hk : k < L) :
      ((stringOperand s).map digitValue).getD k fillerNibble = digitValue (s.ichr.read .ichr k) := by
    rw [getD_map_digitValue (by rwa [stringOperand_length]), stringOperand_getElem]
  rw [← hlen] at short
  obtain ⟨holen, hread, hsame⟩ := bytesWritten_putBytes short
  rw [hlen] at holen hsame
  rw [exec_bcdEnc, encodeOperand_of_ok fits hcodec short]
  refine ⟨_, rfl, holen, fun j hj => ?_, hsame, completePutBytes_frame _ s⟩
  have hj' := hj.trans_eq hlen.symm
  rw [hread j hj', packNibbles_low hj', packNibbles_high hj']
  refine ⟨?_, fun hin => ?_, fun hout => ?_⟩
  · rw [hdigit _ (by omega), digitValue_toNat (hd _ (by omega))]
  · rw [hdigit _ hin, digitValue_toNat (hd _ hin)]
  · rw [getD_map_digitValue_of_ge (by rwa [stringOperand_length])]
    rfl

/-- Settles O23: the lowest index that holds no digit is the codec's error. -/
theorem bcdEncodeReportsNonDigit : Obligations.BcdEncodeReportsNonDigit := by
  unfold Obligations.BcdEncodeReportsNonDigit
  intro s k fits hk before bad
  have hcodec : bcdEncode (stringOperand s) = .error (.notDigit k) :=
    bcdEncode_eq_notDigit (by simpa using hk) (by simpa using before) (by simpa using bad)
  rw [exec_bcdEnc, encodeOperand_of_error fits hcodec]
  exact ⟨_, rfl, raiseEncoded_frame _ s⟩

/-! ## BCD_DEC (R77) -/

/-- The nibbles BcdDecode reads of the byte operand are those at the digit positions of IBUF (R72). -/
theorem take_nibblesOf_byteOperand {s : State} {c : Nat} (enough : (c + 1) / 2 ≤ s.ilen.toNat) :
    (nibblesOf (byteOperand s)).take c = (List.range c).map (nibbleAt (s.ibuf.read .ibuf)) := by
  refine List.ext_getElem (by simp; omega) fun k hk hk' => ?_
  rw [List.length_map, List.length_range] at hk'
  have hbyte : k / 2 < (byteOperand s).length := by rw [byteOperand_length]; omega
  rw [List.getElem_take, nibblesOf_getElem hbyte, byteOperand_getElem, List.getElem_map, List.getElem_range, nibbleAt]
  split_ifs <;> rfl

/-- Settles O24: the nibbles the codec reads are those at the digit positions of IBUF. -/
theorem bcdDecodeUnpacksDigits : Obligations.BcdDecodeUnpacksDigits := by
  unfold Obligations.BcdDecodeUnpacksDigits
  intro c s fits enough hd
  have htake := take_nibblesOf_byteOperand enough
  have hcodec := bcdDecode_of_digits (bs := byteOperand s) (by rwa [byteOperand_length]) (by simpa [htake] using hd)
  have hlen : (((nibblesOf (byteOperand s)).take c.toNat).map digitChar).length = c.toNat := bcdDecode_ok_length hcodec
  obtain ⟨hoclen, hread, hsame⟩ := charsWritten_putChars (bcdDecode_fits s.cfg hcodec)
  rw [hlen] at hoclen hsame
  rw [exec_bcdDec, decodeOperand_of_ok fits hcodec]
  refine ⟨_, rfl, hoclen, fun k hk => ?_, hsame, completePutChars_frame _ s⟩
  rw [hread k (hk.trans_eq hlen.symm)]
  simp [htake, digitChar_toNat]

/-- Settles O25: the codec's length check, then its first bad digit position. -/
theorem bcdDecodeReportsErrors : Obligations.BcdDecodeReportsErrors := by
  unfold Obligations.BcdDecodeReportsErrors
  refine fun c s fits => ⟨fun short => ?_, fun k enough hk before bad => ?_⟩
  · have hcodec : bcdDecode (byteOperand s) c.toNat = .error (.tooShort ((c.toNat + 1) / 2)) :=
      bcdDecode_eq_tooShort (by rwa [byteOperand_length])
    rw [exec_bcdDec, decodeOperand_of_error fits hcodec]
    exact ⟨_, rfl, raiseDecoded_frame _ s⟩
  · have hcodec : bcdDecode (byteOperand s) c.toNat = .error (.badNibble k) := by
      have htake := take_nibblesOf_byteOperand enough
      exact bcdDecode_eq_badNibble (by rwa [byteOperand_length]) (by simpa [htake] using hk)
        (by simpa [htake] using before) (by simpa [htake] using bad)
    rw [exec_bcdDec, decodeOperand_of_error fits hcodec]
    exact ⟨_, rfl, raiseDecoded_frame _ s⟩

end Sys2Proof.Machine
end

section
/-! PROOFS. The capacity errors of the codecs (spec/60_exceptions.md R101, R103). -/

namespace Sys2Proof.Machine

/-- Settles O35: the operand check comes before the codec, whichever it is. -/
theorem codecOperandOverrun : Obligations.CodecOperandOverrun := by
  unfold Obligations.CodecOperandOverrun
  refine fun s => ⟨fun overrun i hi => ?_, fun overrun i hi => ?_⟩
  · obtain rfl | rfl := hi
    · rw [exec_bcdEnc, encodeOperand_of_overrun overrun]
    · rw [exec_g7Enc, encodeOperand_of_overrun overrun]
  · obtain ⟨c, rfl⟩ | rfl := hi
    · rw [exec_bcdDec, decodeOperand_of_overrun overrun]
    · rw [exec_g7Dec, decodeOperand_of_overrun overrun]

/-- Settles O36: the result that does not fit is measured after the codec made it. -/
theorem encoderResultOverrun : Obligations.EncoderResultOverrun := by
  unfold Obligations.EncoderResultOverrun
  refine fun s fits => ⟨fun hd long => ?_, fun sep hsep long => ?_⟩
  · have hcodec := bcdEncode_of_digits (forall_mem_stringOperand hd)
    have hlen := bcdEncode_ok_length hcodec
    rw [stringOperand_length] at hlen
    rw [← hlen] at long ⊢
    rw [exec_bcdEnc, encodeOperand_of_long fits hcodec long]
    exact ⟨_, rfl, raiseEncoded_frame _ s⟩
  · have hcodec : g7Encode s.cfg.params (stringOperand s) = .ok (g7Pack sep) := by rw [g7Encode, hsep]
    rw [← g7Pack_length] at long ⊢
    rw [exec_g7Enc, encodeOperand_of_long fits hcodec long]
    exact ⟨_, rfl, raiseEncoded_frame _ s⟩

end Sys2Proof.Machine
end

section
/-! PROOFS. The map from characters to septets (spec/42_gsm7.md R81): what one character gives, what a text gives, and
which character a text without septets is refused for. -/

namespace Sys2Proof.Machine

variable {p : Params} {ch : Char16}

/-! ## One character -/

theorem septetOf_isSome_iff {table : List (Septet × Char16)} :
    (septetOf table ch).isSome = true ↔ ∃ x, (x, ch) ∈ table := by
  rw [Option.isSome_iff_ne_none, ne_eq, septetOf_eq_none, not_not]
  simp

theorem charSeptets_isSome_iff : (charSeptets p ch).isSome = true ↔ InAlphabet p ch := by
  rw [InAlphabet, ← septetOf_isSome_iff, ← septetOf_isSome_iff, charSeptets]
  cases septetOf p.gsm7Basic ch with
  | some x => simp
  | none => cases septetOf p.gsm7Ext ch <;> simp

theorem charSeptets_of_mem_basic (c : Config) {x : Septet} (h : (x, ch) ∈ c.params.gsm7Basic) :
    charSeptets c.params ch = some [x] := by
  rw [charSeptets, septetOf_of_mem (config_meetsConstraints c).basicInjective h]

theorem charSeptets_of_mem_ext (c : Config) {e : Septet} (h : (e, ch) ∈ c.params.gsm7Ext) :
    charSeptets c.params ch = some [escapeSeptet, e] := by
  have hc := config_meetsConstraints c
  have hbasic := septetOf_eq_none.2 (hc.disjoint ch (List.mem_map_of_mem h))
  rw [charSeptets, hbasic, septetOf_of_mem hc.extInjective h]

/-- An extension character has two septets, every other one (R81). -/
theorem charSeptets_length (c : Config) {l : List Septet} (h : charSeptets c.params ch = some l) :
    l.length = 1 + if ch ∈ c.params.gsm7Ext.map Prod.snd then 1 else 0 := by
  obtain ⟨x, rfl, hx, rfl⟩ | ⟨e, rfl, he⟩ := charSeptets_cases c h
  · have hbasic := List.mem_map_of_mem (f := Prod.snd) (basicChar_mem c hx)
    rw [if_neg fun hext => (config_meetsConstraints c).disjoint _ hext hbasic]
    rfl
  · rw [if_pos (List.mem_map_of_mem (f := Prod.snd) (mem_of_charOf he))]
    rfl

/-- No character of the default tables is U+001B or reaches the surrogate units (R78, R79). Compared as numbers, so that
the kernel evaluates it fast. -/
theorem default_chars_bounded : (defaultParams.gsm7Basic ++ defaultParams.gsm7Ext).all
    (fun e => !Nat.beq e.2.toNat 0x1B && Nat.ble e.2.toNat 0xD7FF) = true := by decide +kernel

theorem InAlphabet.default_bounded (h : InAlphabet defaultParams ch) : ch.toNat ≠ 0x1B ∧ ch.toNat ≤ 0xD7FF := by
  obtain ⟨x, hx⟩ : ∃ x, (x, ch) ∈ defaultParams.gsm7Basic ++ defaultParams.gsm7Ext := by
    simpa only [InAlphabet, List.mem_append, exists_or] using h
  have hbounded := List.all_eq_true.1 default_chars_bounded _ hx
  rw [Bool.and_eq_true, Bool.not_eq_true', ← Bool.not_eq_true, Nat.beq_eq, Nat.ble_eq] at hbounded
  exact hbounded

/-! ## A text -/

theorem g7Map_singleton {l : List Septet} (h : charSeptets p ch = some l) : g7Map p [ch] = .ok l := by
  simp [g7Map_ok_of, h]

theorem g7Map_append {t u : List Char16} {st su : List Septet} (ht : g7Map p t = .ok st) (hu : g7Map p u = .ok su) :
    g7Map p (t ++ u) = .ok (st ++ su) := by
  obtain ⟨hts, rfl⟩ := g7Map_ok ht
  obtain ⟨hus, rfl⟩ := g7Map_ok hu
  rw [g7Map_ok_of (List.forall_mem_append.2 ⟨hts, hus⟩), List.flatMap_append]

/-- The error of a text is at its lowest index whose character has no table entry (R81). -/
theorem g7Map_eq_notInAlphabet {t : List Char16} {k : Nat} (hk : k < t.length)
    (before : ∀ j (hj : j < k), InAlphabet p t[j]) (bad : ¬ InAlphabet p t[k]) :
    g7Map p t = .error (.notInAlphabet k) := by
  have hfind : t.findIdx? (fun c => (charSeptets p c).isNone) = some k :=
    List.findIdx?_eq_some_iff_getElem.2
      ⟨hk, by simpa [← charSeptets_isSome_iff] using bad,
        fun j hj => by simpa [← charSeptets_isSome_iff, Option.isSome_iff_ne_none] using before j hj⟩
  rw [g7Map, hfind]

theorem g7Map_singleton_eq_notInAlphabet (h : ¬ InAlphabet p ch) : g7Map p [ch] = .error (.notInAlphabet 0) :=
  g7Map_eq_notInAlphabet Nat.zero_lt_one nofun h

/-- The septet count of a text (R81). -/
theorem g7Map_ok_length (c : Config) {t : List Char16} {sep : List Septet} (h : g7Map c.params t = .ok sep) :
    sep.length = t.length + t.countP fun ch => decide (ch ∈ c.params.gsm7Ext.map Prod.snd) := by
  obtain ⟨hs, rfl⟩ := g7Map_ok h
  clear h
  induction t with
  | nil => rfl
  | cons ch t ih =>
    obtain ⟨hch, ht⟩ := List.forall_mem_cons.1 hs
    obtain ⟨l, hl⟩ := Option.isSome_iff_exists.1 hch
    rw [List.flatMap_cons, List.length_append, ih ht, hl, Option.getD_some, charSeptets_length c hl,
      List.countP_cons, List.length_cons]
    simp only [decide_eq_true_eq]
    omega

/-- Settles O27: the map of each character, and what it gives for a text. -/
theorem septetMapping : Obligations.SeptetMapping := by
  unfold Obligations.SeptetMapping
  refine fun c => ⟨rfl, fun _ _ h => g7Map_singleton (charSeptets_of_mem_basic c h),
    fun _ _ h => g7Map_singleton (charSeptets_of_mem_ext c h), fun _ => g7Map_singleton_eq_notInAlphabet,
    fun _ _ _ _ => g7Map_append, fun t u ch ht hch => ?_, fun _ _ => g7Map_ok_length c, fun hc ch hch => ?_⟩
  · refine g7Map_eq_notInAlphabet (by simp) (fun j hj => ?_) (by simpa using hch)
    rw [List.getElem_append_left hj]
    exact ht _ (List.getElem_mem hj)
  · rw [hc]
    refine g7Map_singleton_eq_notInAlphabet fun hin => ?_
    have := hin.default_bounded
    omega

end Sys2Proof.Machine
end

section
/-! PROOFS. The bits of packed and unpacked septets (spec/42_gsm7.md R82, R83, R86): values cut from the bit stream of
other values have the bits of those. -/

namespace Sys2Proof.Machine

/-- Bit `j` of a stream is bit `j mod v` of value `j div v`, 0 past the end (R82, R83). -/
theorem bitStream_getD {v : Nat} (hv : 0 < v) (xs : List (BitVec v)) (j : Nat) :
    (bitStream xs).getD j false = (xs.getD (j / v) 0).getLsbD (j % v) := by
  rw [List.getD_eq_getElem?_getD, bitStream_getElem? hv, List.getD_eq_getElem?_getD]
  cases xs[j / v]? <;> simp

/-- Bit `t` of value `i` cut from the stream of `xs` is the bit of `xs` at the same place in the stream. -/
theorem chunks_bitStream_getLsbD {v w n : Nat} (hv : 0 < v) (xs : List (BitVec v)) {i t : Nat} (hi : i < n)
    (ht : t < w) : ((chunks w n (bitStream xs)).getD i 0).getLsbD t =
      (xs.getD ((w * i + t) / v) 0).getLsbD ((w * i + t) % v) := by
  rw [List.getD_eq_getElem _ _ (by rwa [chunks_length]), chunks_bit w n _ i t hi ht, bitStream_getD hv]

/-- The bits of a packed byte (R82). -/
theorem g7Pack_getLsbD (sep : List Septet) {i b : Nat} (hi : i < (7 * sep.length + 7) / 8) (hb : b < 8) :
    ((g7Pack sep).getD i 0).getLsbD b = (sep.getD ((8 * i + b) / 7) 0).getLsbD ((8 * i + b) % 7) :=
  chunks_bitStream_getLsbD (by decide) sep hi hb

/-- The bits of an unpacked septet (R83). -/
theorem g7Unpack_getLsbD (bs : List Byte) {k b : Nat} (hk : k < 8 * bs.length / 7) (hb : b < 7) :
    ((g7Unpack bs).getD k 0).getLsbD b = (bs.getD ((7 * k + b) / 8) 0).getLsbD ((7 * k + b) % 8) :=
  chunks_bitStream_getLsbD (by decide) bs hk hb

/-- Settles O30: the bits of the septets are cut from the stream of the bytes. -/
theorem unpackedSeptets : Obligations.UnpackedSeptets := by
  unfold Obligations.UnpackedSeptets
  exact fun bs => ⟨g7Unpack_length bs, fun _ hk _ => g7Unpack_getLsbD bs hk⟩

/-- Each septet unpacked from packed septets is the one packed, and 0 past the last. -/
theorem getD_g7Unpack_g7Pack (sep : List Septet) {k : Nat} (hk : k < (g7Unpack (g7Pack sep)).length) :
    (g7Unpack (g7Pack sep)).getD k 0 = sep.getD k 0 := by
  rw [g7Unpack_length] at hk
  have hlen := g7Pack_length sep
  refine BitVec.eq_of_getLsbD_eq fun b hb => ?_
  have hplace : 8 * ((7 * k + b) / 8) + (7 * k + b) % 8 = 7 * k + b := Nat.div_add_mod ..
  have hdiv : (7 * k + b) / 7 = k := by omega
  have hmod : (7 * k + b) % 7 = b := by omega
  rw [g7Unpack_getLsbD _ hk hb, g7Pack_getLsbD sep (by omega) (by omega), hplace, hdiv, hmod]

/-- The septets that fit the bytes of `n` packed septets (R83, R86): one more than packed where the last byte has
seven bits left. -/
theorem septets_of_packed_length (n : Nat) : 8 * ((7 * n + 7) / 8) / 7 = n + if n % 8 = 7 then 1 else 0 := by
  have hbytes : (7 * n + 7) / 8 = n - n / 8 := by omega
  rw [hbytes]
  split_ifs <;> omega

/-- Unpacking gives the packed septets back, and one septet 0x00 more where seven bits are left (R86). -/
theorem g7Unpack_g7Pack (sep : List Septet) :
    g7Unpack (g7Pack sep) = sep ++ List.replicate (if sep.length % 8 = 7 then 1 else 0) 0 := by
  refine List.ext_getElem (by simp [septets_of_packed_length]) fun k hk hk' => ?_
  rw [← List.getD_eq_getElem _ 0 hk, getD_g7Unpack_g7Pack sep hk]
  by_cases h : k < sep.length
  · rw [List.getElem_append_left h, List.getD_eq_getElem _ _ h]
  · rw [List.getElem_append_right (by omega), List.getElem_replicate, List.getD_eq_default _ _ (by omega)]

end Sys2Proof.Machine
end

section
/-! PROOFS. G7_ENC (spec/42_gsm7.md R82, R84, R88). -/

namespace Sys2Proof.Machine

/-- A text of the alphabet is encoded as its packed septets (R84). -/
theorem g7Encode_of_ok {p : Params} {t : List Char16} {sep : List Septet} (h : g7Map p t = .ok sep) :
    g7Encode p t = .ok (g7Pack sep) := by rw [g7Encode, h]

theorem g7Encode_of_error {p : Params} {t : List Char16} {e : AfcError} (h : g7Map p t = .error e) :
    g7Encode p t = .error e := by rw [g7Encode, h]

/-- Settles O28: the bytes written are the packed septets of the operand. -/
theorem g7EncodePacksSeptets : Obligations.G7EncodePacksSeptets := by
  unfold Obligations.G7EncodePacksSeptets
  intro s sep fits hsep short
  have hlen := g7Pack_length sep
  rw [← hlen] at short
  obtain ⟨holen, hread, hsame⟩ := bytesWritten_putBytes short
  rw [hlen] at holen hsame
  rw [exec_g7Enc, encodeOperand_of_ok fits (g7Encode_of_ok hsep) short]
  refine ⟨_, rfl, holen, fun i hi b hb => ?_, hsame, completePutBytes_frame _ s⟩
  have hi' := hi.trans_eq hlen.symm
  rw [hread i hi', ← List.getD_eq_getElem _ 0 hi', g7Pack_getLsbD sep hi hb]

/-- Settles O29: the lowest index whose character has no septets is the codec's error. -/
theorem g7EncodeReportsForeignCharacter : Obligations.G7EncodeReportsForeignCharacter := by
  unfold Obligations.G7EncodeReportsForeignCharacter
  intro s k fits hk before bad
  have hmap : g7Map s.cfg.params (stringOperand s) = .error (.notInAlphabet k) :=
    g7Map_eq_notInAlphabet (by simpa using hk) (by simpa using before) (by simpa using bad)
  rw [exec_g7Enc, encodeOperand_of_error fits (g7Encode_of_error hmap)]
  exact ⟨_, rfl, raiseEncoded_frame _ s⟩

end Sys2Proof.Machine
end

section
/-! PROOFS. G7_DEC and the septet reader (spec/42_gsm7.md R85 to R87, R89): septets without an escape, the septets of a
text with what follows them, and where the reader's errors stand. -/

namespace Sys2Proof.Machine

variable {p : Params} {s : State}

/-! ## The reader -/

/-- Septets without an escape read as their basic characters (R85). -/
theorem g7Read_of_no_escape {sep : List Septet} (h : ∀ x ∈ sep, x ≠ escapeSeptet) (k : Nat) :
    g7Read p k sep = .ok (sep.map (basicChar p)) := by
  induction sep generalizing k with
  | nil => rfl
  | cons x t ih =>
    obtain ⟨hx, ht⟩ := List.forall_mem_cons.1 h
    rw [g7Read_basic p hx, ih ht]
    rfl

/-- The septets of a text read as the text (R85, R86). -/
theorem g7Read_text (c : Config) {t : List Char16} {sep : List Septet} (h : g7Map c.params t = .ok sep) (k : Nat) :
    g7Read c.params k sep = .ok t := by
  have hread := g7Read_of_text c h k []
  rw [List.append_nil] at hread
  simpa [g7Read, Except.map] using hread

theorem g7Read_dangling (p : Params) (k : Nat) : g7Read p k [escapeSeptet] = .error (.danglingEscape k) := by
  simp [g7Read]

theorem g7Read_undefined {e : Septet} (he : e ∉ p.gsm7Ext.map Prod.fst) (k : Nat) (rest : List Septet) :
    g7Read p k (escapeSeptet :: e :: rest) = .error (.undefinedEscape k) := by
  rw [g7Read, if_pos rfl, charOf_eq_none.2 he]

/-- The error is at an escape of the septets `sep`, whose first has index `k`: the last of them, or one before a septet
that the extension table lacks (R85). -/
def ErrorAtEscape (p : Params) (k : Nat) (sep : List Septet) (e : AfcError) : Prop :=
  ∃ j, sep[j]? = some escapeSeptet ∧
    ((e = .danglingEscape (k + j) ∧ j + 1 = sep.length) ∨
     (e = .undefinedEscape (k + j) ∧ ∃ x, sep[j + 1]? = some x ∧ x ∉ p.gsm7Ext.map Prod.fst))

/-- An error past the first septet. -/
theorem ErrorAtEscape.cons {k : Nat} {sep : List Septet} {e : AfcError} (h : ErrorAtEscape p (k + 1) sep e)
    (x : Septet) : ErrorAtEscape p k (x :: sep) e := by
  obtain ⟨j, hj, h⟩ := h
  refine ⟨j + 1, hj, ?_⟩
  rw [Nat.add_assoc, Nat.add_comm 1 j] at h
  simpa using h

/-- The reader raises its errors at the escape it has just met; any other error is one of the rest of the septets. -/
theorem g7Read_error {k : Nat} {sep : List Septet} {e : AfcError} (h : g7Read p k sep = .error e) :
    ErrorAtEscape p k sep e := by
  fun_induction g7Read p k sep generalizing e with
  | case1 => cases h
  | case2 =>
    cases h
    exact ⟨0, rfl, .inl ⟨rfl, rfl⟩⟩
  | case3 => cases h
  | case4 k e t he =>
    cases h
    exact ⟨0, rfl, .inr ⟨rfl, e, rfl, charOf_eq_none.1 he⟩⟩
  | case5 k e t c he err hr ih =>
    cases h
    exact ((ih hr).cons e).cons escapeSeptet
  | case6 => cases h
  | case7 k x e t hx err hr ih =>
    cases h
    exact (ih hr).cons x
  | case8 => cases h

/-- Settles O33: the reader starts at septet index 0. -/
theorem g7DecodeErrorsAtEscapes : Obligations.G7DecodeErrorsAtEscapes := by
  unfold Obligations.G7DecodeErrorsAtEscapes
  intro p bs e h
  obtain ⟨j, hj, hkind⟩ := g7Read_error h
  rw [Nat.zero_add] at hkind
  exact ⟨j, hj, hkind⟩

/-- Settles O34: the septets unpacked are those of the text, and one septet 0x00 more where a septet of bits is left
over. -/
theorem g7RoundTripWithTrailingSeptet : Obligations.G7RoundTripWithTrailingSeptet := by
  unfold Obligations.G7RoundTripWithTrailingSeptet
  refine fun c t sep h => ⟨fun hS => ?_, fun hS => ⟨basicChar c.params 0, basicChar_mem c (by decide), ?_⟩⟩
  · rw [g7Decode, g7Unpack_g7Pack, if_neg hS, List.replicate_zero, List.append_nil, g7Read_text c h]
  · rw [g7Decode, g7Unpack_g7Pack, if_pos hS, List.replicate_one, g7Read_of_text c h,
      g7Read_of_no_escape (by decide)]
    rfl

/-! ## The command -/

/-- G7_DEC on bytes that decode (R89). -/
theorem g7Dec_writes {cs : List Char16} (fits : s.ilen.toNat ≤ s.cfg.params.ibufCap)
    (h : g7Decode s.cfg.params (byteOperand s) = .ok cs) :
    ∃ t, exec .g7Dec s = .next t ∧ Succeeded s t ∧ CharsWritten cs s t ∧
      SameHostSide s t ∧ SameField s t ∧ SameBytes s t ∧ t.res = s.res := by
  have hwritten := charsWritten_putChars (g7Decode_fits s.cfg (by rwa [byteOperand_length]) h)
  obtain ⟨hsucceeded, hframe⟩ := completePutChars_frame cs s
  rw [exec_g7Dec, decodeOperand_of_ok fits h]
  exact ⟨_, rfl, hsucceeded, hwritten, hframe⟩

/-- G7_DEC on bytes that do not decode (R89, R103). -/
theorem g7Dec_fails {e : AfcError} (fits : s.ilen.toNat ≤ s.cfg.params.ibufCap)
    (h : g7Decode s.cfg.params (byteOperand s) = .error e) :
    ∃ t, exec .g7Dec s = .next t ∧ Failed e.cause e.sub e.idx t ∧ t.oclen = 0 ∧
      SameHostSide s t ∧ SameField s t ∧ SameBytes s t ∧ t.res = s.res := by
  rw [exec_g7Dec, decodeOperand_of_error fits h]
  exact ⟨_, rfl, raiseDecoded_frame e s⟩

/-- Settles O31: the string written has the basic character of each septet. -/
theorem g7DecodeUnpacksText : Obligations.G7DecodeUnpacksText := by
  unfold Obligations.G7DecodeUnpacksText
  intro s sep fits hsep
  have hlen : (sep.map (basicChar s.cfg.params)).length = 8 * s.ilen.toNat / 7 := by simp [sep]
  have hcodec : g7Decode s.cfg.params (byteOperand s) = .ok _ := g7Read_of_no_escape hsep 0
  obtain ⟨t, hexec, hsucceeded, ⟨hoclen, hread, hsame⟩, hframe⟩ := g7Dec_writes fits hcodec
  rw [hlen] at hoclen hsame
  refine ⟨t, hexec, hoclen, fun k hk => ?_, hsame, hsucceeded, hframe⟩
  have hk' : k < sep.length := by rwa [← hlen, List.length_map] at hk
  rw [hread k (hk.trans_eq hlen.symm), List.getElem_map, List.getD_eq_getElem _ _ hk']
  exact basicChar_mem s.cfg (hsep _ (List.getElem_mem hk'))

/-- Settles O32: the reader reads the text before the escape and goes on at the escape's index. -/
theorem g7DecodeEscapes : Obligations.G7DecodeEscapes := by
  unfold Obligations.G7DecodeEscapes
  intro s text pre fits hpre
  have hdecode {rest : List Septet} (h : g7Unpack (byteOperand s) = pre ++ rest) :
      g7Decode s.cfg.params (byteOperand s) = (g7Read s.cfg.params pre.length rest).map (text ++ ·) := by
    rw [g7Decode, h, g7Read_of_text s.cfg hpre, Nat.zero_add]
  refine ⟨fun h => g7Dec_writes fits ?_, fun e ch more tail h he hmore => g7Dec_writes fits ?_,
    fun h => g7Dec_fails (e := .danglingEscape pre.length) fits ?_,
    fun e more h he => g7Dec_fails (e := .undefinedEscape pre.length) fits ?_⟩
  · rw [g7Decode, h, g7Read_text s.cfg hpre]
  · have hch := charOf_of_mem (config_meetsConstraints s.cfg).extMap he
    rw [hdecode h, ← escapeSeptet, g7Read_escape hch, g7Read_text s.cfg hmore]
    rfl
  · rw [hdecode h, ← escapeSeptet, g7Read_dangling]
    rfl
  · rw [hdecode h, ← escapeSeptet, g7Read_undefined he]
    rfl

end Sys2Proof.Machine
end

section
/-! PROOFS. FLD_LOAD and FLD_RAW (spec/43_field.md R92, R93), with what the commands that write the FIELD storage share:
the word that selects a command without operands, a field stored whole, and an error that leaves it (R24, R103). -/

namespace Sys2Proof.Machine

variable {s : State}

/-! ## The word of a command -/

/-- One word selects a command with its operands, and no other (R54, R60). -/
theorem decode_eq_ok_iff {v : Word} {i : Instr} : decode v = .ok i ↔ v = encode i := by
  refine ⟨fun h => (encodeOfDecodeIsIdentity v i h).symm, ?_⟩
  rintro rfl
  obtain ⟨hwf, -⟩ := encodedWord i
  exact decodeOfEncodeIsIdentity i hwf

/-! ## Storing a field -/

/-- A field that fits stands in RAW and RAWLEN (R24, R35). -/
theorem fieldWritten_putField {bs : List Byte} (fits : bs.length ≤ s.cfg.params.rawCap) :
    FieldWritten bs s (complete (putField bs s)) :=
  ⟨putField_rawLen_toNat fits, fun _ => read_writePrefix_lt .raw s.raw bs, sameFrom_writePrefix .raw s.raw bs⟩

/-- Storing a field leaves all else but STATUS as it was (R102). -/
theorem completePutField_frame (bs : List Byte) (s : State) :
    Succeeded s (complete (putField bs s)) ∧ SameHostSide s (complete (putField bs s)) ∧
    SameBytes s (complete (putField bs s)) ∧ SameChars s (complete (putField bs s)) ∧
    (complete (putField bs s)).res = s.res :=
  ⟨rfl, ⟨rfl, rfl, rfl, rfl, rfl, rfl, rfl, rfl, rfl⟩, ⟨rfl, rfl⟩, ⟨rfl, rfl⟩, rfl⟩

theorem storeField_ok (bs : List Byte) (s : State) : storeField (.ok bs) s = complete (putField bs s) := rfl

/-- An error of a command that writes the FIELD storage writes STATUS alone (R103). -/
theorem storeField_error (e : AfcError) (s : State) :
    storeField (.error e) s = { s with status := statusAfterError e } := rfl

/-! ## FLD_LOAD -/

theorem exec_fldLoad (s : State) : exec .fldLoad s = .next (storeField (loadField s) s) := rfl

/-- IDX holds a length register whole (R101). -/
theorem statusAfterError_rawOverrun (n : BitVec 16) :
    statusAfterError (.rawOverrun n.toNat) = statusWord 5 4 true n := by
  simp [statusAfterError, AfcError.cause, AfcError.sub, AfcError.idx]

theorem loadField_of_overrun (overrun : s.cfg.params.ibufCap < s.ilen.toNat) :
    loadField s = .error (.ibufOverrun s.ilen.toNat) := if_pos (decide_eq_true overrun)

theorem loadField_of_long (fits : s.ilen.toNat ≤ s.cfg.params.ibufCap) (long : s.cfg.params.rawCap < s.ilen.toNat) :
    loadField s = .error (.rawOverrun s.ilen.toNat) := by simp [loadField, ibufOver_eq_false fits, long]

theorem loadField_of_fits (fits : s.ilen.toNat ≤ s.cfg.params.ibufCap)
    (short : s.ilen.toNat ≤ s.cfg.params.rawCap) : loadField s = .ok (byteOperand s) := by
  simp [loadField, ibufOver_eq_false fits, Nat.not_lt.2 short]

/-- Settles O41: the byte operand is the field stored, unless one of the two checks on its length fails. -/
theorem loadFieldStoresBytes : Obligations.LoadFieldStoresBytes := by
  unfold Obligations.LoadFieldStoresBytes
  refine ⟨fun _ => decode_eq_ok_iff, fun s => ⟨fun fits short => ?_, fun overrun => ?_, fun fits long => ?_⟩⟩
  · have hlen := byteOperand_length s
    rw [← hlen] at short
    obtain ⟨hrawLen, hread, hsame⟩ := fieldWritten_putField short
    rw [hlen] at hrawLen hsame short
    rw [exec_fldLoad, loadField_of_fits fits short, storeField_ok]
    refine ⟨_, rfl, BitVec.eq_of_toNat_eq hrawLen, fun i hi => ?_, hsame, completePutField_frame _ s⟩
    rw [hread i (hi.trans_eq hlen.symm), byteOperand_getElem]
  · rw [exec_fldLoad, loadField_of_overrun overrun, storeField_error, statusAfterError_ibufOverrun]
  · rw [exec_fldLoad, loadField_of_long fits long, storeField_error, statusAfterError_rawOverrun]

/-! ## FLD_RAW -/

theorem exec_fldRaw (s : State) : exec .fldRaw s = .next (complete (putBytes (fieldBytes s) s)) := rfl

@[simp] theorem fieldBytes_getElem (s : State) {i : Nat} (h : i < (fieldBytes s).length) :
    (fieldBytes s)[i] = s.raw.read .raw i := readPrefix_getElem ..

/-- Settles O42: the byte result is the field, whose length is RAWLEN. -/
theorem readRawCopiesField : Obligations.ReadRawCopiesField := by
  unfold Obligations.ReadRawCopiesField
  refine ⟨fun _ => decode_eq_ok_iff, fun s =>
    ⟨_, exec_fldRaw s, ?_, fun i hi => ?_, ?_, completePutBytes_frame _ s⟩⟩
  · rw [complete_olen, putBytes_olen, fieldBytes_length, BitVec.ofNat_toNat, BitVec.setWidth_eq]
  · have hi' : i < (fieldBytes s).length := by rwa [fieldBytes_length]
    exact (read_writePrefix_lt .obuf s.obuf _ hi').trans (fieldBytes_getElem s hi')
  · exact sameFrom_writePrefix_length .obuf s.obuf (fieldBytes_length s).symm

end Sys2Proof.Machine
end

section
/-! PROOFS. FLD_CONS (spec/43_field.md R90, R91): the checks on the operands in their order, the body of each path, and
the field of header and body. -/

namespace Sys2Proof.Machine

variable {p : Params} {s : State} {nat : BitVec 3} {pln : BitVec 4} {ext : Bool}

theorem exec_fldCons (nat : BitVec 3) (natp : Bool) (pln : BitVec 4) (plnp ext adrp : Bool) (s : State) :
    exec (.fldCons nat natp pln plnp ext adrp) s = .next (storeField
      (consField s.cfg.params nat natp pln plnp ext adrp (ichrOver s) s.iclen.toNat (stringOperand s)) s) := rfl

/-! ## Header and body joined -/

theorem joinField_of_fits {h : Byte} {b : List Byte} (short : 1 + b.length ≤ p.rawCap) :
    joinField p h (.ok b) = .ok (h :: b) := if_neg (Nat.not_lt.2 short)

theorem joinField_of_long {h : Byte} {b : List Byte} (long : p.rawCap < 1 + b.length) :
    joinField p h (.ok b) = .error (.rawOverrun (1 + b.length)) := if_pos long

theorem joinField_of_error (h : Byte) (e : AfcError) : joinField p h (.error e) = .error e := rfl

/-! ## The two paths, once the operands have passed their checks -/

section Paths

variable (hnat : nat ∈ s.cfg.params.natureDefined) (fits : s.iclen.toNat ≤ s.cfg.params.ichrCap)
include hnat fits

/-- The digit path (R90, R91). -/
theorem exec_fldCons_digitPath (hpln : pln ∈ s.cfg.params.planDefined) (path : pln ≠ s.cfg.params.alnumPlan)
    (short : s.iclen.toNat ≤ 38) : exec (.fldCons nat true pln true ext true) s =
      .next (storeField (joinField s.cfg.params (hdrEncode nat pln ext) (bcdEncode (stringOperand s))) s) := by
  rw [← natureDefined_iff] at hnat
  rw [← planDefined_iff] at hpln
  rw [exec_fldCons]
  simp [consField, encodeBody, alnumPath, ichrOver_eq_false fits, Config.digitCeiling, hnat, hpln, path,
    Nat.not_lt.2 short]

/-- The alphanumeric path (R90, R91). -/
theorem exec_fldCons_alnumPath : exec (.fldCons nat true s.cfg.params.alnumPlan true ext true) s =
    .next (storeField (joinField s.cfg.params (hdrEncode nat s.cfg.params.alnumPlan ext)
      (g7Encode s.cfg.params (stringOperand s))) s) := by
  rw [← natureDefined_iff] at hnat
  have hpln := alnumPlan_defined s.cfg
  rw [exec_fldCons]
  simp [consField, encodeBody, alnumPath, ichrOver_eq_false fits, hnat, hpln]

end Paths

/-! ## What is constructed -/

/-- FLD_CONS stores the header and the packed digits: at most 20 bytes, which every RAW holds (R13 (a), R91). -/
theorem exec_fldCons_of_digits (hnat : nat ∈ s.cfg.params.natureDefined) (hpln : pln ∈ s.cfg.params.planDefined)
    (path : pln ≠ s.cfg.params.alnumPlan) (fits : s.iclen.toNat ≤ s.cfg.params.ichrCap)
    (short : s.iclen.toNat ≤ 38) (hd : ∀ c ∈ stringOperand s, IsDigitChar c) :
    1 + (packNibbles ((stringOperand s).map digitValue)).length ≤ s.cfg.params.rawCap ∧
    exec (.fldCons nat true pln true ext true) s = .next (complete
      (putField (hdrEncode nat pln ext :: packNibbles ((stringOperand s).map digitValue)) s)) := by
  have hcodec := bcdEncode_of_digits hd
  have hfits : 1 + (packNibbles ((stringOperand s).map digitValue)).length ≤ s.cfg.params.rawCap := by
    have hcaps := config_caps s.cfg
    have hlen := bcdEncode_ok_length hcodec
    rw [stringOperand_length] at hlen
    omega
  refine ⟨hfits, ?_⟩
  rw [exec_fldCons_digitPath hnat fits hpln path short, hcodec, joinField_of_fits hfits, storeField_ok]

/-- FLD_CONS stores the header and the packed septets of a text that fits (R91). -/
theorem exec_fldCons_of_text {sep : List Septet} (hnat : nat ∈ s.cfg.params.natureDefined)
    (fits : s.iclen.toNat ≤ s.cfg.params.ichrCap) (hsep : g7Map s.cfg.params (stringOperand s) = .ok sep)
    (short : 1 + (7 * sep.length + 7) / 8 ≤ s.cfg.params.rawCap) :
    exec (.fldCons nat true s.cfg.params.alnumPlan true ext true) s =
      .next (complete (putField (hdrEncode nat s.cfg.params.alnumPlan ext :: g7Pack sep) s)) := by
  rw [← g7Pack_length] at short
  rw [exec_fldCons_alnumPath hnat fits, g7Encode_of_ok hsep, joinField_of_fits short, storeField_ok]

/-- The digits packed from the string operand stand in the low and then the high nibble of each byte, and past an odd
end stands the filler (R71). -/
theorem packNibbles_stringOperand (hd : ∀ i < s.iclen.toNat, IsDigitChar (s.ichr.read .ichr i)) {j : Nat}
    (hj : j < (packNibbles ((stringOperand s).map digitValue)).length) :
    ((packNibbles ((stringOperand s).map digitValue))[j].extractLsb' 0 4).toNat + 0x30 =
      (s.ichr.read .ichr (2 * j)).toNat ∧
    (2 * j + 1 < s.iclen.toNat → ((packNibbles ((stringOperand s).map digitValue))[j].extractLsb' 4 4).toNat + 0x30 =
      (s.ichr.read .ichr (2 * j + 1)).toNat) ∧
    (s.iclen.toNat ≤ 2 * j + 1 → (packNibbles ((stringOperand s).map digitValue))[j].extractLsb' 4 4 = 0xF) := by
  have hdigit (k : Nat) (hk : k < s.iclen.toNat) :
      ((stringOperand s).map digitValue).getD k fillerNibble = digitValue (s.ichr.read .ichr k) := by
    rw [getD_map_digitValue (by rwa [stringOperand_length]), stringOperand_getElem]
  have hlow : 2 * j < s.iclen.toNat := by
    rw [packNibbles_length, List.length_map, stringOperand_length] at hj
    omega
  rw [packNibbles_low hj, packNibbles_high hj]
  refine ⟨?_, fun hin => ?_, fun hout => ?_⟩
  · rw [hdigit _ hlow, digitValue_toNat (hd _ hlow)]
  · rw [hdigit _ hin, digitValue_toNat (hd _ hin)]
  · rw [getD_map_digitValue_of_ge (by rwa [stringOperand_length])]
    rfl

/-- Settles O37: the fields of the header come back from the first byte, and the packed digits are the bytes after
it. -/
theorem constructDigitField : Obligations.ConstructDigitField := by
  unfold Obligations.ConstructDigitField
  intro nat pln ext s L hnat hpln path fits short hd
  have hdigits := forall_mem_stringOperand hd
  obtain ⟨hfits, hexec⟩ := exec_fldCons_of_digits (ext := ext) hnat hpln path fits short hdigits
  have hbody : (packNibbles ((stringOperand s).map digitValue)).length = (L + 1) / 2 := by
    rw [packNibbles_length, List.length_map, stringOperand_length]
  obtain ⟨hrawLen, hread, hsame⟩ := fieldWritten_putField
    (bs := hdrEncode nat pln ext :: packNibbles ((stringOperand s).map digitValue))
    (by rwa [List.length_cons, Nat.add_comm])
  rw [List.length_cons, hbody, Nat.add_comm] at hrawLen hsame
  have hhead := hread 0 (Nat.zero_lt_succ _)
  refine ⟨_, hexec, hrawLen, ?_, ?_, ?_, fun j hj => ?_, hsame, completePutField_frame _ s⟩
  · rw [hhead]
    exact hdrPlan_hdrEncode nat pln ext
  · rw [hhead]
    exact hdrNature_hdrEncode nat pln ext
  · rw [hhead]
    exact hdrExt_hdrEncode nat pln ext
  · have hj := hj.trans_eq hbody.symm
    have hbyte := hread (j + 1) (Nat.succ_lt_succ hj)
    rw [List.getElem_cons_succ] at hbyte
    rw [Nat.add_comm 1 j, hbyte]
    exact packNibbles_stringOperand hd hj

/-- Settles O38: the field written is the header and the packed septets of the operand. -/
theorem constructAlphanumericField : Obligations.ConstructAlphanumericField := by
  unfold Obligations.ConstructAlphanumericField
  intro nat ext s sep hnat fits hsep short
  have hfits : (hdrEncode nat s.cfg.params.alnumPlan ext :: g7Pack sep).length ≤ s.cfg.params.rawCap := by
    rwa [List.length_cons, g7Pack_length, Nat.add_comm]
  exact ⟨_, exec_fldCons_of_text hnat fits hsep short, fieldWritten_putField hfits, completePutField_frame _ s⟩

/-! ## What is refused -/

/-- An error of FLD_CONS writes STATUS alone (R103). -/
theorem exec_fldCons_of_error {natp plnp adrp : Bool} {e : AfcError}
    (h : consField s.cfg.params nat natp pln plnp ext adrp (ichrOver s) s.iclen.toNat (stringOperand s) = .error e) :
    exec (.fldCons nat natp pln plnp ext adrp) s = .next { s with status := statusAfterError e } := by
  rw [exec_fldCons, h, storeField_error]

/-- Settles O39: each check is reached when those before it pass. -/
theorem constructChecksInOrder : Obligations.ConstructChecksInOrder := by
  unfold Obligations.ConstructChecksInOrder
  intro nat natp pln plnp ext adrp s ends
  simp only [← natureDefined_iff, ← planDefined_iff]
  refine ⟨?_, ?_, ?_, ?_, ?_, ?_, ?_⟩
  · rintro rfl
    exact exec_fldCons_of_error (e := .natureAbsent) rfl
  · rintro rfl rfl
    exact exec_fldCons_of_error (e := .planAbsent) rfl
  · rintro rfl rfl rfl
    exact exec_fldCons_of_error (e := .addressAbsent) rfl
  · rintro rfl rfl rfl hnat
    exact exec_fldCons_of_error (e := .undefinedNature) (by simp [consField, hnat])
  · rintro rfl rfl rfl hnat hpln
    exact exec_fldCons_of_error (e := .undefinedPlan) (by simp [consField, hnat, hpln])
  · rintro rfl rfl rfl hnat hpln overrun
    have hover : ichrOver s = true := decide_eq_true overrun
    exact exec_fldCons_of_error (e := .ichrOverrun s.iclen.toNat) (by simp [consField, hnat, hpln, hover])
  · rintro rfl rfl rfl hnat hpln fits path long
    have hover := ichrOver_eq_false fits
    exact exec_fldCons_of_error (e := .addressTooLong s.iclen.toNat)
      (by simp [consField, hnat, hpln, hover, alnumPath, path, Config.digitCeiling, long])

/-- Settles O40: the first two are the codec's error, the last the check on the length of the field made. -/
theorem constructBodyErrors : Obligations.ConstructBodyErrors := by
  unfold Obligations.ConstructBodyErrors
  intro nat pln ext s hnat hpln fits ends
  refine ⟨fun k hk path short before bad => ?_, ?_, ?_⟩
  · have hcodec : bcdEncode (stringOperand s) = .error (.notDigit k) :=
      bcdEncode_eq_notDigit (by simpa using hk) (by simpa using before) (by simpa using bad)
    exact (exec_fldCons_digitPath hnat fits hpln path short).trans
      (by rw [hcodec, joinField_of_error, storeField_error]; rfl)
  · rintro k hk rfl before bad
    have hmap : g7Map s.cfg.params (stringOperand s) = .error (.notInAlphabet k) :=
      g7Map_eq_notInAlphabet (by simpa using hk) (by simpa using before) (by simpa using bad)
    exact (exec_fldCons_alnumPath hnat fits).trans
      (by rw [g7Encode_of_error hmap, joinField_of_error, storeField_error]; rfl)
  · rintro sep rfl hsep long
    rw [← g7Pack_length] at long ⊢
    exact (exec_fldCons_alnumPath hnat fits).trans
      (by rw [g7Encode_of_ok hsep, joinField_of_long long, storeField_error]; rfl)

end Sys2Proof.Machine
end

section
/-! PROOFS. The header accessors FLD_NAT, FLD_PLAN and FLD_EXT (spec/43_field.md R94 to R97): RES as a number, from the
header byte of the FIELD. -/

namespace Sys2Proof.Machine

variable {s : State}

/-! ## The header of the field (R21) -/

theorem fieldHeader_of_absent (h : s.rawLen = 0) : fieldHeader s = none := if_pos h

theorem fieldHeader_of_present (h : s.rawLen ≠ 0) : fieldHeader s = some (s.raw.read .raw 0) := if_neg h

/-! ## RES -/

theorem resWord_nature_toNat (nat : BitVec 3) (natv : Bool) :
    (resWord nat 0 false natv false false false).toNat = nat.toNat + if natv then 0x200 else 0 := by
  revert nat natv; decide

theorem resWord_plan_toNat (pln : BitVec 4) (plnv : Bool) :
    (resWord 0 pln false false plnv false false).toNat = 0x10 * pln.toNat + if plnv then 0x400 else 0 := by
  revert pln plnv; decide

theorem resWord_extension (ext : Bool) :
    resWord 0 0 ext false false true false = if ext then 0x00000900 else 0x00000800 := by
  revert ext; decide

/-! ## The commands -/

theorem exec_fldNat (s : State) :
    exec .fldNat s = .next (resultCommand (natResult s.cfg.params (fieldHeader s)) s) := rfl

theorem exec_fldPlan (s : State) :
    exec .fldPlan s = .next (resultCommand (planResult s.cfg.params (fieldHeader s)) s) := rfl

theorem exec_fldExt (s : State) : exec .fldExt s = .next (resultCommand (extResult (fieldHeader s)) s) := rfl

/-- Settles O43: NAT stands in the low bits of RES, NATV at bit 9. -/
theorem natureAccessor : Obligations.NatureAccessor := by
  unfold Obligations.NatureAccessor
  refine ⟨fun _ => decode_eq_ok_iff, fun s => ⟨_, exec_fldNat s, fun habsent => ?_, fun hpresent => ?_,
    resultCommand_frame _ s⟩⟩
  · rw [resultCommand_res, fieldHeader_of_absent habsent, natResult]
  · rw [resultCommand_res, fieldHeader_of_present hpresent, natResult, resWord_nature_toNat, hdrNature]
    simp only [natureDefined_iff]

/-- Settles O44: PLN stands at bit 4 of RES, PLNV at bit 10. -/
theorem planAccessor : Obligations.PlanAccessor := by
  unfold Obligations.PlanAccessor
  refine ⟨fun _ => decode_eq_ok_iff, fun s => ⟨_, exec_fldPlan s, fun habsent => ?_, fun hpresent => ?_,
    resultCommand_frame _ s⟩⟩
  · rw [resultCommand_res, fieldHeader_of_absent habsent, planResult]
  · rw [resultCommand_res, fieldHeader_of_present hpresent, planResult, resWord_plan_toNat, hdrPlan]
    simp only [planDefined_iff]

/-- Settles O45: EXT stands at bit 8 of RES, EXTV at bit 11. -/
theorem extensionAccessor : Obligations.ExtensionAccessor := by
  unfold Obligations.ExtensionAccessor
  refine ⟨fun _ => decode_eq_ok_iff, fun s => ⟨_, exec_fldExt s, fun habsent => ?_, fun hpresent => ?_,
    resultCommand_frame _ s⟩⟩
  · rw [resultCommand_res, fieldHeader_of_absent habsent, extResult]
  · rw [resultCommand_res, fieldHeader_of_present hpresent, extResult, resWord_extension, hdrExt]

end Sys2Proof.Machine
end

section
/-! PROOFS. FLD_ADDR (spec/43_field.md R98, R99): the path from the header byte, the digit count from the last nibble,
and the string or null in OCHR and RES. -/

namespace Sys2Proof.Machine

variable {s : State}

/-! ## The result -/

theorem exec_fldAddr (s : State) :
    exec .fldAddr s = .next (addressResult (fieldAddress s.cfg.params (fieldBytes s)) s) := rfl

/-- FLD_ADDR leaves all but STATUS, RES and the string result as it was (R94, R99). -/
theorem addressResult_frame (v : Option (List Char16)) (s : State) :
    Succeeded s (addressResult v s) ∧ SameHostSide s (addressResult v s) ∧ SameField s (addressResult v s) ∧
    SameBytes s (addressResult v s) := by
  cases v <;> exact ⟨rfl, ⟨rfl, rfl, rfl, rfl, rfl, rfl, rfl, rfl, rfl⟩, ⟨rfl, rfl⟩, ⟨rfl, rfl⟩⟩

/-- Null: RES and OCLEN 0, OCHR as it was (R99). -/
theorem addressResult_null (s : State) : (addressResult none s).res = 0 ∧ (addressResult none s).oclen = 0 ∧
    (addressResult none s).ochr = s.ochr := ⟨rfl, rfl, rfl⟩

/-- A string: STRV alone in RES (R99). -/
theorem addressResult_res (cs : List Char16) (s : State) : (addressResult (some cs) s).res = 0x00001000 := rfl

/-- A string that fits stands in OCHR and OCLEN (R99). -/
theorem charsWritten_addressResult {cs : List Char16} (fits : cs.length ≤ s.cfg.params.ochrCap) :
    CharsWritten cs s (addressResult (some cs) s) := charsWritten_putChars fits

/-! ## Header and body -/

theorem fieldBody_length (s : State) : (fieldBytes s).tail.length = s.rawLen.toNat - 1 := by simp

theorem fieldBody_getElem (s : State) {i : Nat} (h : i < (fieldBytes s).tail.length) :
    (fieldBytes s).tail[i] = s.raw.read .raw (1 + i) := by
  rw [List.getElem_tail, fieldBytes_getElem, Nat.add_comm]

theorem fieldBytes_of_absent (h : s.rawLen = 0) : fieldBytes s = [] :=
  List.eq_nil_of_length_eq_zero (by rw [fieldBytes_length, h]; rfl)

/-- A field that is not absent is its header byte and its body (R64). -/
theorem fieldBytes_of_present (h : s.rawLen ≠ 0) : fieldBytes s = s.raw.read .raw 0 :: (fieldBytes s).tail := by
  have hpos : 0 < (fieldBytes s).length := by
    rw [fieldBytes_length]
    bv_omega
  rw [← fieldBytes_getElem s hpos, List.getElem_zero, List.cons_head_tail]

theorem fieldAddress_nil (p : Params) : fieldAddress p [] = none := rfl

/-- The digit path is taken by every plan code but one, defined or not (R98). -/
theorem fieldAddress_digitPath {p : Params} {h : Byte} (path : hdrPlan h ≠ p.alnumPlan) (body : List Byte) :
    fieldAddress p (h :: body) = nullOnError (bcdDecode body (bodyDigits body)) := by
  simp [fieldAddress, alnumPath, path]

/-- The plan code of the alphanumeric path is defined (R13 (e), R98). -/
theorem fieldAddress_alnumPath (c : Config) {h : Byte} (path : hdrPlan h = c.params.alnumPlan) (body : List Byte) :
    fieldAddress c.params (h :: body) = nullOnError (g7Decode c.params body) := by
  have hdefined := alnumPlan_defined c
  simp [fieldAddress, alnumPath, path, hdefined]

/-! ## The digits of a body (R72, R98) -/

/-- Nibbles read in order are those at the digit positions of the bytes (R72). -/
theorem take_nibblesOf {bs : List Byte} {byte : Nat → Byte} (hbyte : ∀ i (hi : i < bs.length), bs[i] = byte i)
    {c : Nat} (hc : c ≤ 2 * bs.length) : (nibblesOf bs).take c = (List.range c).map (nibbleAt byte) := by
  refine List.ext_getElem (by simp; omega) fun k hk hk' => ?_
  rw [List.length_map, List.length_range] at hk'
  have hin : k / 2 < bs.length := by omega
  rw [List.getElem_take, nibblesOf_getElem hin, hbyte _ hin, List.getElem_map, List.getElem_range, nibbleAt]
  split_ifs <;> rfl

/-- A nibble that is no digit makes the string null (R73, R98). -/
theorem nullOnError_bcdDecode_of_bad {bs : List Byte} {c : Nat} (bad : ∃ v ∈ (nibblesOf bs).take c, 9 < v.toNat) :
    nullOnError (bcdDecode bs c) = none := by
  unfold bcdDecode
  split
  · rfl
  · split
    · rfl
    · next hnone =>
      obtain ⟨v, hv, h9⟩ := bad
      have hdigit := List.findIdx?_eq_none_iff.1 hnone v hv
      rw [Bool.not_eq_false', isDigitNibble_iff] at hdigit
      omega

/-- Two digits for each body byte, one fewer when the last byte's high nibble is the filler (R98). -/
theorem bodyDigits_fieldBody {n : Nat} (hn : s.rawLen.toNat = 1 + n) : bodyDigits (fieldBytes s).tail =
    if 1 ≤ n ∧ (s.raw.read .raw n).extractLsb' 4 4 = 0xF then 2 * n - 1 else 2 * n := by
  have hlen : (fieldBytes s).tail.length = n := by rw [fieldBody_length]; omega
  rw [bodyDigits, List.getLast?_eq_getElem?, hlen]
  cases n with
  | zero => simp [List.eq_nil_of_length_eq_zero hlen]
  | succ n =>
    rw [List.getElem?_eq_getElem (by omega), fieldBody_getElem]
    simp [fillerNibble, Nat.add_comm]

/-- Settles O46: the codec reads the nibbles at the digit positions of RAW, which are all digits or are not. -/
theorem addressOfDigitField : Obligations.AddressOfDigitField := by
  unfold Obligations.AddressOfDigitField
  intro s n c hn hraw path hc
  have hpresent : s.rawLen ≠ 0 := by bv_omega
  have hlen : (fieldBytes s).tail.length = n := by rw [fieldBody_length]; omega
  have hcount : c ≤ 2 * (fieldBytes s).tail.length := by rw [hc, hlen]; split_ifs <;> omega
  have hnibbles := take_nibblesOf (fun i hi => fieldBody_getElem s (i := i) hi) hcount
  have haddress : fieldAddress s.cfg.params (fieldBytes s) = nullOnError (bcdDecode (fieldBytes s).tail c) := by
    rw [fieldBytes_of_present hpresent, fieldAddress_digitPath path, List.tail_cons, bodyDigits_fieldBody hn, ← hc]
  obtain ⟨hsucceeded, hhost, hfield, hbytes⟩ := addressResult_frame (fieldAddress s.cfg.params (fieldBytes s)) s
  refine ⟨_, exec_fldAddr s, hsucceeded, hhost, hfield, hbytes, fun hd => ?_, fun ⟨k, hk, bad⟩ => ?_⟩
  · have hcodec := bcdDecode_of_digits (bs := (fieldBytes s).tail) (c := c) (by omega) (by simpa [hnibbles] using hd)
    rw [hcodec, nullOnError] at haddress
    rw [haddress]
    have fits := fieldAddress_fits s.cfg (by rwa [fieldBytes_length]) haddress
    have hlen := bcdDecode_ok_length hcodec
    obtain ⟨hoclen, hread, hsame⟩ := charsWritten_addressResult fits
    rw [hlen] at hoclen hsame
    refine ⟨addressResult_res _ s, hoclen, fun k hk => ?_, hsame⟩
    rw [hread k (hk.trans_eq hlen.symm)]
    simp [hnibbles, digitChar_toNat]
  · rw [haddress, nullOnError_bcdDecode_of_bad]
    · exact addressResult_null s
    · rw [hnibbles]
      exact ⟨_, List.mem_map_of_mem (List.mem_range.2 hk), bad⟩

/-! ## The text of a body -/

/-- Settles O47: the address is what the codec makes of the body. -/
theorem addressOfAlphanumericField : Obligations.AddressOfAlphanumericField := by
  unfold Obligations.AddressOfAlphanumericField
  intro s hpresent hraw path
  have haddress : fieldAddress s.cfg.params (fieldBytes s) =
      nullOnError (g7Decode s.cfg.params (fieldBytes s).tail) := by
    rw [fieldBytes_of_present hpresent, fieldAddress_alnumPath s.cfg path, List.tail_cons]
  obtain ⟨hsucceeded, hhost, hfield, hbytes⟩ := addressResult_frame (fieldAddress s.cfg.params (fieldBytes s)) s
  refine ⟨_, exec_fldAddr s, hsucceeded, hhost, hfield, hbytes, fun r hr => ?_, fun e he => ?_⟩
  · rw [hr, nullOnError] at haddress
    rw [haddress]
    have fits := fieldAddress_fits s.cfg (by rwa [fieldBytes_length]) haddress
    exact ⟨addressResult_res r s, charsWritten_addressResult fits⟩
  · rw [haddress, he]
    exact addressResult_null s

end Sys2Proof.Machine
end

section
/-! PROOFS. The four accessors together (spec/43_field.md R94, R100 (c), (f)): none fails, none writes the field, and
none reads more of it than its rule says. -/

namespace Sys2Proof.Machine

variable {s t : State}

/-- A header accessor writes to RES a function of the header, 0 where there is none (R95 to R97). -/
theorem exec_headerAccessor {i : Instr} (hi : i = .fldNat ∨ i = .fldPlan ∨ i = .fldExt) (c : Config) :
    ∃ f : Option Byte → Word, f none = 0 ∧
      ∀ s : State, s.cfg = c → exec i s = .next (resultCommand (f (fieldHeader s)) s) := by
  obtain rfl | rfl | rfl := hi
  · exact ⟨natResult c.params, rfl, by rintro s rfl; exact exec_fldNat s⟩
  · exact ⟨planResult c.params, rfl, by rintro s rfl; exact exec_fldPlan s⟩
  · exact ⟨extResult, rfl, fun s _ => exec_fldExt s⟩

/-- Settles O48: the frames of the two shapes of accessor, and the result of each when there is no header. -/
theorem accessorsNeverFail : Obligations.AccessorsNeverFail := by
  unfold Obligations.AccessorsNeverFail
  intro i s hi
  by_cases haddr : i = .fldAddr
  · subst haddr
    obtain ⟨hsucceeded, hhost, hfield, hbytes⟩ := addressResult_frame (fieldAddress s.cfg.params (fieldBytes s)) s
    refine ⟨_, exec_fldAddr s, hsucceeded, hhost, hfield, hbytes, fun hne => absurd rfl hne, fun habsent => ?_⟩
    rw [fieldBytes_of_absent habsent, fieldAddress_nil]
    obtain ⟨hres, hchars⟩ := addressResult_null s
    exact ⟨hres, fun _ => hchars⟩
  · obtain ⟨f, hnone, hexec⟩ := exec_headerAccessor (by tauto) s.cfg
    obtain ⟨hsucceeded, hhost, hfield, hbytes, hchars⟩ := resultCommand_frame (f (fieldHeader s)) s
    refine ⟨_, hexec s rfl, hsucceeded, hhost, hfield, hbytes, fun _ => hchars, fun habsent =>
      ⟨?_, fun h => absurd h haddr⟩⟩
    rw [resultCommand_res, fieldHeader_of_absent habsent, hnone]

/-- Fields of one length with the same bytes past the header have one body. -/
theorem fieldBody_congr (hlen : s.rawLen = t.rawLen)
    (hbody : ∀ i, 1 ≤ i → i < s.rawLen.toNat → s.raw.read .raw i = t.raw.read .raw i) :
    (fieldBytes s).tail = (fieldBytes t).tail := by
  refine List.ext_getElem (by rw [fieldBody_length, fieldBody_length, hlen]) fun i hi hi' => ?_
  rw [fieldBody_getElem, fieldBody_getElem]
  rw [fieldBody_length] at hi
  exact hbody _ (by omega) (by omega)

/-- The address depends on the body and on the path (R98). -/
theorem fieldAddress_congr (c : Config) {h h' : Byte}
    (path : hdrPlan h = c.params.alnumPlan ↔ hdrPlan h' = c.params.alnumPlan) (body : List Byte) :
    fieldAddress c.params (h :: body) = fieldAddress c.params (h' :: body) := by
  by_cases halnum : hdrPlan h = c.params.alnumPlan
  · rw [fieldAddress_alnumPath c halnum, fieldAddress_alnumPath c (path.1 halnum)]
  · rw [fieldAddress_digitPath halnum, fieldAddress_digitPath (mt path.2 halnum)]

/-- What the host sees of an address is the same whatever stood in OCHR before. -/
theorem addressResult_congr (v : Option (List Char16)) (s t : State) :
    (addressResult v s).res = (addressResult v t).res ∧ (addressResult v s).oclen = (addressResult v t).oclen ∧
    ∀ i < (addressResult v s).oclen.toNat,
      (addressResult v s).ochr.read .ochr i = (addressResult v t).ochr.read .ochr i := by
  cases v with
  | none => exact ⟨rfl, rfl, nofun⟩
  | some cs =>
    refine ⟨rfl, rfl, fun i hi => ?_⟩
    have hi : i < cs.length := hi.trans_le (BitVec.toNat_ofNat .. ▸ Nat.mod_le ..)
    exact (read_writePrefix_lt .ochr s.ochr cs hi).trans (read_writePrefix_lt .ochr t.ochr cs hi).symm

/-- Settles O51: each header accessor is a function of the header, and the address of the body and the path. -/
theorem headerIsolation : Obligations.HeaderIsolation := by
  unfold Obligations.HeaderIsolation
  intro s t hcfg hs ht
  refine ⟨fun h0 i hi => ?_, fun hlen hbody path => ?_⟩
  · obtain ⟨f, -, hexec⟩ := exec_headerAccessor hi s.cfg
    refine ⟨_, _, hexec s rfl, hexec t hcfg.symm, ?_⟩
    rw [resultCommand_res, resultCommand_res, fieldHeader_of_present hs, fieldHeader_of_present ht, h0]
  · have haddress : fieldAddress t.cfg.params (fieldBytes t) = fieldAddress s.cfg.params (fieldBytes s) := by
      rw [fieldBytes_of_present hs, fieldBytes_of_present ht, ← fieldBody_congr hlen hbody, ← hcfg,
        fieldAddress_congr s.cfg path]
    refine ⟨_, _, exec_fldAddr s, exec_fldAddr t, ?_⟩
    rw [haddress]
    exact addressResult_congr _ s t

end Sys2Proof.Machine
end

section
/-! PROOFS. FLD_CONS and then FLD_ADDR (spec/43_field.md R100 (a), (b)): the field stored is the field read. -/

namespace Sys2Proof.Machine

variable {s : State}

/-- The last nibble is the high nibble of the last byte (R72). -/
theorem nibblesOf_getLast? (bs : List Byte) : (nibblesOf bs).getLast? = bs.getLast?.map fun b => b.extractLsb' 4 4 := by
  induction bs with
  | nil => rfl
  | cons b t ih =>
    cases t with
    | nil => rfl
    | cons b' t' => simpa [nibblesOf] using ih

/-- The digit count of FLD_ADDR is the number of nibbles without a filler at the end (R98). -/
theorem bodyDigits_eq (body : List Byte) : bodyDigits body =
    if (nibblesOf body).getLast? = some fillerNibble then (nibblesOf body).length - 1 else (nibblesOf body).length := by
  rw [nibblesOf_getLast?, nibblesOf_length, bodyDigits]
  cases h : body.getLast? with
  | none => simp [List.getLast?_eq_none_iff.1 h]
  | some b => simp

/-- Packed digits are counted as they were packed: no digit is taken for a filler. -/
theorem bodyDigits_packNibbles {ds : List Nibble} (hd : ∀ v ∈ ds, v.toNat ≤ 9) :
    bodyDigits (packNibbles ds) = ds.length := by
  rw [bodyDigits_eq, nibblesOf_packNibbles]
  obtain heven | hodd := Nat.mod_two_eq_zero_or_one ds.length
  · have hlast : ds.getLast? ≠ some fillerNibble := fun h => absurd (hd _ (List.mem_of_getLast? h)) (by decide)
    simp [heven, hlast]
  · simp [hodd]

/-- A field of packed digits has those digits as its address (R100 (a)). -/
theorem fieldAddress_of_digits {p : Params} {h : Byte} (path : hdrPlan h ≠ p.alnumPlan) {d : List Char16}
    (hd : ∀ c ∈ d, IsDigitChar c) : fieldAddress p (h :: packNibbles (d.map digitValue)) = some d := by
  have hcount := bodyDigits_packNibbles (List.forall_mem_map.2 fun c hc => digitValue_le_nine (hd c hc))
  rw [List.length_map] at hcount
  rw [fieldAddress_digitPath path, hcount, bcdDecode_packNibbles hd, nullOnError]

/-- FLD_ADDR after a field was stored, when that field has an address (R99). -/
theorem exec_fldAddr_putField {bs : List Byte} {cs : List Char16} (fits : bs.length ≤ s.cfg.params.rawCap)
    (h : fieldAddress s.cfg.params bs = some cs) :
    ∃ u, exec .fldAddr (complete (putField bs s)) = .next u ∧ u.res = 0x00001000 ∧
      CharsWritten cs (complete (putField bs s)) u := by
  have hlen : (complete (putField bs s)).rawLen.toNat = bs.length := putField_rawLen_toNat fits
  have hbytes : fieldBytes (complete (putField bs s)) = bs := by
    rw [fieldBytes, hlen]
    exact readPrefix_writePrefix .raw s.raw bs
  refine ⟨_, exec_fldAddr _, ?_⟩
  rw [hbytes, complete_cfg, putField_cfg, h]
  exact ⟨addressResult_res cs _, charsWritten_addressResult (fieldAddress_fits s.cfg fits h)⟩

/-- Settles O49: the address of the field stored is the string operand. -/
theorem digitFieldRoundTrip : Obligations.DigitFieldRoundTrip := by
  unfold Obligations.DigitFieldRoundTrip
  intro nat pln ext s L hnat hpln path fits short hd
  have hdigits := forall_mem_stringOperand hd
  obtain ⟨hfits, hexec⟩ := exec_fldCons_of_digits (ext := ext) hnat hpln path fits short hdigits
  have haddress := fieldAddress_of_digits (p := s.cfg.params) (h := hdrEncode nat pln ext)
    (by rwa [hdrPlan_hdrEncode]) hdigits
  obtain ⟨u, hu, hres, hoclen, hread, -⟩ := exec_fldAddr_putField (by rwa [List.length_cons, Nat.add_comm]) haddress
  rw [stringOperand_length] at hoclen
  refine ⟨_, u, hexec, hu, hres, BitVec.eq_of_toNat_eq hoclen, fun i hi => ?_⟩
  rw [hread i (by rwa [stringOperand_length]), stringOperand_getElem]

/-- Settles O50: the address of the field stored is what decoding the encoded text gives. -/
theorem alphanumericFieldRoundTrip : Obligations.AlphanumericFieldRoundTrip := by
  unfold Obligations.AlphanumericFieldRoundTrip
  intro nat ext s sep hnat fits hsep short
  have hexec := exec_fldCons_of_text (ext := ext) hnat fits hsep short
  have hread {cs : List Char16} (hdecode : g7Decode s.cfg.params (g7Pack sep) = .ok cs) :=
    exec_fldAddr_putField (s := s) (bs := hdrEncode nat s.cfg.params.alnumPlan ext :: g7Pack sep) (cs := cs)
      (by rwa [List.length_cons, g7Pack_length, Nat.add_comm])
      (by rw [fieldAddress_alnumPath s.cfg (hdrPlan_hdrEncode ..), hdecode, nullOnError])
  obtain ⟨hexact, hextra⟩ := g7RoundTripWithTrailingSeptet s.cfg (stringOperand s) sep hsep
  by_cases hS : sep.length % 8 = 7
  · obtain ⟨ch, hch, hdecode⟩ := hextra hS
    obtain ⟨u, hu, hres, hoclen, hread, -⟩ := hread hdecode
    rw [List.length_append, stringOperand_length, List.length_singleton] at hoclen
    refine ⟨_, u, hexec, hu, hres, fun i hi => ?_, fun h => absurd hS h, fun _ => ⟨hoclen, ?_⟩⟩
    · rw [hread i (by simp; omega), List.getElem_append_left (by rwa [stringOperand_length]), stringOperand_getElem]
    · rw [hread _ (by simp), List.getElem_append_right (by simp)]
      simpa using hch
  · obtain ⟨u, hu, hres, hoclen, hread, -⟩ := hread (hexact hS)
    rw [stringOperand_length] at hoclen
    refine ⟨_, u, hexec, hu, hres, fun i hi => ?_, fun _ => BitVec.eq_of_toNat_eq hoclen, fun h => absurd h hS⟩
    rw [hread i (by rwa [stringOperand_length]), stringOperand_getElem]

end Sys2Proof.Machine
end

section
/-! PROOFS. STATUS and errors (spec/60_exceptions.md R101 to R104, R106): how a command or a word leaves STATUS, what an
error leaves as it was, and which accesses clear STICKY. -/

namespace Sys2Proof.Machine

variable {i : Instr} {s t : State}

/-! ## STATUS after a command -/

theorem CommandSucceeds.status (h : CommandSucceeds s i t) : t.status = statusAfterSuccess s.status := by
  cases h <;> rfl

theorem CommandFails.status (h : CommandFails s i t) : ∃ e, t.status = statusAfterError e := by
  cases h <;> exact ⟨_, rfl⟩

/-- Settles O52: a command ends in a success or in a failure, and both leave a legal STATUS. -/
theorem everyCommandCompletes : Obligations.EveryCommandCompletes := by
  unfold Obligations.EveryCommandCompletes
  intro i s
  obtain ⟨t, hexec, hs | hf⟩ := exec_ends i s
  · exact ⟨t, hexec, hs.status ▸ statusLegal_afterSuccess _⟩
  · obtain ⟨e, he⟩ := hf.status
    exact ⟨t, hexec, he ▸ statusLegal_afterError e⟩

/-! ## What an error leaves as it was -/

/-- An encoder that fails sets OLEN to 0 and leaves the string result alone (R103). -/
theorem CommandFails.encoder_frame (h : CommandFails s i t) (hi : i = .bcdEnc ∨ i = .g7Enc) :
    t.olen = 0 ∧ SameChars s t := by
  cases h with
  | field e writer => rcases hi with rfl | rfl <;> cases writer
  | encoderOperand => exact ⟨rfl, rfl, rfl⟩
  | encoderCodec => exact ⟨rfl, rfl, rfl⟩
  | decoderOperand e decoder => rcases hi with rfl | rfl <;> simp at decoder
  | decoderCodec e decoder => rcases hi with rfl | rfl <;> simp at decoder

/-- A decoder that fails sets OCLEN to 0 and leaves the byte result alone (R103). -/
theorem CommandFails.decoder_frame (h : CommandFails s i t) (hi : (∃ c, i = .bcdDec c) ∨ i = .g7Dec) :
    t.oclen = 0 ∧ SameBytes s t := by
  cases h with
  | field e writer => rcases hi with ⟨c, rfl⟩ | rfl <;> cases writer
  | encoderOperand e encoder => rcases hi with ⟨c, rfl⟩ | rfl <;> simp at encoder
  | encoderCodec e encoder => rcases hi with ⟨c, rfl⟩ | rfl <;> simp at encoder
  | decoderOperand => exact ⟨rfl, rfl, rfl⟩
  | decoderCodec => exact ⟨rfl, rfl, rfl⟩

/-- A command that is no codec and fails changes STATUS alone (R103). -/
theorem CommandFails.eq_of_not_codec (h : CommandFails s i t) (hencoder : ¬ (i = .bcdEnc ∨ i = .g7Enc))
    (hdecoder : ¬ ((∃ c, i = .bcdDec c) ∨ i = .g7Dec)) : t = { s with status := t.status } := by
  cases h with
  | field => rfl
  | encoderOperand e encoder => exact absurd encoder hencoder
  | encoderCodec e encoder => exact absurd encoder hencoder
  | decoderOperand e decoder => exact absurd decoder hdecoder
  | decoderCodec e decoder => exact absurd decoder hdecoder

/-- Settles O54: a nonzero CAUSE means that the command failed, and each failure has its frame. -/
theorem errorLeavesStateButReport : Obligations.ErrorLeavesStateButReport := by
  unfold Obligations.ErrorLeavesStateButReport
  intro i s t h hc
  have hf := fails_of_statusCause_ne_zero h hc
  obtain ⟨hhost, hfield, hres⟩ := hf.frame
  obtain ⟨e, he⟩ := hf.status
  refine ⟨he ▸ statusSticky_afterError e, hhost, hfield, hres, hf.encoder_frame, hf.decoder_frame,
    fun hbcdEnc hg7Enc hbcdDec hg7Dec => ?_⟩
  exact hf.eq_of_not_codec (not_or.2 ⟨hbcdEnc, hg7Enc⟩) (not_or.2 ⟨not_exists.2 hbcdDec, hg7Dec⟩)

/-! ## STATUS after a word -/

/-- A word written to CMD leaves STATUS as a success does, or as an error does (R60, R102, R103). -/
theorem execute_status {v : Word} (h : execute v s = .next t) :
    t.status = statusAfterSuccess s.status ∨ ∃ e, t.status = statusAfterError e := by
  obtain ⟨e, -, heq⟩ | ⟨i, -, heq⟩ := execute_cases v s <;> rw [heq] at h
  · cases h
    exact .inr ⟨_, rfl⟩
  · exact (exec_cases h).imp (·.status) (·.status)

/-- Every error sets STICKY (R103, R104). -/
theorem statusSticky_of_execute_error {v : Word} (h : execute v s = .next t) (hc : statusCause t.status ≠ 0) :
    statusSticky t.status = true := by
  obtain hs | ⟨e, he⟩ := execute_status h
  · rw [hs] at hc
    exact absurd (statusCause_afterSuccess _) hc
  · rw [he, statusSticky_afterError]

/-! ## STICKY through a step -/

section Sticky

variable (hsticky : statusSticky s.status = true)
include hsticky

theorem statusSticky_execute {v : Word} (h : execute v s = .next t) : statusSticky t.status = true := by
  obtain hs | ⟨e, he⟩ := execute_status h
  · rw [hs, statusSticky_afterSuccess, hsticky]
  · rw [he, statusSticky_afterError]

theorem statusSticky_hostWriteReg {r : BitVec 8} {v : Word} (h : hostWriteReg r v s = .next t) :
    statusSticky t.status = true := by
  obtain ⟨-, heq⟩ | ⟨-, heq⟩ | ⟨-, heq⟩ | ⟨-, -, -, heq⟩ := hostWriteReg_cases r v s <;> rw [heq] at h
  · exact statusSticky_execute (s := { s with cmd := v }) hsticky h
  all_goals
    cases h
    exact hsticky

theorem statusSticky_hostWriteBuf (b : HostBuf) (i : Nat) (v : Word) :
    statusSticky (hostWriteBuf b i v s).status = true := by
  obtain ⟨-, -, heq⟩ | ⟨-, -, heq⟩ | heq := hostWriteBuf_cases b i v s <;> rw [heq] <;> exact hsticky

/-- With the reset input released only its assertion clears STICKY (R104, R111). -/
theorem statusSticky_accessRunning {a : HostAccess} (h : accessRunning a s = .next t) :
    statusSticky t.status = true ∨ a = .assertReset := by
  cases a with
  | writeReg r v => exact .inl (statusSticky_hostWriteReg hsticky h)
  | readReg r => cases h; exact .inl hsticky
  | writeBuf b i v => cases h; exact .inl (statusSticky_hostWriteBuf hsticky b i v)
  | readBuf b i => cases h; exact .inl hsticky
  | assertReset => exact .inr rfl
  | releaseReset => cases h; exact .inl hsticky

/-- With the reset input asserted only its release clears STICKY (R104, R111). -/
theorem statusSticky_accessInReset (a : HostAccess) :
    statusSticky (accessInReset a s).status = true ∨ a = .releaseReset := by
  cases a with
  | releaseReset => exact .inr rfl
  | _ => exact .inl hsticky

/-- A step clears STICKY only by an access to the reset input (R104). -/
theorem statusSticky_step (h : step s = .next t) : statusSticky t.status = true ∨
    (∃ rest, s.pending = .assertReset :: rest) ∨ ∃ rest, s.pending = .releaseReset :: rest := by
  obtain ⟨-, heq⟩ | ⟨a, rest, hp, -, heq⟩ | ⟨a, rest, hp, -, heq⟩ := step_cases s <;> rw [heq] at h
  · cases h
    exact .inl hsticky
  · cases h
    refine (statusSticky_accessInReset (s := { s with pending := rest }) hsticky a).imp_right ?_
    rintro rfl
    exact .inr ⟨rest, hp⟩
  · refine (statusSticky_accessRunning (s := { s with pending := rest }) hsticky h).imp_right ?_
    rintro rfl
    exact .inl ⟨rest, hp⟩

end Sticky

/-! ## The report of a command does not depend on STATUS -/

/-- STATUS after a command that reports this error, or none: `complete()` of R102, `raise` of R103. -/
def statusAfter : Option AfcError → Word → Word
  | none, before => statusAfterSuccess before
  | some e, _ => statusAfterError e

/-- CAUSE, SUB and IDX are overwritten: they come from the report alone (R102 to R104). -/
theorem statusAfter_codes (report : Option AfcError) (v w : Word) :
    statusCause (statusAfter report v) = statusCause (statusAfter report w) ∧
    statusSub (statusAfter report v) = statusSub (statusAfter report w) ∧
    statusIdx (statusAfter report v) = statusIdx (statusAfter report w) := by
  cases report with
  | none => simp [statusAfter, statusAfterSuccess]
  | some e => exact ⟨rfl, rfl, rfl⟩

theorem encodeOperand_report (codec : List Char16 → Except AfcError (List Byte)) (s : State) :
    ∃ report, ∀ before, (encodeOperand codec { s with status := before }).status = statusAfter report before := by
  obtain fits | overrun := le_or_gt s.iclen.toNat s.cfg.params.ichrCap
  · cases hr : codec (stringOperand s) with
    | error e =>
      exact ⟨some e, fun before =>
        congrArg State.status (encodeOperand_of_error (s := { s with status := before }) fits hr)⟩
    | ok r =>
      obtain short | long := le_or_gt r.length s.cfg.params.obufCap
      · exact ⟨none, fun before =>
          congrArg State.status (encodeOperand_of_ok (s := { s with status := before }) fits hr short)⟩
      · exact ⟨some (.obufOverrun r.length), fun before =>
          congrArg State.status (encodeOperand_of_long (s := { s with status := before }) fits hr long)⟩
  · refine ⟨some (.ichrOverrun s.iclen.toNat), fun before => ?_⟩
    rw [encodeOperand_of_overrun (s := { s with status := before }) overrun, statusAfter, statusAfterError_ichrOverrun]

theorem decodeOperand_report (codec : List Byte → Except AfcError (List Char16)) (s : State) :
    ∃ report, ∀ before, (decodeOperand codec { s with status := before }).status = statusAfter report before := by
  obtain fits | overrun := le_or_gt s.ilen.toNat s.cfg.params.ibufCap
  · cases hr : codec (byteOperand s) with
    | error e =>
      exact ⟨some e, fun before =>
        congrArg State.status (decodeOperand_of_error (s := { s with status := before }) fits hr)⟩
    | ok r =>
      exact ⟨none, fun before =>
        congrArg State.status (decodeOperand_of_ok (s := { s with status := before }) fits hr)⟩
  · refine ⟨some (.ibufOverrun s.ilen.toNat), fun before => ?_⟩
    rw [decodeOperand_of_overrun (s := { s with status := before }) overrun, statusAfter, statusAfterError_ibufOverrun]

theorem storeField_report (r : Except AfcError (List Byte)) :
    ∃ report, ∀ s, (storeField r s).status = statusAfter report s.status := by
  cases r with
  | error e => exact ⟨some e, fun _ => rfl⟩
  | ok bs => exact ⟨none, fun _ => rfl⟩

/-- What a command reports does not depend on STATUS before it (R104). -/
theorem exec_report (i : Instr) (s : State) : ∃ report, ∀ before, ∃ t,
    exec i { s with status := before } = .next t ∧ t.status = statusAfter report before := by
  cases i with
  | bcdEnc => exact (encodeOperand_report bcdEncode s).imp fun _ h before => ⟨_, rfl, h before⟩
  | g7Enc => exact (encodeOperand_report (g7Encode s.cfg.params) s).imp fun _ h before => ⟨_, rfl, h before⟩
  | bcdDec c =>
    exact (decodeOperand_report (fun bytes => bcdDecode bytes c.toNat) s).imp fun _ h before => ⟨_, rfl, h before⟩
  | g7Dec => exact (decodeOperand_report (g7Decode s.cfg.params) s).imp fun _ h before => ⟨_, rfl, h before⟩
  | fldCons nat natp pln plnp ext adrp =>
    exact (storeField_report (consField s.cfg.params nat natp pln plnp ext adrp (ichrOver s) s.iclen.toNat
      (stringOperand s))).imp fun _ h _ => ⟨_, rfl, h _⟩
  | fldLoad => exact (storeField_report (loadField s)).imp fun _ h _ => ⟨_, rfl, h _⟩
  | fldAddr =>
    refine ⟨none, fun before => ⟨_, rfl, ?_⟩⟩
    obtain ⟨succeeded, -⟩ :=
      addressResult_frame (fieldAddress s.cfg.params (fieldBytes s)) { s with status := before }
    exact succeeded
  | _ => exact ⟨none, fun _ => ⟨_, rfl, rfl⟩⟩

/-- What a word reports does not depend on STATUS before it, whether the word is legal or not (R60, R104). -/
theorem execute_report (v : Word) (s : State) : ∃ report, ∀ before, ∃ t,
    execute v { s with status := before } = .next t ∧ t.status = statusAfter report before := by
  cases hdecode : decode v with
  | error e => exact ⟨some (illegalError e), fun before => ⟨_, by rw [execute, hdecode], rfl⟩⟩
  | ok i =>
    obtain ⟨report, h⟩ := exec_report i s
    refine ⟨report, fun before => ?_⟩
    rw [execute, hdecode]
    exact h before

/-- Settles O55: the accesses that keep STICKY, the errors that set it, and a report that comes from the word and the
rest of the state. -/
theorem stickyClearedOnlyByReset : Obligations.StickyClearedOnlyByReset := by
  unfold Obligations.StickyClearedOnlyByReset
  refine ⟨fun s t hstep hsticky => statusSticky_step hsticky hstep,
    fun v s t => statusSticky_of_execute_error, fun v s before => ?_⟩
  obtain ⟨report, h⟩ := execute_report v s
  obtain ⟨t, ht, htstatus⟩ := h s.status
  obtain ⟨u, hu, hustatus⟩ := h before
  refine ⟨t, u, ht, hu, ?_⟩
  rw [htstatus, hustatus]
  exact statusAfter_codes report s.status before

end Sys2Proof.Machine
end

section
/-! PROOFS. Reset, and the accesses as the only thing that changes the machine (spec/70_reset_and_hazards.md R111, R116,
R117; spec/10_state.md R20, R29, R30, R35). -/

namespace Sys2Proof.Machine

variable {s t : State} {a : HostAccess} {rest : List HostAccess}

/-! ## The state right after reset -/

theorem registersZero_resetWith (c : Config) : RegistersZero (State.resetWith c) :=
  ⟨rfl, rfl, rfl, rfl, rfl, rfl, rfl, rfl⟩

/-- Settles O9: the registers of `State.resetWith` are 0 and its stores blank. -/
theorem resetLeavesRegistersZero : Obligations.ResetLeavesRegistersZero := by
  unfold Obligations.ResetLeavesRegistersZero
  exact fun c => ⟨registersZero_resetWith c, rfl, rfl, rfl, rfl, rfl, rfl, rfl⟩

/-- Canonical stores beside registers that are all 0 meet the invariant: no element lies inside a length, and 0 is a legal
STATUS and a legal RES. -/
theorem inv_of_registersZero (hraw : s.raw.wf s.cfg.params.rawCap) (hibuf : s.ibuf.wf s.cfg.params.ibufCap)
    (hichr : s.ichr.wf s.cfg.params.ichrCap) (hobuf : s.obuf.wf s.cfg.params.obufCap)
    (hochr : s.ochr.wf s.cfg.params.ochrCap) (hzero : RegistersZero s) : s.Inv := by
  have ⟨hrawLen, _, _, holen, hoclen, hres, hstatus, _⟩ := hzero
  exact {
    rawWf := hraw, ibufWf := hibuf, ichrWf := hichr, obufWf := hobuf, ochrWf := hochr
    rawLenFits := by simp [hrawLen]
    olenFits := by simp [holen]
    oclenFits := by simp [hoclen]
    fieldListed := by simp [hrawLen]
    bytesListed := by simp [holen]
    charsListed := by simp [hoclen]
    statusLegal := hstatus ▸ statusLegal_zero
    resLegal := hres ▸ resLegal_zero _
    inReset := fun _ => hzero }

/-- Settles O10: blank stores are canonical, and every register is 0. -/
theorem resetMeetsInvariant : Obligations.ResetMeetsInvariant := by
  unfold Obligations.ResetMeetsInvariant
  intro c
  obtain ⟨hraw, hibuf, hichr, hobuf, hochr⟩ := resetWith_wf c
  exact inv_of_registersZero hraw hibuf hichr hobuf hochr (registersZero_resetWith c)

/-! ## The reset input -/

/-- A forgotten store lists nothing and is in a draw other than before (R111; log 1). -/
theorem forget_unspecified {w : Nat} (m : Memory w) : m.forget.cells = [] ∧ m.forget.draw ≠ m.draw :=
  ⟨rfl, Nat.succ_ne_self _⟩

/-- What an access that moves the reset input leaves (R111). -/
theorem resetFrom_resetTo (line : Bool) (hp : s.pending = a :: rest) :
    ResetFrom line s (resetTo line { s with pending := rest }) where
  registers := ⟨rfl, rfl, rfl, rfl, rfl, rfl, rfl, rfl⟩
  resetLine := rfl
  cfg := rfl
  reads := rfl
  pending := by simp [hp]
  raw := forget_unspecified _
  ibuf := forget_unspecified _
  ichr := forget_unspecified _
  obuf := forget_unspecified _
  ochr := forget_unspecified _

/-- Settles O13: the two accesses that move the reset input reset the machine; in reset a read records 0 and every other
access does nothing, as releasing a released input does. -/
theorem resetInputClearsState : Obligations.ResetInputClearsState := by
  unfold Obligations.ResetInputClearsState
  intro s a rest hp
  refine ⟨?_, ?_, ?_, ?_, ?_⟩
  · rintro hr rfl
    exact ⟨_, step_running hr hp, resetFrom_resetTo true hp⟩
  · rintro hr rfl
    exact ⟨_, step_inReset hr hp, resetFrom_resetTo false hp⟩
  · rintro hr (⟨r, rfl⟩ | ⟨b, i, rfl⟩)
    · exact step_inReset hr hp
    · exact step_inReset hr hp
  · rintro hr (⟨r, v, rfl⟩ | ⟨b, i, v, rfl⟩ | rfl)
    · exact step_inReset hr hp
    · exact step_inReset hr hp
    · exact step_inReset hr hp
  · rintro hr rfl
    exact step_running hr hp

/-! ## What no access changes -/

/-- What every access leaves of the state that is not the AFC's: the configuration and the accesses after it as they were,
and at most one value more among those read (R111, R117). -/
structure AccessFrame (s t : State) : Prop where
  cfg : t.cfg = s.cfg
  pending : t.pending = s.pending
  reads : (∃ v, t.reads = s.reads ++ [v]) ∨ t.reads = s.reads

theorem accessFrame_refl (s : State) : AccessFrame s s := ⟨rfl, rfl, .inr rfl⟩

theorem accessFrame_recordRead (v : Word) (s : State) : AccessFrame s (recordRead v s) := ⟨rfl, rfl, .inl ⟨v, rfl⟩⟩

theorem accessFrame_resetTo (line : Bool) (s : State) : AccessFrame s (resetTo line s) := ⟨rfl, rfl, .inr rfl⟩

theorem SameHostSide.accessFrame (h : SameHostSide s t) : AccessFrame s t := by
  obtain ⟨hcfg, -, -, -, -, -, -, hpending, hreads⟩ := h
  exact ⟨hcfg, hpending, .inr hreads⟩

theorem accessFrame_exec {i : Instr} (h : exec i s = .next t) : AccessFrame s t := by
  obtain hs | hf := exec_cases h
  · exact hs.sameHostSide.accessFrame
  · obtain ⟨hhost, -, -⟩ := hf.frame
    exact hhost.accessFrame

/-- Every word written to CMD takes effect, legal or not (R60). -/
theorem execute_accessFrame (v : Word) (s : State) : ∃ t, execute v s = .next t ∧ AccessFrame s t := by
  obtain ⟨e, -, heq⟩ | ⟨i, -, heq⟩ := execute_cases v s <;> rw [heq]
  · exact ⟨_, rfl, rfl, rfl, .inr rfl⟩
  · obtain ⟨t, ht, -⟩ := exec_ends i s
    exact ⟨t, ht, accessFrame_exec ht⟩

theorem hostWriteReg_accessFrame (r : BitVec 8) (v : Word) (s : State) :
    ∃ t, hostWriteReg r v s = .next t ∧ AccessFrame s t := by
  obtain ⟨-, heq⟩ | ⟨-, heq⟩ | ⟨-, heq⟩ | ⟨-, -, -, heq⟩ := hostWriteReg_cases r v s <;> rw [heq]
  · obtain ⟨t, ht, hcfg, hpending, hreads⟩ := execute_accessFrame v { s with cmd := v }
    exact ⟨t, ht, hcfg, hpending, hreads⟩
  · exact ⟨_, rfl, rfl, rfl, .inr rfl⟩
  · exact ⟨_, rfl, rfl, rfl, .inr rfl⟩
  · exact ⟨_, rfl, accessFrame_refl s⟩

theorem accessFrame_hostWriteBuf (b : HostBuf) (i : Nat) (v : Word) (s : State) :
    AccessFrame s (hostWriteBuf b i v s) := by
  obtain ⟨-, -, heq⟩ | ⟨-, -, heq⟩ | heq := hostWriteBuf_cases b i v s <;> rw [heq] <;> exact ⟨rfl, rfl, .inr rfl⟩

theorem accessRunning_accessFrame (a : HostAccess) (s : State) :
    ∃ t, accessRunning a s = .next t ∧ AccessFrame s t := by
  cases a with
  | writeReg r v => exact hostWriteReg_accessFrame r v s
  | readReg r => exact ⟨_, rfl, accessFrame_recordRead _ s⟩
  | writeBuf b i v => exact ⟨_, rfl, accessFrame_hostWriteBuf b i v s⟩
  | readBuf b i => exact ⟨_, rfl, accessFrame_recordRead _ s⟩
  | assertReset => exact ⟨_, rfl, accessFrame_resetTo true s⟩
  | releaseReset => exact ⟨_, rfl, accessFrame_refl s⟩

theorem accessFrame_accessInReset (a : HostAccess) (s : State) : AccessFrame s (accessInReset a s) := by
  cases a with
  | readReg r => exact accessFrame_recordRead 0 s
  | readBuf b i => exact accessFrame_recordRead 0 s
  | releaseReset => exact accessFrame_resetTo false s
  | _ => exact accessFrame_refl s

/-- A step takes the next access, if there is one, and keeps what no access changes (R116). -/
theorem step_accessFrame (s : State) : ∃ t, step s = .next t ∧ AccessFrame { s with pending := s.pending.tail } t := by
  obtain ⟨hp, heq⟩ | ⟨a, rest, hp, -, heq⟩ | ⟨a, rest, hp, -, heq⟩ := step_cases s <;> rw [heq, hp]
  · exact ⟨s, rfl, rfl, hp, .inr rfl⟩
  · exact ⟨_, rfl, accessFrame_accessInReset a _⟩
  · exact accessRunning_accessFrame a _

/-- Settles O58: of the cases of a step only the one without an access has none left, and every step has the frame of an
access. -/
theorem onlyAccessesChangeTheMachine : Obligations.OnlyAccessesChangeTheMachine := by
  unfold Obligations.OnlyAccessesChangeTheMachine
  intro s
  refine ⟨fun hp => ?_, ?_⟩
  · obtain ⟨-, heq⟩ | ⟨a, rest, hcons, -⟩ | ⟨a, rest, hcons, -⟩ := step_cases s
    · exact heq
    · cases hp.symm.trans hcons
    · cases hp.symm.trans hcons
  · obtain ⟨t, hstep, hcfg, hpending, hreads⟩ := step_accessFrame s
    exact ⟨t, hstep, hcfg, hpending, hreads⟩

end Sys2Proof.Machine
end
